-- ==== Sys2Proof/Word.lean ====
section
/-! DEFINITION. The widths of the block: bytes and 32-bit words (`spec/00_scope.md` R16: every quantity is unsigned). -/

namespace Sys2Proof

/-- A byte of the file store, of a date or of an initials field, and the immediate of a command (R16, R91). -/
abbrev Byte := BitVec 8

/-- A host-visible register, a command word, the combined checksum (`spec/10_state.md` R26). -/
abbrev Word := BitVec 32

end Sys2Proof
end

