-- ==== Sys2Proof/Syntax.lean ====
section
/-! DEFINITION. The sixteen commands of the opcode map (`spec/30_encoding.md` R92), one constructor per row of
`spec/opcode_table.json`. -/

namespace Sys2Proof

/-- A command. The five that take an immediate carry it as the 8-bit unsigned field `w[15:8]` (R91). -/
inductive Instr
  | adlRst
  | adlByte (d : Byte)
  | adlVal
  | ckInit
  | ckPush (d : Byte)
  | ckEnd
  | fsCsum
  | fsCsumz
  | svWrite
  | svRead
  | svVerify
  | svAppend
  | svNew (n : Byte)
  | svInit (n : Byte)
  | scGet (idx : Byte)
  | scPut (idx : Byte)
  deriving DecidableEq, Repr

end Sys2Proof
end

