-- ==== Sys2Proof/WellFormed.lean ====
section
/-! DEFINITION. Which command words are legal, and that every `Instr` is well-formed.

A command word is well-formed when none of the three conditions of `spec/30_encoding.md` R94 holds. The fields of an
`Instr` are exactly the fields of format C (R90), each at its own width, so a term of `Instr` needs no check: what can be
ill-formed on this hardware is a WORD. These checks are written from R94 and R92, not from the decoder. -/

namespace Sys2Proof

/-- The opcodes R92 assigns. -/
def assignedOpcodes : List Byte :=
  [0x01, 0x02, 0x03, 0x04, 0x05, 0x06, 0x08, 0x09, 0x10, 0x11, 0x12, 0x18, 0x19, 0x1A, 0x1B, 0x1C]

/-- The opcodes that take an immediate (R91, R92). -/
def immediateOpcodes : List Byte := [0x02, 0x05, 0x19, 0x1A, 0x1B, 0x1C]

/-- Not R94 (a): the bits 31:16 are zero. -/
def upperHalfZero (w : Word) : Bool := w.extractLsb' 16 16 == 0

/-- Not R94 (b): the opcode is one of the sixteen. -/
def opcodeAssigned (w : Word) : Bool := assignedOpcodes.contains (w.extractLsb' 0 8)

/-- Not R94 (c): an opcode that takes no immediate has `imm8 = 0`. -/
def immediateAllowed (w : Word) : Bool :=
  immediateOpcodes.contains (w.extractLsb' 0 8) || w.extractLsb' 8 8 == 0

/-- A word that is a command: none of R94 (a), (b), (c) holds. -/
def wordWellFormed (w : Word) : Bool := upperHalfZero w && opcodeAssigned w && immediateAllowed w

/-- Every `Instr` is well-formed: its immediate is 8 bits wide by its type (R90, R91). -/
def Instr.wellFormed : Instr → Bool
  | .adlRst => true
  | .adlByte _ => true
  | .adlVal => true
  | .ckInit => true
  | .ckPush _ => true
  | .ckEnd => true
  | .fsCsum => true
  | .fsCsumz => true
  | .svWrite => true
  | .svRead => true
  | .svVerify => true
  | .svAppend => true
  | .svNew _ => true
  | .svInit _ => true
  | .scGet _ => true
  | .scPut _ => true

end Sys2Proof
end

