-- ==== Sys2Proof/Decode.lean ====
section
/-! DEFINITION. The decoder, total on 32-bit words, the encoder, and the opcode map of `spec/30_encoding.md` R92 as a
table. The decoder looks at nothing but the word (R93). -/

namespace Sys2Proof

/-- Why a word is illegal: the three conditions of `spec/30_encoding.md` R94. -/
inductive IllegalReason
  /-- R94 (a): `w[31:16] != 0`. -/
  | reservedBits
  /-- R94 (b): the opcode is none of the sixteen. -/
  | unassignedOpcode
  /-- R94 (c): the opcode takes no immediate and `w[15:8] != 0`. -/
  | immediateNotZero
  deriving DecidableEq, Repr

/-- What the decoder answers (R93). -/
inductive Decoded
  | command (i : Instr)
  | illegal (why : IllegalReason)
  deriving DecidableEq, Repr

/-- The field `op`, bits 7:0 (R90). -/
def opField (w : Word) : Byte := w.extractLsb' 0 8

/-- The field `imm8`, bits 15:8 (R90, R91). -/
def immField (w : Word) : Byte := w.extractLsb' 8 8

/-- The field `zero`, bits 31:16 (R90). -/
def zeroField (w : Word) : BitVec 16 := w.extractLsb' 16 16

/-- A command that takes no immediate: `imm8` must be 0 (R90, R94 (c)). -/
def withoutImm (imm : Byte) (i : Instr) : Decoded :=
  if imm = 0#8 then .command i else .illegal .immediateNotZero

/-- The opcode map (R92), for a word whose upper half is zero. -/
def decodeOp (op imm : Byte) : Decoded :=
  match op with
  | 0x01#8 => withoutImm imm .adlRst
  | 0x02#8 => .command (.adlByte imm)
  | 0x03#8 => withoutImm imm .adlVal
  | 0x04#8 => withoutImm imm .ckInit
  | 0x05#8 => .command (.ckPush imm)
  | 0x06#8 => withoutImm imm .ckEnd
  | 0x08#8 => withoutImm imm .fsCsum
  | 0x09#8 => withoutImm imm .fsCsumz
  | 0x10#8 => withoutImm imm .svWrite
  | 0x11#8 => withoutImm imm .svRead
  | 0x12#8 => withoutImm imm .svVerify
  | 0x18#8 => withoutImm imm .svAppend
  | 0x19#8 => .command (.svNew imm)
  | 0x1A#8 => .command (.svInit imm)
  | 0x1B#8 => .command (.scGet imm)
  | 0x1C#8 => .command (.scPut imm)
  | _ => .illegal .unassignedOpcode

/-- Decoding of a word written to CMD: total, and a function of the word alone (R93, R94). -/
def decode (w : Word) : Decoded :=
  if zeroField w = 0#16 then decodeOp (opField w) (immField w) else .illegal .reservedBits

/-- The decoder as the host asks for it: a table row's word, `nbits` wide, bit 0 the least significant. -/
def decodeTableWord (nbits w : Nat) : Option Instr :=
  match decode (BitVec.ofNat 32 (w % 2 ^ nbits)) with
  | .command i => some i
  | .illegal _ => none

/-! ### The encoder -/

/-- The opcode of a command (R92). -/
def opcodeOf : Instr → Byte
  | .adlRst => 0x01
  | .adlByte _ => 0x02
  | .adlVal => 0x03
  | .ckInit => 0x04
  | .ckPush _ => 0x05
  | .ckEnd => 0x06
  | .fsCsum => 0x08
  | .fsCsumz => 0x09
  | .svWrite => 0x10
  | .svRead => 0x11
  | .svVerify => 0x12
  | .svAppend => 0x18
  | .svNew _ => 0x19
  | .svInit _ => 0x1A
  | .scGet _ => 0x1B
  | .scPut _ => 0x1C

/-- The immediate of a command, 0 for a command that takes none (R90, R91). -/
def immOf : Instr → Byte
  | .adlByte d => d
  | .ckPush d => d
  | .svNew n => n
  | .svInit n => n
  | .scGet idx => idx
  | .scPut idx => idx
  | .adlRst => 0
  | .adlVal => 0
  | .ckInit => 0
  | .ckEnd => 0
  | .fsCsum => 0
  | .fsCsumz => 0
  | .svWrite => 0
  | .svRead => 0
  | .svVerify => 0
  | .svAppend => 0

/-- The command word: `{zero, imm8, op}` (R90). -/
def encode (i : Instr) : Word := (0#16 ++ immOf i) ++ opcodeOf i

/-! ### The opcode map as a table -/

/-- A row of R92: `w` is the command of the row when `(w & mask) = match`. -/
structure OpcodeRow where
  mnemonic : String
  matchBits : Word
  mask : Word
  command : Byte → Instr

/-- The rows of R92, as the table writes them; `command` is applied to `w[15:8]` (R91). -/
def opcodeTable : List OpcodeRow :=
  [ ⟨"ADL.RST", 0x00000001, 0xFFFFFFFF, fun _ => .adlRst⟩,
    ⟨"ADL.BYTE", 0x00000002, 0xFFFF00FF, .adlByte⟩,
    ⟨"ADL.VAL", 0x00000003, 0xFFFFFFFF, fun _ => .adlVal⟩,
    ⟨"CK.INIT", 0x00000004, 0xFFFFFFFF, fun _ => .ckInit⟩,
    ⟨"CK.PUSH", 0x00000005, 0xFFFF00FF, .ckPush⟩,
    ⟨"CK.END", 0x00000006, 0xFFFFFFFF, fun _ => .ckEnd⟩,
    ⟨"FS.CSUM", 0x00000008, 0xFFFFFFFF, fun _ => .fsCsum⟩,
    ⟨"FS.CSUMZ", 0x00000009, 0xFFFFFFFF, fun _ => .fsCsumz⟩,
    ⟨"SV.WRITE", 0x00000010, 0xFFFFFFFF, fun _ => .svWrite⟩,
    ⟨"SV.READ", 0x00000011, 0xFFFFFFFF, fun _ => .svRead⟩,
    ⟨"SV.VERIFY", 0x00000012, 0xFFFFFFFF, fun _ => .svVerify⟩,
    ⟨"SV.APPEND", 0x00000018, 0xFFFFFFFF, fun _ => .svAppend⟩,
    ⟨"SV.NEW", 0x00000019, 0xFFFF00FF, .svNew⟩,
    ⟨"SV.INIT", 0x0000001A, 0xFFFF00FF, .svInit⟩,
    ⟨"SC.GET", 0x0000001B, 0xFFFF00FF, .scGet⟩,
    ⟨"SC.PUT", 0x0000001C, 0xFFFF00FF, .scPut⟩ ]

/-- `w` is the command of the row (R92). -/
def OpcodeRow.matchesWord (r : OpcodeRow) (w : Word) : Bool := w &&& r.mask == r.matchBits

end Sys2Proof
end

