-- ==== Sys2Proof/Config.lean ====
section
/-! DEFINITION. The constants the document fixes, the two open parameters, and the free values. -/

namespace Sys2Proof

/-- The modulus of the accumulators (`spec/00_scope.md` R5; not 65536, `spec/40_checksum.md` R121). -/
def adlerModulus : Nat := 65521

/-- Bytes in a full chunk (R5). -/
def chunkLen : Nat := 128

/-- Bytes in the header of a save file (R6). -/
def headerLen : Nat := 8

/-- Bytes in the checksum field, which stands at offset 0 (R6). -/
def cksumLen : Nat := 4

/-- Score slots of the save buffer (R9). -/
def slotCount : Nat := 255

/-- The two legal on-file widths of the initials field (R7). -/
inductive InitialsWidth
  | three
  | four
  deriving DecidableEq, Repr

/-- INITIALS_W as a number of bytes (R7). -/
def InitialsWidth.bytes : InitialsWidth → Nat
  | .three => 3
  | .four => 4

/-- The configuration of a block: the two parameters the spec leaves open (R7, R8, R14). -/
structure Config where
  /-- INITIALS_W (R7). -/
  initialsW : InitialsWidth
  /-- FS_CAP, the capacity of the attached file store in bytes (R8). -/
  fsCap : Nat
  deriving DecidableEq, Repr

/-- REC_LEN = 3 + 4 + INITIALS_W (R7). -/
def Config.recLen (c : Config) : Nat := 3 + 4 + c.initialsW.bytes

/-- Length of a save file with `n` score records (`spec/20_memory.md` R64). -/
def Config.fileLen (c : Config) (n : Nat) : Nat := headerLen + c.recLen * n

/-- The constraint on FS_CAP: the largest save fits (R8, `spec/70_reset_and_hazards.md` R223). -/
abbrev Config.legal (c : Config) : Prop := c.fileLen slotCount ≤ c.fsCap

/-- This spec's values: INITIALS_W = 4 (D2), FS_CAP = 4096 (D9); log 2. -/
def Config.spec : Config := { initialsW := .four, fsCap := 4096 }

/-- FREE VALUE. The n-th byte drawn, for an unspecified score slot
(`spec/10_state.md` R47: "it takes each of its 11 bytes as a free draw"; log 3), and for an access to the file store whose
requirement the environment has broken in mid-command (log 7). -/
opaque Config.freeByte : Nat → Byte

/-- FREE VALUE. What FS_STAT shows in its 13-bit length field for a length that needs more than 13 bits, which
only a FS_CAP above 8191 allows (`spec/10_state.md` R40 gives the field for FS_CAP = 4096); log 11. -/
opaque Config.longLenField : Nat → BitVec 13

end Sys2Proof
end

