-- ==== Sys2Proof/Machine/Score.lean ====
section
/-! DEFINITION. One Score, and how a slot of the save buffer becomes unspecified: a free draw of its eleven bytes
(`spec/10_state.md` R44, R47). -/

namespace Sys2Proof.Machine

/-- One Score (`spec/10_state.md` R44); `ini0` to `ini3` are `initials[0..3]`. -/
structure Score where
  day : Byte
  month : Byte
  year : Byte
  value : Word
  ini0 : Byte
  ini1 : Byte
  ini2 : Byte
  ini3 : Byte
  deriving DecidableEq, Repr

/-- The eleven bytes drawn for one unspecified slot, from draw number `k` on (`spec/10_state.md` R47). -/
def drawScore (k : Nat) : Score :=
  { day := Config.freeByte k, month := Config.freeByte (k + 1), year := Config.freeByte (k + 2),
    value := ((Config.freeByte (k + 6) ++ Config.freeByte (k + 5)) ++ Config.freeByte (k + 4)) ++ Config.freeByte (k + 3),
    ini0 := Config.freeByte (k + 7), ini1 := Config.freeByte (k + 8), ini2 := Config.freeByte (k + 9),
    ini3 := Config.freeByte (k + 10) }

/-- How many free bytes one slot takes (R47: "each of its 11 bytes"). -/
def drawsPerSlot : Nat := 11

/-- The first `n` of a run of slots become unspecified: each takes eleven new draws, from number `k` on; the slots after
them keep what they held (R47). -/
def redraw : Nat → Nat → List Score → List Score
  | 0, _, slots => slots
  | _ + 1, _, [] => []
  | n + 1, k, _ :: rest => drawScore k :: redraw n (k + drawsPerSlot) rest

theorem length_redraw (n k : Nat) (l : List Score) : (redraw n k l).length = l.length := by
  induction n generalizing k l with
  | zero => rfl
  | succ n ih => cases l <;> simp [redraw, ih]

/-- The first `n` slots of the buffer become unspecified (R47). -/
def redrawSlots (n k : Nat) (slots : Vector Score 255) : Vector Score 255 :=
  ⟨⟨redraw n k slots.toList⟩, (length_redraw n k slots.toList).trans slots.size_toArray⟩

/-- A Score of zero bytes. It stands for no slot of the block: it is what the slot accessor answers for an index past
254, which no command reads (log 24). -/
def Score.blank : Score := ⟨0, 0, 0, 0, 0, 0, 0, 0⟩

/-- All 255 slots unspecified, from draw number `k` on (R47, R51). -/
def drawnSlots (k : Nat) : Vector Score 255 :=
  ⟨⟨redraw 255 k (List.replicate 255 Score.blank)⟩, (length_redraw 255 k _).trans (List.length_replicate ..)⟩

end Sys2Proof.Machine
end

