-- ==== Sys2Proof/Machine/State.lean ====
section
/-! DEFINITION. The state of the block: the five groups of `spec/10_state.md` R20 (Checksum Engine, host-visible
registers, save buffer, file store, sequencer), the configuration, and the queue of what the outside world does next. -/

namespace Sys2Proof.Machine

/-- The result codes of STATUS.ERR, in the order of their numbers (`spec/60_exceptions.md` R191). -/
inductive ResultCode
  | success
  | ioError
  | parseError
  | tamperError
  | capacityError
  | boundsError
  | illegalCommand
  deriving DecidableEq, Repr

/-- The Checksum Engine's registers (`spec/10_state.md` R21 to R23). -/
structure Engine where
  a : BitVec 16
  b : BitVec 16
  x : Word
  n : BitVec 7
  deriving DecidableEq, Repr

/-- The header of the Save (`spec/10_state.md` R43). -/
structure Header where
  cksum : Word
  day : Byte
  month : Byte
  year : Byte
  count : Byte
  deriving DecidableEq, Repr

/-- The save buffer: one header and 255 slots (`spec/10_state.md` R42 to R45, `spec/00_scope.md` R9). -/
structure Save where
  hdr : Header
  slots : Vector Score 255
  deriving DecidableEq, Repr

/-- The bytes of the file store: (offset, byte) pairs in one canonical form, offsets strictly rising, no entry equal to
what an unlisted offset reads as (log 12). -/
abbrev Memory := List Host.Cell

/-- What an offset the list does not name reads as. Every byte below `fs.len` was written by the block or by the
environment, so this only says how the byte 0x00 is represented there; above `fs.len` no command reads
(`spec/10_state.md` R49). DESIGN CHOICE, log 12. -/
def unlistedByte : Byte := 0x00

/-- The canonical form. -/
abbrev Memory.wf (m : Memory) : Prop :=
  m.Pairwise (fun c d => c.1 < d.1) ∧ ∀ c ∈ m, c.2 ≠ unlistedByte

/-- The file store (`spec/10_state.md` R48). -/
structure FileStore where
  present : Bool
  wrOk : Bool
  len : Nat
  data : Memory
  deriving DecidableEq, Repr

/-- The sequencer's phases (`spec/10_state.md` R50). -/
inductive Phase
  | idle
  /-- SV.WRITE: truncate and placeholder. -/
  | w1
  /-- SV.WRITE: header and records. -/
  | w2
  /-- SV.WRITE: checksum pass. -/
  | w3
  /-- SV.WRITE: patch. -/
  | w4
  /-- SV.READ: header fetch. -/
  | r1
  /-- SV.READ: length check. -/
  | r2
  /-- SV.READ: checksum pass. -/
  | r3
  /-- SV.READ: commit. -/
  | r4
  /-- SV.VERIFY, FS.CSUM, FS.CSUMZ: checksum pass. -/
  | v1
  deriving DecidableEq, Repr

/-- Which of its three commands the phase V1 serves (`spec/10_state.md` R50, `spec/41_marshaller.md` R140); log 8. -/
inductive PassOp
  | csum
  | csumz
  | verify
  deriving DecidableEq, Repr

/-- The sequencer's hidden state (`spec/10_state.md` R50): `phase`, `fp`, `ri`, `bi`, and the latches an
access-by-access run of a command needs (`cut`, `op`, `len`, `buf`, `hdr`; the spec names none of them, logs 8 and 25). -/
structure Sequencer where
  phase : Phase
  /-- File offset of the next access. -/
  fp : Nat
  /-- Record index. -/
  ri : Nat
  /-- Byte index inside a header or record; 0 in a checksum pass, which knows neither. -/
  bi : Nat
  /-- Phase W1 has made its truncation. The spec names no state that tells the truncation from the first placeholder byte,
  both at `fp = 0`: DESIGN CHOICE, log 25. -/
  cut : Bool
  op : PassOp
  /-- The file length this command read (`spec/40_checksum.md` R117: "It reads the length once"). -/
  len : Nat
  /-- Bytes of the header or record fetched so far, first byte first. -/
  buf : List Byte
  /-- The header SV.READ has fetched and not yet committed (`spec/41_marshaller.md` R143: `s`, `d`, `m`, `y`, `n`). -/
  hdr : Header
  deriving DecidableEq, Repr

/-- What the environment may do to the file store (`spec/00_scope.md` R13); log 13. -/
inductive EnvAction
  /-- Make the file present with these contents. -/
  | putFile (bytes : List Byte)
  /-- Make the file absent. -/
  | removeFile
  /-- Truncate or extend the file. -/
  | setLen (n : Nat)
  /-- Change one byte of the store. -/
  | setByte (off : Nat) (b : Byte)
  /-- Make the store writable or not. -/
  | setWrOk (ok : Bool)
  deriving DecidableEq, Repr

/-- One event of the outside world: a host access, the reset input, the environment, or nothing. -/
inductive Input
  /-- The host writes a register; number 0 (CMD) issues a command, seen as one step (`spec/10_state.md` R26, R27). -/
  | hostWrite (reg : BitVec 6) (value : Word)
  /-- The host reads a register (R26). -/
  | hostRead (reg : BitVec 6)
  /-- The host writes CMD, and the command is seen access by access (`spec/00_scope.md` R11, `spec/41_marshaller.md` R140). -/
  | startCommand (word : Word)
  /-- The reset input (`spec/70_reset_and_hazards.md` R220, R221). -/
  | reset
  /-- The environment acts on the file store (`spec/00_scope.md` R13). -/
  | env (act : EnvAction)
  /-- Nothing arrives: a running command makes its next access. -/
  | tick
  deriving DecidableEq, Repr

/-- The whole state. -/
structure State where
  /-- The configuration (`spec/00_scope.md` R14); no step changes it (log 1). -/
  cfg : Config
  /-- The Checksum Engine. -/
  ce : Engine
  /-- STATUS.ERR (`spec/10_state.md` R28, R29). -/
  err : ResultCode
  /-- STATUS.TAMPER (R28, R30). -/
  tamper : Bool
  /-- RESULT (R31). -/
  result : Word
  /-- ARG (R32). -/
  arg : Word
  /-- NOW, the implemented bits 23:0 (R33). -/
  now : BitVec 24
  /-- The save buffer; SV_CKSUM and SV_HDR are its header itself (R34, R35, R42). -/
  save : Save
  /-- SC_DATE, the implemented bits 23:0 (R36). -/
  scDate : BitVec 24
  /-- SC_VALUE (R37). -/
  scValue : Word
  /-- SC_INIT (R38). -/
  scInit : Word
  /-- The file store (R48). -/
  fs : FileStore
  /-- The sequencer (R50). -/
  seq : Sequencer
  /-- The MODEL's own: how many free bytes have been drawn (R47, logs 3 and 7). -/
  draws : Nat
  /-- The MODEL's own: the read value on the host port after the last host read (R26, log 10). -/
  rdata : Word
  /-- The MODEL's own: what the outside world does next, oldest first (log 5). -/
  inbox : List Input
  deriving DecidableEq, Repr

/-- Why the machine stops with a fault. It never does: the block has no trap (`spec/60_exceptions.md` R190), no hang and no
stuck state (`spec/00_scope.md` R15), so there is no fault to name. -/
inductive Fault
  deriving DecidableEq, Repr

/-- Why the model refuses a step. -/
inductive Refusal
  /-- Raised by an arm of `exec` whose instruction has no meaning yet; no arm is in that case. Safe. -/
  | notModelled (mnemonic : String)
  deriving DecidableEq, Repr

/-- The header of the empty Save with zero date (`spec/10_state.md` R51). -/
def Header.zero : Header := { cksum := 0, day := 0, month := 0, year := 0, count := 0 }

/-- The Checksum Engine as CK.INIT leaves it and as reset leaves it (R51, `spec/40_checksum.md` R114). -/
def Engine.init : Engine := { a := 1, b := 0, x := 1, n := 0 }

/-- The sequencer at rest (`spec/10_state.md` R50, R51); the latches' values are the model's, logs 8 and 25. -/
def Sequencer.rest : Sequencer :=
  { phase := .idle, fp := 0, ri := 0, bi := 0, cut := false, op := .csum, len := 0, buf := [], hdr := Header.zero }

/-- An absent, writable file (the start of the vectors of `spec/95_test_vectors.md`). The store is NOT reset (R51), so
what stands here is the environment's; DESIGN CHOICE, log 4. -/
def FileStore.absent : FileStore := { present := false, wrOk := true, len := 0, data := [] }

/-- The machine right after reset (`spec/10_state.md` R51). -/
def State.reset : State :=
  { cfg := Config.spec, ce := Engine.init, err := .success, tamper := false, result := 0, arg := 0, now := 0,
    save := { hdr := Header.zero, slots := drawnSlots 0 }, scDate := 0, scValue := 0, scInit := 0,
    fs := FileStore.absent, seq := Sequencer.rest, draws := 2805, rdata := 0, inbox := [] }

end Sys2Proof.Machine
end

