-- ==== Sys2Proof/Machine/Ops.lean ====
section
/-! DEFINITION. The named operations the meanings share: bytes of the file store, the arithmetic of the Checksum Engine,
slots of the save buffer, and the end of a command (success, or an error raised). -/

namespace Sys2Proof.Machine

/-! ### Bytes and byte order -/

/-- Four bytes, the first one least significant (`spec/20_memory.md` R69, `spec/00_scope.md` R17). -/
def le32 (b0 b1 b2 b3 : Byte) : Word := ((b3 ++ b2) ++ b1) ++ b0

/-- The bytes of a 32-bit field in file order: bits 7:0 first (R69, R65). -/
def leBytes (v : Word) : List Byte :=
  [v.extractLsb' 0 8, v.extractLsb' 8 8, v.extractLsb' 16 8, v.extractLsb' 24 8]

/-! ### The bytes of the file store -/

/-- The byte at an offset. -/
def Memory.readByte : Memory → Nat → Byte
  | [], _ => unlistedByte
  | (k, v) :: rest, a => if k = a then v else Memory.readByte rest a

/-- Write one byte and keep the canonical form: writing what an unlisted offset reads as removes the entry. -/
def Memory.writeByte : Memory → Nat → Byte → Memory
  | [], a, b => if b = unlistedByte then [] else [(a, b)]
  | (k, v) :: rest, a, b =>
    if a < k then
      if b = unlistedByte then (k, v) :: rest else (a, b) :: (k, v) :: rest
    else if a = k then
      if b = unlistedByte then rest else (a, b) :: rest
    else (k, v) :: Memory.writeByte rest a b

/-- The byte the store holds at an offset (`spec/20_memory.md` R72: every access is one byte wide). -/
def FileStore.byteAt (fs : FileStore) (off : Nat) : Byte := fs.data.readByte off

/-- `n` bytes at ascending offsets (`spec/00_scope.md` R17, MemRead before the bytes are assembled). -/
def FileStore.readBytes (fs : FileStore) (off : Nat) : Nat → List Byte
  | 0 => []
  | n + 1 => fs.byteAt off :: fs.readBytes (off + 1) n

/-- The contents of the file: the bytes below `fs.len` (`spec/10_state.md` R48). -/
def FileStore.bytes (fs : FileStore) : List Byte := fs.readBytes 0 fs.len

/-- FsCreateTrunc (R17): `fs.present <- 1; fs.len <- 0`. The bytes stay where they are and are no longer contents of the
file (log 14). -/
def FileStore.createTrunc (fs : FileStore) : FileStore := { fs with present := true, len := 0 }

/-- One byte write (R17): at `o = fs.len` the file grows by one byte. -/
def FileStore.writeByte (fs : FileStore) (off : Nat) (b : Byte) : FileStore :=
  { fs with data := fs.data.writeByte off b, len := if off = fs.len then fs.len + 1 else fs.len }

/-- MemWrite (R17): the bytes at ascending offsets, one access each. -/
def FileStore.writeBytes (fs : FileStore) (off : Nat) : List Byte → FileStore
  | [] => fs
  | b :: rest => (fs.writeByte off b).writeBytes (off + 1) rest

/-- One access to the file port (`spec/41_marshaller.md` R140, R147). -/
inductive FsAccess
  | truncate
  | write (off : Nat) (b : Byte)
  | read (off : Nat)
  deriving DecidableEq, Repr

/-- What an access requires of the store (R17). The flag `wr_ok` is not looked at again here: it was sampled at the start
of the command (`spec/10_state.md` R49; log 16). -/
def FileStore.permits (fs : FileStore) (cap : Nat) : FsAccess → Bool
  | .truncate => true
  | .write off _ => fs.present && (off < fs.len || (off == fs.len && off < cap))
  | .read off => fs.present && off < fs.len

/-- What an access does to the store: reads do nothing (`spec/20_memory.md` R75). -/
def FileStore.perform (fs : FileStore) : FsAccess → FileStore
  | .truncate => fs.createTrunc
  | .write off b => fs.writeByte off b
  | .read _ => fs

/-- What is left of an access whose requirement (R17) the environment has broken (R13; log 7). A byte write grows the file only
at the length of a present file below the capacity (R17), so none of these grows it; the byte at its offset, which is no
content of the file, becomes `free`. A read changes nothing, and a truncation is never in this case. -/
def FileStore.performAstray (fs : FileStore) (cap : Nat) (free : Byte) : FsAccess → FileStore
  | .truncate => fs.createTrunc
  | .write off _ => if off < cap then { fs with data := fs.data.writeByte off free } else fs
  | .read _ => fs

/-- The byte an access brings back. Only a read brings one; the sequencer looks at no other. -/
def FileStore.answer (fs : FileStore) : FsAccess → Byte
  | .truncate => 0
  | .write _ b => b
  | .read off => fs.byteAt off

/-! ### The Checksum Engine -/

/-- AdlStep (`spec/00_scope.md` R18): the new `a'` is added into `b`. Exact sums, reduced modulo 65521
(`spec/40_checksum.md` R120, R121). -/
def adlStep (a b : BitVec 16) (d : Byte) : BitVec 16 × BitVec 16 :=
  let a' := (a.toNat + d.toNat) % adlerModulus
  let b' := (b.toNat + a') % adlerModulus
  (BitVec.ofNat 16 a', BitVec.ofNat 16 b')

/-- The checksum value of a pair of accumulators: `(zext_32(B) << 16) | zext_32(A)` (R113). -/
def packSums (a b : BitVec 16) : Word := b.setWidth 32 <<< 16 ||| a.setWidth 32

/-- A fold (`spec/00_scope.md` R19): `X <- X xor ((B << 16) | A)`, then `A <- 1; B <- 0; N <- 0`. -/
def Engine.fold (e : Engine) : Engine :=
  { a := 1, b := 0, x := e.x ^^^ packSums e.a e.b, n := 0 }

/-- Take one byte into the sums without counting it (`spec/40_checksum.md` R112). -/
def Engine.addByte (e : Engine) (d : Byte) : Engine :=
  { e with a := (adlStep e.a e.b d).1, b := (adlStep e.a e.b d).2 }

/-- Take one byte into the open chunk; the 128th byte of a chunk folds it (R115, `spec/10_state.md` R23). -/
def Engine.push (e : Engine) (d : Byte) : Engine :=
  if e.n = 127#7 then (e.addByte d).fold else { e.addByte d with n := e.n + 1 }

/-- Close the short last chunk, if one is open (R116). -/
def Engine.close (e : Engine) : Engine := if e.n ≠ 0#7 then e.fold else e

/-- The byte a checksum pass takes at an offset: with `z` the checksum field counts as zero (R117). -/
def passByte (z : Bool) (off : Nat) (b : Byte) : Byte := if z && decide (off ≤ 3) then 0 else b

/-- FileChecksum(z) (R117): the engine after a pass over the whole file, offsets 0 to L-1 in ascending order. The value
returned is the result's `x`. -/
def fileChecksum (z : Bool) (fs : FileStore) : Engine :=
  ((List.range fs.len).foldl (fun e off => e.push (passByte z off (fs.byteAt off))) Engine.init).close

/-! ### The slots of the save buffer -/

/-- The Score in slot `i` (`spec/10_state.md` R44). -/
def Save.slot (sv : Save) (i : Nat) : Score := sv.slots.toList.getD i Score.blank

/-- The save buffer with slot `i` written. -/
def Save.putSlot (sv : Save) (i : Nat) (sc : Score) : Save :=
  { sv with slots := ⟨⟨sv.slots.toList.set i sc⟩, (List.length_set ..).trans sv.slots.size_toArray⟩ }

/-! ### Parts of the state -/

/-- Write the whole Checksum Engine. -/
def State.setEngine (e : Engine) (s : State) : State := { s with ce := e }

/-- Write RESULT (`spec/10_state.md` R31). -/
def State.setResult (v : Word) (s : State) : State := { s with result := v }

/-- Write STATUS.TAMPER (R30). -/
def State.setTamper (t : Bool) (s : State) : State := { s with tamper := t }

/-- Write the save buffer (R42). -/
def State.setSave (sv : Save) (s : State) : State := { s with save := sv }

/-- Write the file store (R48). -/
def State.setFs (f : FileStore) (s : State) : State := { s with fs := f }

/-- Take `k` free draws (R47; log 3). -/
def State.takeDraws (k : Nat) (s : State) : State := { s with draws := s.draws + k }

/-! ### The end of a command -/

/-- Every command ends so: STATUS.ERR is written, the sequencer is IDLE and no file-store access is outstanding
(`spec/10_state.md` R29, R50; `spec/60_exceptions.md` R190, R193). -/
def finish (code : ResultCode) (s : State) : State := { s with err := code, seq := Sequencer.rest }

/-- The end of a command that succeeded (R190, R191). -/
def succeed (s : State) : Host.Outcome State Fault Refusal := .next (finish .success s)

/-- TAKING AN EXCEPTION, `raise E` (R193): the command ends at once with the code in STATUS.ERR, control goes nowhere,
nothing is saved (R190, R202), and all other state is as the meaning has left it. There is no return from an exception:
the next command overwrites the code (R203). -/
def raise (code : ResultCode) (s : State) : Host.Outcome State Fault Refusal := .next (finish code s)

end Sys2Proof.Machine
end

