-- ==== Sys2Proof/Machine/Checksum.lean ====
section
/-! DEFINITION. The Checksum Engine commands (`spec/40_checksum.md`). -/

namespace Sys2Proof.Machine

/-- ADL.RST (R111): `A <- 1; B <- 0`; `N` and `X` are not touched. -/
def execAdlRst (s : State) : Host.Outcome State Fault Refusal :=
  succeed (s.setEngine { s.ce with a := 1, b := 0 })

/-- ADL.BYTE d (R112): `(A, B) <- AdlStep(A, B, d)`. -/
def execAdlByte (d : Byte) (s : State) : Host.Outcome State Fault Refusal :=
  succeed (s.setEngine (s.ce.addByte d))

/-- ADL.VAL (R113): `RESULT <- (zext_32(B) << 16) | zext_32(A)`. -/
def execAdlVal (s : State) : Host.Outcome State Fault Refusal :=
  succeed (s.setResult (packSums s.ce.a s.ce.b))

/-- CK.INIT (R114): `X <- 1; A <- 1; B <- 0; N <- 0`. -/
def execCkInit (s : State) : Host.Outcome State Fault Refusal :=
  succeed (s.setEngine Engine.init)

/-- CK.PUSH d (R115): one byte into the open chunk; the 128th folds it. -/
def execCkPush (d : Byte) (s : State) : Host.Outcome State Fault Refusal :=
  succeed (s.setEngine (s.ce.push d))

/-- CK.END (R116): close a short last chunk, then `RESULT <- X`. -/
def execCkEnd (s : State) : Host.Outcome State Fault Refusal :=
  succeed ((s.setEngine s.ce.close).setResult s.ce.close.x)

/-- The body of FS.CSUM and FS.CSUMZ: IoError when no file is present, else `RESULT <- FileChecksum(z)` (R117). -/
def sumFile (z : Bool) (s : State) : Host.Outcome State Fault Refusal :=
  if s.fs.present = false then raise .ioError s
  else succeed ((s.setEngine (fileChecksum z s.fs)).setResult (fileChecksum z s.fs).x)

/-- FS.CSUM (R118): the checksum of the file as it stands. -/
def execFsCsum (s : State) : Host.Outcome State Fault Refusal := sumFile false s

/-- FS.CSUMZ (R119): the checksum field counts as zero. -/
def execFsCsumz (s : State) : Host.Outcome State Fault Refusal := sumFile true s

end Sys2Proof.Machine
end

