-- ==== Sys2Proof/Machine/Flags.lean ====
section
/-! DEFINITION. STATUS: the code of the last command and the one status flag, TAMPER (`spec/10_state.md` R28 to R30). -/

namespace Sys2Proof.Machine

/-- The number of a result code (`spec/60_exceptions.md` R191). -/
def ResultCode.code : ResultCode → Byte
  | .success => 0
  | .ioError => 1
  | .parseError => 2
  | .tamperError => 3
  | .capacityError => 4
  | .boundsError => 5
  | .illegalCommand => 6

/-- TAMPER's rule: 1 when the recomputed checksum differs from the stored one (R30, `spec/41_marshaller.md` R143, R144). -/
def tampered (recomputed stored : Word) : Bool := recomputed != stored

/-- STATUS as the host reads it: ERR in bits 7:0, TAMPER in bit 8, the rest 0 (R28). -/
def statusWord (s : State) : Word :=
  (if s.tamper then 0x100#32 else 0#32) ||| s.err.code.setWidth 32

end Sys2Proof.Machine
end

