-- ==== Sys2Proof/Machine/Layout.lean ====
section
/-! DEFINITION. The file layout, field by field (`spec/20_memory.md` R62, R63), and the spec's pure functions: Adl32,
FileSum, ZeroHead (`spec/00_scope.md` R18), Ser, Image, Parse (R65, R66). -/

namespace Sys2Proof.Machine

/-! ### Fields -/

/-- The four header bytes after the checksum field: offsets 4 to 7 (R62). -/
def dateCountBytes (h : Header) : List Byte := [h.day, h.month, h.year, h.count]

/-- The initials bytes that go on file: INITIALS_W of them (R63). -/
def initialsBytes (w : InitialsWidth) (sc : Score) : List Byte :=
  match w with
  | .three => [sc.ini0, sc.ini1, sc.ini2]
  | .four => [sc.ini0, sc.ini1, sc.ini2, sc.ini3]

/-- One score record (R63): date, value least significant byte first, initials. -/
def scoreBytes (c : Config) (sc : Score) : List Byte :=
  [sc.day, sc.month, sc.year] ++ leBytes sc.value ++ initialsBytes c.initialsW sc

/-- The offset of record `i` (R62). -/
def recordBase (c : Config) (i : Nat) : Nat := headerLen + c.recLen * i

/-- The header a file's first eight bytes hold (R62, R66). -/
def headerOfBytes (bs : List Byte) : Header :=
  { cksum := le32 (bs.getD 0 0) (bs.getD 1 0) (bs.getD 2 0) (bs.getD 3 0), day := bs.getD 4 0, month := bs.getD 5 0,
    year := bs.getD 6 0, count := bs.getD 7 0 }

/-- The Score a record's bytes hold; with INITIALS_W = 3, `initials[3]` becomes 0x00 (R66, D20). -/
def scoreOfBytes (c : Config) (bs : List Byte) : Score :=
  { day := bs.getD 0 0, month := bs.getD 1 0, year := bs.getD 2 0,
    value := le32 (bs.getD 3 0) (bs.getD 4 0) (bs.getD 5 0) (bs.getD 6 0),
    ini0 := bs.getD 7 0, ini1 := bs.getD 8 0, ini2 := bs.getD 9 0,
    ini3 := match c.initialsW with
      | .three => 0x00
      | .four => bs.getD 10 0 }

/-! ### Adl32, FileSum, ZeroHead (R18) -/

/-- `Adl32(bytes)`: the plain checksum of a byte sequence of any length. -/
def adl32 (bytes : List Byte) : Word :=
  let ab := bytes.foldl (fun (ab : BitVec 16 × BitVec 16) d => adlStep ab.1 ab.2 d) (1#16, 0#16)
  packSums ab.1 ab.2

/-- The pieces of `FileSum`: 128 bytes each, the last one shorter if it must be, none of them empty. The number bounds how
many pieces are cut. -/
def piecesUpTo : Nat → List Byte → List (List Byte)
  | 0, _ => []
  | _ + 1, [] => []
  | n + 1, b :: rest => (b :: rest).take chunkLen :: piecesUpTo n ((b :: rest).drop chunkLen)

/-- All the pieces of a byte sequence. -/
def pieces (bytes : List Byte) : List (List Byte) := piecesUpTo bytes.length bytes

/-- `FileSum(bytes)`: the pieces' checksums combined by xor, from the seed 1. -/
def fileSum (bytes : List Byte) : Word := (pieces bytes).foldl (fun x p => x ^^^ adl32 p) 1#32

/-- `ZeroHead(bytes)`: the bytes at indices 0 to min(4, length) - 1 replaced by 0x00. -/
def zeroHead (bytes : List Byte) : List Byte :=
  List.replicate (min cksumLen bytes.length) 0x00 ++ bytes.drop cksumLen

/-! ### Ser, Image, Parse (R65, R66) -/

/-- The records of a Save, in order. -/
def recordsBytes (c : Config) (sv : Save) : List Byte :=
  (List.range sv.hdr.count.toNat).flatMap fun i => scoreBytes c (sv.slot i)

/-- `Ser(S)`: the serialised image with the checksum field zero. -/
def ser (c : Config) (sv : Save) : List Byte :=
  [0x00, 0x00, 0x00, 0x00] ++ dateCountBytes sv.hdr ++ recordsBytes c sv

/-- `Image(S)`: Ser(S) with its first four bytes replaced by the bytes of FileSum(Ser(S)). -/
def image (c : Config) (sv : Save) : List Byte := leBytes (fileSum (ser c sv)) ++ (ser c sv).drop cksumLen

/-- `Parse(F)`: the header and the scores of a file, or nothing (ParseError). -/
def parse (c : Config) (bytes : List Byte) : Option (Header × List Score) :=
  if bytes.length < headerLen then none
  else
    let h := headerOfBytes bytes
    if bytes.length < c.fileLen h.count.toNat then none
    else some (h, (List.range h.count.toNat).map fun i => scoreOfBytes c ((bytes.drop (recordBase c i)).take c.recLen))

end Sys2Proof.Machine
end

