-- ==== Sys2Proof/Machine/Marshaller.lean ====
section
/-! DEFINITION. The marshaller commands SV.WRITE, SV.READ, SV.VERIFY (`spec/41_marshaller.md`). The file store's flags are
sampled once, by the test each meaning begins with (`spec/10_state.md` R49). -/

namespace Sys2Proof.Machine

/-- Steps 1 and 2 of SV.WRITE (R142): truncate, placeholder, header, records in order; the file store then holds Ser(SV)
(R145). -/
def writeBody (c : Config) (sv : Save) (fs : FileStore) : FileStore :=
  (List.range sv.hdr.count.toNat).foldl (fun f i => f.writeBytes (recordBase c i) (scoreBytes c (sv.slot i)))
    ((fs.createTrunc.writeBytes 0 [0x00, 0x00, 0x00, 0x00]).writeBytes 4 (dateCountBytes sv.hdr))

/-- SV.WRITE (R142). -/
def execSvWrite (s : State) : Host.Outcome State Fault Refusal :=
  if s.fs.wrOk = false then raise .ioError s
  else
    let body := writeBody s.cfg s.save s.fs
    let e := fileChecksum false body
    let sealed := body.writeBytes 0 (leBytes e.x)
    succeed ((((s.setFs sealed).setEngine e).setSave { s.save with hdr := { s.save.hdr with cksum := e.x } }).setResult e.x)

/-- Step 4 of SV.READ (R143): the records into slots 0 to n-1; slots `n` to 254 keep what they held. -/
def loadRecords (c : Config) (fs : FileStore) (n : Nat) (sv : Save) : Save :=
  (List.range n).foldl (fun v i => v.putSlot i (scoreOfBytes c (fs.readBytes (recordBase c i) c.recLen))) sv

/-- SV.READ (R143): IoError, ParseError (header, then body), the checksum pass, TamperError, and only then the commit. -/
def execSvRead (s : State) : Host.Outcome State Fault Refusal :=
  if s.fs.present = false then raise .ioError s
  else if s.fs.len < headerLen then raise .parseError s
  else
    let h := headerOfBytes (s.fs.readBytes 0 headerLen)
    if s.fs.len < s.cfg.fileLen h.count.toNat then raise .parseError s
    else
      let e := fileChecksum true s.fs
      let checked := ((s.setEngine e).setResult e.x).setTamper (tampered e.x h.cksum)
      if tampered e.x h.cksum then raise .tamperError checked
      else succeed (checked.setSave (loadRecords s.cfg s.fs h.count.toNat { s.save with hdr := h }))

/-- SV.VERIFY (R144): the comparison is with ARG; a mismatch is not an error. -/
def execSvVerify (s : State) : Host.Outcome State Fault Refusal :=
  if s.fs.present = false then raise .ioError s
  else
    let e := fileChecksum true s.fs
    succeed (((s.setEngine e).setResult e.x).setTamper (tampered e.x s.arg))

end Sys2Proof.Machine
end

