-- ==== Sys2Proof/Machine/Operands.lean ====
section
/-! DEFINITION. The operand registers and how a Score or a date travels through them (`spec/10_state.md` R33, R35 to R38,
`spec/42_save_buffer.md` R170). -/

namespace Sys2Proof.Machine

/-- The day of a packed date, bits 7:0 (R33, R36). -/
def dayOf (d : BitVec 24) : Byte := d.extractLsb' 0 8

/-- The month of a packed date, bits 15:8. -/
def monthOf (d : BitVec 24) : Byte := d.extractLsb' 8 8

/-- The year of a packed date, bits 23:16. -/
def yearOf (d : BitVec 24) : Byte := d.extractLsb' 16 8

/-- A date packed as the host registers hold it: the day in the low byte (`spec/20_memory.md` R71). -/
def packDate (day month year : Byte) : BitVec 24 := (year ++ month) ++ day

/-- Four initials bytes packed as SC_INIT holds them: `initials[0]` in the low byte (R38). -/
def packInitials (sc : Score) : Word := le32 sc.ini0 sc.ini1 sc.ini2 sc.ini3

/-- "Staging to slot" (R170): the Score the three staging registers hold. -/
def stagingScore (s : State) : Score :=
  { day := dayOf s.scDate, month := monthOf s.scDate, year := yearOf s.scDate, value := s.scValue,
    ini0 := s.scInit.extractLsb' 0 8, ini1 := s.scInit.extractLsb' 8 8, ini2 := s.scInit.extractLsb' 16 8,
    ini3 := s.scInit.extractLsb' 24 8 }

/-- "Slot to staging" (R170): bits 31:24 of SC_DATE are reserved and hold nothing. -/
def loadStaging (sc : Score) (s : State) : State :=
  { s with scDate := packDate sc.day sc.month sc.year, scValue := sc.value, scInit := packInitials sc }

/-- An 8-bit immediate as a slot index or a count: unsigned (`spec/30_encoding.md` R91). -/
def immNat (imm : Byte) : Nat := imm.toNat

/-- The bounds check of SC.GET and SC.PUT: against `SV.count`, not against 255 (`spec/10_state.md` R46). -/
def inBounds (idx : Byte) (s : State) : Bool := decide (immNat idx < s.save.hdr.count.toNat)

end Sys2Proof.Machine
end

