-- ==== Sys2Proof/Machine/SaveBuffer.lean ====
section
/-! DEFINITION. The save-buffer commands (`spec/42_save_buffer.md`): they touch neither the file store nor the Checksum
Engine, nor TAMPER, nor RESULT. -/

namespace Sys2Proof.Machine

/-- SV.APPEND (R171): CapacityError at count 255; else staging to slot `SV.count` and the count goes up by one. -/
def execSvAppend (s : State) : Host.Outcome State Fault Refusal :=
  if s.save.hdr.count = 255#8 then raise .capacityError s
  else
    let filled := s.save.putSlot s.save.hdr.count.toNat (stagingScore s)
    succeed (s.setSave { filled with hdr := { s.save.hdr with count := s.save.hdr.count + 1 } })

/-- The body of SV.NEW and SV.INIT: a new Save of `n` scores with a date; slots 0 to n-1 become unspecified
(`spec/10_state.md` R47), the others keep what they held; `SV.cksum` becomes 0 (D22). -/
def newSave (n : Byte) (day month year : Byte) (s : State) : State :=
  (s.setSave
      { hdr := { cksum := 0, day := day, month := month, year := year, count := n },
        slots := redrawSlots (immNat n) s.draws s.save.slots }).takeDraws
    (drawsPerSlot * immNat n)

/-- SV.NEW n (R172): the date is zero. -/
def execSvNew (n : Byte) (s : State) : Host.Outcome State Fault Refusal :=
  succeed (newSave n 0 0 0 s)

/-- SV.INIT n (R173): the date comes from NOW. -/
def execSvInit (n : Byte) (s : State) : Host.Outcome State Fault Refusal :=
  succeed (newSave n (dayOf s.now) (monthOf s.now) (yearOf s.now) s)

/-- SC.GET i (R174): BoundsError when `i >= SV.count`; else slot `i` to staging. -/
def execScGet (idx : Byte) (s : State) : Host.Outcome State Fault Refusal :=
  if inBounds idx s then succeed (loadStaging (s.save.slot (immNat idx)) s) else raise .boundsError s

/-- SC.PUT i (R175): BoundsError when `i >= SV.count`; else staging to slot `i`. -/
def execScPut (idx : Byte) (s : State) : Host.Outcome State Fault Refusal :=
  if inBounds idx s then succeed (s.setSave (s.save.putSlot (immNat idx) (stagingScore s))) else raise .boundsError s

end Sys2Proof.Machine
end

