-- ==== Sys2Proof/Machine/Dispatch.lean ====
section
/-! DEFINITION. One arm per command: the meaning of each (`spec/30_encoding.md` R92). -/

namespace Sys2Proof.Machine

-- The command as one step: its whole effect as seen from the host port (spec/00_scope.md R11).
def exec (i : Instr) (s : State) : Host.Outcome State Fault Refusal :=
  match i with
  | .adlRst => Sys2Proof.Machine.execAdlRst s
  | .adlByte d => Sys2Proof.Machine.execAdlByte d s
  | .adlVal => Sys2Proof.Machine.execAdlVal s
  | .ckInit => Sys2Proof.Machine.execCkInit s
  | .ckPush d => Sys2Proof.Machine.execCkPush d s
  | .ckEnd => Sys2Proof.Machine.execCkEnd s
  | .fsCsum => Sys2Proof.Machine.execFsCsum s
  | .fsCsumz => Sys2Proof.Machine.execFsCsumz s
  | .svWrite => Sys2Proof.Machine.execSvWrite s
  | .svRead => Sys2Proof.Machine.execSvRead s
  | .svVerify => Sys2Proof.Machine.execSvVerify s
  | .svAppend => Sys2Proof.Machine.execSvAppend s
  | .svNew n => Sys2Proof.Machine.execSvNew n s
  | .svInit n => Sys2Proof.Machine.execSvInit n s
  | .scGet idx => Sys2Proof.Machine.execScGet idx s
  | .scPut idx => Sys2Proof.Machine.execScPut idx s

end Sys2Proof.Machine
end

