-- ==== Sys2Proof/Machine/HostPort.lean ====
section
/-! DEFINITION. The host's register reads and writes other than the write to CMD (`spec/10_state.md` R26 to R41). -/

namespace Sys2Proof.Machine

/-- Byte offset of register `n` on a byte-addressed bus (R26). -/
def busOffset (n : BitVec 6) : Nat := 4 * n.toNat

/-- The length field of FS_STAT, 13 bits (R40); a length that does not fit, possible only with a FS_CAP above 8191, shows
a free value (log 11). -/
def fsLenField (len : Nat) : BitVec 13 := if len < 8192 then BitVec.ofNat 13 len else Config.longLenField len

/-- FS_STAT (R40): bit 0 `fs.present`, bit 1 `fs.wr_ok`, bits 28:16 `fs.len`. -/
def fsStatWord (fs : FileStore) : Word :=
  ((fsLenField fs.len).setWidth 32 <<< 16 ||| (if fs.wrOk then 2#32 else 0#32)) ||| (if fs.present then 1#32 else 0#32)

/-- SV_HDR (R35): day, month, year and, read-only, the count, from the low byte up. -/
def svHdrWord (h : Header) : Word := le32 h.day h.month h.year h.count

/-- What a host read of a register returns (R26 to R41). Reads have no side effect. Register 0, CMD, is write-only and reads
0 (R27); numbers 14 to 63 are unmapped and read 0 (R41). -/
def regRead (reg : BitVec 6) (s : State) : Word :=
  match reg with
  | 1#6 => statusWord s
  | 2#6 => s.result
  | 3#6 => s.arg
  | 4#6 => s.now.setWidth 32
  | 5#6 => s.save.hdr.cksum
  | 6#6 => svHdrWord s.save.hdr
  | 7#6 => s.scDate.setWidth 32
  | 8#6 => s.scValue
  | 9#6 => s.scInit
  | 10#6 => packSums s.ce.a s.ce.b
  | 11#6 => s.ce.x
  | 12#6 => s.ce.n.setWidth 32
  | 13#6 => fsStatWord s.fs
  | _ => 0

/-- What a host write of a register other than CMD does (R26 to R41): reserved bits, the count in SV_HDR, read-only
registers and unmapped numbers ignore the write. -/
def regWrite (reg : BitVec 6) (v : Word) (s : State) : State :=
  match reg with
  | 3#6 => { s with arg := v }
  | 4#6 => { s with now := v.extractLsb' 0 24 }
  | 5#6 => s.setSave { s.save with hdr := { s.save.hdr with cksum := v } }
  | 6#6 =>
    s.setSave
      { s.save with
        hdr := { s.save.hdr with day := v.extractLsb' 0 8, month := v.extractLsb' 8 8, year := v.extractLsb' 16 8 } }
  | 7#6 => { s with scDate := v.extractLsb' 0 24 }
  | 8#6 => { s with scValue := v }
  | 9#6 => { s with scInit := v }
  | _ => s

end Sys2Proof.Machine
end

