-- ==== Sys2Proof/Machine/Outside.lean ====
section
/-! DEFINITION. What the environment and the reset input do (`spec/00_scope.md` R13, `spec/10_state.md` R48, R49, R51,
`spec/70_reset_and_hazards.md` R220, R221). -/

namespace Sys2Proof.Machine

/-- The environment acts on a file store of capacity `cap`. An action no store can carry out (more bytes than the capacity,
a length for an absent file) leaves the store as it is (R49; log 13). -/
def envStore (cap : Nat) (act : EnvAction) (fs : FileStore) : FileStore :=
  match act with
  | .putFile bytes =>
    if bytes.length ≤ cap then fs.createTrunc.writeBytes 0 bytes else fs
  | .removeFile => { fs with present := false, len := 0 }
  | .setLen n => if fs.present && decide (n ≤ cap) then { fs with len := n } else fs
  | .setByte off b => if off < cap then { fs with data := fs.data.writeByte off b } else fs
  | .setWrOk ok => { fs with wrOk := ok }

/-- The environment changes the file store and nothing else (R13). -/
def applyEnv (act : EnvAction) (s : State) : State := s.setFs (envStore s.cfg.fsCap act s.fs)

/-- The reset input (R220, R51): the block's own state becomes the reset state, every slot becomes unspecified again by new
draws, and the file store is not reset; a running command is abandoned (R221). What the outside world does next is not
the block's (log 18). -/
def resetBlock (s : State) : State :=
  { State.reset with
    cfg := s.cfg
    save := { hdr := Header.zero, slots := drawnSlots s.draws }
    fs := s.fs
    draws := s.draws + drawsPerSlot * slotCount
    inbox := s.inbox }

end Sys2Proof.Machine
end

