-- ==== Sys2Proof/Machine/Sequencer.lean ====
section
/-! DEFINITION. The sequencer access by access: the file-store commands as the sequences of accesses of
`spec/41_marshaller.md` R140, with the phases of `spec/10_state.md` R50. One step makes at most one access. Run to its end
with nothing in between, a command has the effect `exec` gives it; what this view adds is a reset (R221) or an action of
the environment (R13, R230) in the middle of a command, and the transient states of the file (R145). -/

namespace Sys2Proof.Machine

/-- Start a checksum pass (`spec/40_checksum.md` R117): the engine as CK.INIT leaves it, the length read once, offset 0. -/
def startPass (ph : Phase) (s : State) : State :=
  { s with ce := Engine.init, seq := { s.seq with phase := ph, fp := 0, ri := 0, bi := 0, len := s.fs.len, buf := [] } }

/-- Whether the running pass takes the checksum field as zero: not for SV.WRITE and FS.CSUM (R142, R118). -/
def passZeroes (q : Sequencer) : Bool :=
  match q.phase with
  | .r3 => true
  | .v1 =>
    match q.op with
    | .csum => false
    | .csumz => true
    | .verify => true
  | .idle => false
  | .w1 => false
  | .w2 => false
  | .w3 => false
  | .w4 => false
  | .r1 => false
  | .r2 => false
  | .r4 => false

/-- The byte SV.WRITE writes next in its phase W2: of the header below offset 8, else byte `bi` of record `ri`. -/
def bodyByte (s : State) : Byte :=
  if s.seq.fp < headerLen then (dateCountBytes s.save.hdr).getD (s.seq.fp - cksumLen) 0
  else (scoreBytes s.cfg (s.save.slot s.seq.ri)).getD s.seq.bi 0

/-- The access the sequencer makes next, if its next action is one (R140). In W1 the latch `cut` tells the truncation from the
placeholder writes (the model's choice, log 25). -/
def seqAccess (s : State) : Option FsAccess :=
  match s.seq.phase with
  | .idle => none
  | .w1 => if s.seq.cut then some (.write s.seq.fp 0x00) else some .truncate
  | .w2 => some (.write s.seq.fp (bodyByte s))
  | .w3 => if s.seq.fp < s.seq.len then some (.read s.seq.fp) else none
  | .w4 => some (.write s.seq.fp ((leBytes s.ce.x).getD s.seq.fp 0))
  | .r1 => some (.read s.seq.fp)
  | .r2 => none
  | .r3 => if s.seq.fp < s.seq.len then some (.read s.seq.fp) else none
  | .r4 => if s.seq.ri < s.seq.hdr.count.toNat then some (.read s.seq.fp) else none
  | .v1 => if s.seq.fp < s.seq.len then some (.read s.seq.fp) else none

/-- The next byte of the header, where `bi` is the byte index in it (`spec/10_state.md` R50); after the last one a record
begins. -/
def nextInHeader (q : Sequencer) : Sequencer :=
  if q.fp + 1 < headerLen then { q with fp := q.fp + 1, bi := q.bi + 1 } else { q with fp := q.fp + 1, bi := 0 }

/-- The next offset of a pass. -/
def nextByte (q : Sequencer) : Sequencer := { q with fp := q.fp + 1 }

/-- The next byte of a record, and after its last byte the next record. -/
def nextInRecord (c : Config) (q : Sequencer) : Sequencer :=
  if q.bi + 1 < c.recLen then { q with fp := q.fp + 1, bi := q.bi + 1 }
  else { q with fp := q.fp + 1, bi := 0, ri := q.ri + 1 }

/-- A byte of a checksum pass goes into the engine exactly as CK.PUSH takes it (R117). -/
def takePassByte (b : Byte) (s : State) : State :=
  { s with ce := s.ce.push (passByte (passZeroes s.seq) s.seq.fp b), seq := nextByte s.seq }

/-- What the sequencer does once its access is done; `b` is the byte a read brought. The state given holds the file store
as the access left it. -/
def seqTake (b : Byte) (s : State) : State :=
  match s.seq.phase with
  | .idle => s
  | .w1 =>
    if s.seq.cut = false then { s with seq := { s.seq with cut := true } }
    else if s.seq.fp + 1 < cksumLen then { s with seq := nextInHeader s.seq }
    else { s with seq := { nextInHeader s.seq with phase := .w2 } }
  | .w2 =>
    if s.seq.fp + 1 = s.cfg.fileLen s.save.hdr.count.toNat then startPass .w3 s
    else if s.seq.fp < headerLen then { s with seq := nextInHeader s.seq }
    else { s with seq := nextInRecord s.cfg s.seq }
  | .w3 => takePassByte b s
  | .w4 =>
    if s.seq.fp + 1 < cksumLen then { s with seq := nextInHeader s.seq }
    else
      finish .success
        ((s.setSave { s.save with hdr := { s.save.hdr with cksum := s.ce.x } }).setResult s.ce.x)
  | .r1 =>
    if s.seq.fp + 1 < headerLen then { s with seq := { nextInHeader s.seq with buf := s.seq.buf ++ [b] } }
    else { s with seq := { s.seq with phase := .r2, buf := [], hdr := headerOfBytes (s.seq.buf ++ [b]) } }
  | .r2 => s
  | .r3 => takePassByte b s
  | .r4 =>
    if s.seq.bi + 1 < s.cfg.recLen then { s with seq := { nextInRecord s.cfg s.seq with buf := s.seq.buf ++ [b] } }
    else
      { s with
        save := s.save.putSlot s.seq.ri (scoreOfBytes s.cfg (s.seq.buf ++ [b]))
        seq := { nextInRecord s.cfg s.seq with buf := [] } }
  | .v1 => takePassByte b s

/-- What the sequencer does when its next action is no access: the length check of SV.READ, and the ends of passes and of
the commit. -/
def seqDecide (s : State) : State :=
  match s.seq.phase with
  | .idle => s
  | .w1 => s
  | .w2 => s
  | .w3 => { s with ce := s.ce.close, seq := { s.seq with phase := .w4, fp := 0, bi := 0 } }
  | .w4 => s
  | .r1 => s
  | .r2 =>
    if s.seq.len < s.cfg.fileLen s.seq.hdr.count.toNat then finish .parseError s else startPass .r3 s
  | .r3 =>
    let c := s.ce.close.x
    let checked := ((s.setEngine s.ce.close).setResult c).setTamper (tampered c s.seq.hdr.cksum)
    if tampered c s.seq.hdr.cksum then finish .tamperError checked
    else
      { checked with
        save := { s.save with hdr := s.seq.hdr }
        seq := { s.seq with phase := .r4, fp := headerLen, ri := 0, bi := 0, buf := [] } }
  | .r4 => finish .success s
  | .v1 =>
    let c := s.ce.close.x
    let summed := (s.setEngine s.ce.close).setResult c
    match s.seq.op with
    | .csum => finish .success summed
    | .csumz => finish .success summed
    | .verify => finish .success (summed.setTamper (tampered c s.arg))

/-- An access whose requirement (`spec/00_scope.md` R17) does not hold, which is possible only when the environment has broken
the premise of R13 during this command; it takes one free byte (log 7). -/
def makeAstray (acc : FsAccess) (s : State) : State :=
  (s.setFs (s.fs.performAstray s.cfg.fsCap (Config.freeByte s.draws) acc)).takeDraws 1

/-- One step of a running command: its next access against the store as it stands (R13, R140), or a decision between phases,
which is a step of its own (log 6). An access whose requirement does not hold brings back a free byte (log 7). -/
def seqStep (s : State) : Host.Outcome State Fault Refusal :=
  match seqAccess s with
  | none => .next (seqDecide s)
  | some acc =>
    if s.fs.permits s.cfg.fsCap acc then .next (seqTake (s.fs.answer acc) (s.setFs (s.fs.perform acc)))
    else .next (seqTake (Config.freeByte s.draws) (makeAstray acc s))

/-- Begin SV.WRITE access by access: the test of `wr_ok`, then phase W1 (R142). -/
def beginSvWrite (s : State) : Host.Outcome State Fault Refusal :=
  if s.fs.wrOk = false then raise .ioError s
  else .next { s with seq := { Sequencer.rest with phase := .w1 } }

/-- Begin SV.READ: the tests that come before the first access, then phase R1 (R143). -/
def beginSvRead (s : State) : Host.Outcome State Fault Refusal :=
  if s.fs.present = false then raise .ioError s
  else if s.fs.len < headerLen then raise .parseError s
  else .next { s with seq := { Sequencer.rest with phase := .r1, len := s.fs.len } }

/-- Begin FS.CSUM, FS.CSUMZ or SV.VERIFY: the test of `present`, then the pass V1 (R118, R119, R144). -/
def beginPass (op : PassOp) (s : State) : Host.Outcome State Fault Refusal :=
  if s.fs.present = false then raise .ioError s
  else .next (startPass .v1 { s with seq := { Sequencer.rest with op := op } })

/-- `k` steps of the sequencer with nothing from outside in between, stopping where it stops or is IDLE. -/
def seqRun : Nat → State → Host.Outcome State Fault Refusal
  | 0, s => .next s
  | k + 1, s =>
    if s.seq.phase = .idle then .next s
    else
      match seqStep s with
      | .next t => seqRun k t
      | .fault r => .fault r
      | .refused r => .refused r

/-- The accesses those steps make, in order (R140, R237). -/
def seqTrace : Nat → State → List FsAccess
  | 0, _ => []
  | k + 1, s =>
    if s.seq.phase = .idle then []
    else
      match seqStep s with
      | .next t => (seqAccess s).toList ++ seqTrace k t
      | .fault _ => []
      | .refused _ => []

end Sys2Proof.Machine
end

