-- ==== Sys2Proof/Machine/Port.lean ====
section
/-! DEFINITION. The block meets the outside world: a write to CMD issues a command (`spec/10_state.md` R27), and one event
of the queue is taken at a time (log 5). -/

namespace Sys2Proof.Machine

/-- A word that is no command raises IllegalCommand and changes nothing else (`spec/30_encoding.md` R94,
`spec/60_exceptions.md` R199). -/
def execIllegal (s : State) : Host.Outcome State Fault Refusal := raise .illegalCommand s

/-- A write of `w` to CMD, the command as one step (`spec/10_state.md` R27, `spec/00_scope.md` R11). -/
def issueCommand (w : Word) (s : State) : Host.Outcome State Fault Refusal :=
  match decode w with
  | .command i => exec i s
  | .illegal _ => execIllegal s

/-- A decoded command begins access by access. A command that makes no file-store access (`spec/20_memory.md` R61) is over
at once. -/
def beginInstr (i : Instr) (s : State) : Host.Outcome State Fault Refusal :=
  match i with
  | .adlRst => exec .adlRst s
  | .adlByte d => exec (.adlByte d) s
  | .adlVal => exec .adlVal s
  | .ckInit => exec .ckInit s
  | .ckPush d => exec (.ckPush d) s
  | .ckEnd => exec .ckEnd s
  | .fsCsum => beginPass .csum s
  | .fsCsumz => beginPass .csumz s
  | .svWrite => beginSvWrite s
  | .svRead => beginSvRead s
  | .svVerify => beginPass .verify s
  | .svAppend => exec .svAppend s
  | .svNew n => exec (.svNew n) s
  | .svInit n => exec (.svInit n) s
  | .scGet idx => exec (.scGet idx) s
  | .scPut idx => exec (.scPut idx) s

/-- A write of `w` to CMD, the command seen access by access (`spec/00_scope.md` R11, `spec/41_marshaller.md` R140). -/
def beginCommand (w : Word) (s : State) : Host.Outcome State Fault Refusal :=
  match decode w with
  | .command i => beginInstr i s
  | .illegal _ => execIllegal s

/-- The register number of CMD (`spec/10_state.md` R26). -/
def cmdReg : BitVec 6 := 0

/-- A host write: to CMD it issues a command, to any other number it is a plain register write (R26, R27). -/
def hostWrite (reg : BitVec 6) (v : Word) (s : State) : Host.Outcome State Fault Refusal :=
  if reg = cmdReg then issueCommand v s else .next (regWrite reg v s)

/-- A host read: the value appears on the port and nothing else changes (R26, R39, R40). -/
def hostRead (reg : BitVec 6) (s : State) : State := { s with rdata := regRead reg s }

/-- An IDLE block takes an event. -/
def takeWhenIdle (ev : Input) (s : State) : Host.Outcome State Fault Refusal :=
  match ev with
  | .hostWrite reg v => hostWrite reg v s
  | .hostRead reg => .next (hostRead reg s)
  | .startCommand w => beginCommand w s
  | .reset => .next (resetBlock s)
  | .env act => .next (applyEnv act s)
  | .tick => .next s

/-- The state with the oldest event taken off the queue. -/
def State.dropEvent (s : State) : State := { s with inbox := s.inbox.tail }

/-- A step of an IDLE block: the oldest event, or nothing at all. -/
def stepIdle (s : State) : Host.Outcome State Fault Refusal :=
  match s.inbox.head? with
  | none => .next s
  | some ev => takeWhenIdle ev s.dropEvent

/-- A step of a block that runs a command: a reset or an action of the environment lands now; a host access waits
(`spec/10_state.md` R26, log 19); otherwise the sequencer goes on. -/
def stepBusy (s : State) : Host.Outcome State Fault Refusal :=
  match s.inbox.head? with
  | none => seqStep s
  | some (.hostWrite _ _) => seqStep s
  | some (.hostRead _) => seqStep s
  | some (.startCommand _) => seqStep s
  | some .reset => .next (resetBlock s.dropEvent)
  | some (.env act) => .next (applyEnv act s.dropEvent)
  | some .tick => seqStep s.dropEvent

end Sys2Proof.Machine
end

