-- ==== Sys2Proof/Machine/Step.lean ====
section
/-! DEFINITION. One step of the machine. -/

namespace Sys2Proof.Machine

/-- One step: an IDLE block takes the next event of the outside world, a running command goes on (`spec/10_state.md` R24,
R26, R50). -/
def step (s : State) : Host.Outcome State Fault Refusal :=
  if s.seq.phase = .idle then stepIdle s else stepBusy s

/-- `s` with a host write of a command word to CMD as the very next event, and the block IDLE so that it is taken (log 20). -/
def State.withFetchWord (s : State) (nbits w : Nat) : State :=
  { s with
    seq := Sequencer.rest
    inbox := .hostWrite cmdReg (BitVec.ofNat 32 (w % 2 ^ nbits)) :: s.inbox }

end Sys2Proof.Machine
end

