-- ==== Sys2Proof/Machine/Listing.lean ====
section
/-! DEFINITION. The lines of the spec's listings and the host accesses they stand for (`spec/30_encoding.md` R95, R96).
A line is taken here as data, after its text has been read (log 21); there are no labels and no branches (R98). -/

namespace Sys2Proof.Machine

/-- The host-visible registers by name (`spec/10_state.md` R26). -/
inductive RegName
  | CMD
  | STATUS
  | RESULT
  | ARG
  | NOW
  | SV_CKSUM
  | SV_HDR
  | SC_DATE
  | SC_VALUE
  | SC_INIT
  | CE_AB
  | CE_X
  | CE_N
  | FS_STAT
  deriving DecidableEq, Repr

/-- The number of a register (R26). -/
def RegName.number : RegName → BitVec 6
  | .CMD => 0
  | .STATUS => 1
  | .RESULT => 2
  | .ARG => 3
  | .NOW => 4
  | .SV_CKSUM => 5
  | .SV_HDR => 6
  | .SC_DATE => 7
  | .SC_VALUE => 8
  | .SC_INIT => 9
  | .CE_AB => 10
  | .CE_X => 11
  | .CE_N => 12
  | .FS_STAT => 13

/-- One line of a listing: a command, a register access (R95), or a pseudo-instruction (R96). Text is a list of ASCII codes. -/
inductive Line
  | command (i : Instr)
  | wr (reg : RegName) (v : Word)
  | rd (reg : RegName)
  | now (d m y : Byte)
  | date (d m y : Byte)
  | score (d m y : Byte) (v : Word) (i0 i1 i2 i3 : Byte)
  | adlBytes (bytes : List Byte)
  | ckBytes (bytes : List Byte)
  | ckStr (text : List Byte)
  | adlStr (text : List Byte)
  deriving DecidableEq, Repr

/-- `d + (m << 8) + (y << 16)` (R96). -/
def dateValue (d m y : Byte) : Word := d.setWidth 32 + m.setWidth 32 <<< 8 + y.setWidth 32 <<< 16

/-- A command line: one host write of the command word to CMD (R95). -/
def commandInput (i : Instr) : Input := .hostWrite RegName.CMD.number (encode i)

/-- A register line `wr NAME, value` (R95). -/
def wrInput (reg : RegName) (v : Word) : Input := .hostWrite reg.number v

/-- The host accesses a line stands for, in order (R95, R96). -/
def Line.expand : Line → List Input
  | .command i => [commandInput i]
  | .wr reg v => [wrInput reg v]
  | .rd reg => [.hostRead reg.number]
  | .now d m y => [wrInput .NOW (dateValue d m y)]
  | .date d m y => [wrInput .SV_HDR (dateValue d m y)]
  | .score d m y v i0 i1 i2 i3 =>
    [wrInput .SC_DATE (dateValue d m y), wrInput .SC_VALUE v,
      wrInput .SC_INIT (i0.setWidth 32 + i1.setWidth 32 <<< 8 + i2.setWidth 32 <<< 16 + i3.setWidth 32 <<< 24)]
  | .adlBytes bytes => bytes.map fun b => commandInput (.adlByte b)
  | .ckBytes bytes => bytes.map fun b => commandInput (.ckPush b)
  | .ckStr text => text.map fun b => commandInput (.ckPush b)
  | .adlStr text => text.map fun b => commandInput (.adlByte b)

/-- A listing: the accesses of its lines, in order. -/
def listing (lines : List Line) : List Input := lines.flatMap Line.expand

end Sys2Proof.Machine
end

