-- ==== Sys2Proof/Safety.lean ====
section
/-! DEFINITION. What holds of the block between any two steps, and the words the statements use: an IDLE block, the
invariant, and the shape of a finished Checksum Engine. -/

namespace Sys2Proof.Machine

/-- The block is between two commands (`spec/10_state.md` R50). -/
abbrev State.idle (s : State) : Prop := s.seq = Sequencer.rest

/-- The accumulators are reduced (`spec/10_state.md` R25; `N <= 127` by its width). -/
abbrev Engine.inRange (e : Engine) : Prop := e.a.toNat ≤ 65520 ∧ e.b.toNat ≤ 65520

/-- The file store's invariants (`spec/10_state.md` R49), and the canonical form of its bytes (log 12). -/
abbrev FileStore.ok (cap : Nat) (fs : FileStore) : Prop :=
  fs.len ≤ cap ∧ (fs.present = false → fs.len = 0) ∧ fs.data.wf ∧ ∀ c ∈ fs.data, c.1 < cap

/-- The sequencer is inside the record part of a file with `n` records. -/
def Sequencer.inRecord (c : Config) (n : Nat) (q : Sequencer) : Bool :=
  q.fp == recordBase c q.ri + q.bi && decide (q.bi < c.recLen) && decide (q.ri < n)

/-- The sequencer's pointers fit the phase it is in (`spec/10_state.md` R50, `spec/41_marshaller.md` R140); `n` is the
count of the save buffer. -/
def Sequencer.fits (c : Config) (n : Nat) (q : Sequencer) : Bool :=
  match q.phase with
  | .idle => decide (q = Sequencer.rest)
  | .w1 => decide (q.fp < cksumLen) && q.ri == 0 && q.bi == q.fp && (q.cut || q.fp == 0)
  | .w2 =>
    (decide (cksumLen ≤ q.fp) && decide (q.fp < headerLen) && q.ri == 0 && q.bi == q.fp) || q.inRecord c n
  | .w3 => decide (q.fp ≤ q.len) && decide (q.len ≤ c.fsCap) && q.ri == 0 && q.bi == 0
  | .w4 => decide (q.fp < cksumLen) && q.ri == 0 && q.bi == q.fp
  | .r1 => decide (q.fp < headerLen) && q.buf.length == q.fp && q.ri == 0 && q.bi == q.fp
  | .r2 => decide (q.fp < headerLen) && q.ri == 0 && q.bi == q.fp
  | .r3 => decide (q.fp ≤ q.len) && decide (q.len ≤ c.fsCap) && q.ri == 0 && q.bi == 0
  | .r4 =>
    q.buf.length == q.bi &&
      (q.inRecord c q.hdr.count.toNat || (q.fp == c.fileLen q.hdr.count.toNat && q.ri == q.hdr.count.toNat && q.bi == 0))
  | .v1 => decide (q.fp ≤ q.len) && decide (q.len ≤ c.fsCap) && q.ri == 0 && q.bi == 0

/-- The invariant: a legal configuration (`spec/00_scope.md` R8), reduced accumulators (R25), a file store as R49 says, a
sequencer whose pointers fit its phase (R50). -/
abbrev State.Inv (s : State) : Prop :=
  s.cfg.legal ∧ s.ce.inRange ∧ s.fs.ok s.cfg.fsCap ∧ s.seq.fits s.cfg s.save.hdr.count.toNat = true

/-- `k` steps of the machine, stopping where it stops. -/
def runSteps : Nat → State → Host.Outcome State Fault Refusal
  | 0, s => .next s
  | k + 1, s =>
    match step s with
    | .next t => runSteps k t
    | .fault r => .fault r
    | .refused r => .refused r

/-- `n` reads at ascending offsets (`spec/41_marshaller.md` R140). -/
def readsFrom (off n : Nat) : List FsAccess := (List.range n).map fun i => .read (off + i)

/-- Writes of some bytes at ascending offsets (R140). -/
def writesFrom (off : Nat) : List Byte → List FsAccess
  | [] => []
  | b :: rest => .write off b :: writesFrom (off + 1) rest

/-- How many reads, byte writes and truncations a list of accesses holds (`spec/70_reset_and_hazards.md` R237). -/
def accessCounts (l : List FsAccess) : Nat × Nat × Nat :=
  (l.countP fun acc => match acc with
    | .read _ => true
    | .write _ _ => false
    | .truncate => false,
   l.countP fun acc => match acc with
    | .read _ => false
    | .write _ _ => true
    | .truncate => false,
   l.countP fun acc => match acc with
    | .read _ => false
    | .write _ _ => false
    | .truncate => true)

/-- The table of `spec/70_reset_and_hazards.md` R237: reads, byte writes, truncations of a command issued in `s` that ends
with `err`. -/
def expectedCounts (i : Instr) (s : State) (err : ResultCode) : Nat × Nat × Nat :=
  let pass := if err = .ioError then (0, 0, 0) else (s.fs.len, 0, 0)
  match i with
  | .adlRst => (0, 0, 0)
  | .adlByte _ => (0, 0, 0)
  | .adlVal => (0, 0, 0)
  | .ckInit => (0, 0, 0)
  | .ckPush _ => (0, 0, 0)
  | .ckEnd => (0, 0, 0)
  | .fsCsum => pass
  | .fsCsumz => pass
  | .svWrite =>
    if err = .ioError then (0, 0, 0)
    else (8 + s.cfg.recLen * s.save.hdr.count.toNat, 8 + s.cfg.recLen * s.save.hdr.count.toNat + 4, 1)
  | .svRead =>
    if err = .ioError then (0, 0, 0)
    else if err = .parseError then (if s.fs.len < 8 then 0 else 8, 0, 0)
    else if err = .tamperError then (8 + s.fs.len, 0, 0)
    else (8 + s.fs.len + s.cfg.recLen * (s.fs.byteAt 7).toNat, 0, 0)
  | .svVerify => pass
  | .svAppend => (0, 0, 0)
  | .svNew _ => (0, 0, 0)
  | .svInit _ => (0, 0, 0)
  | .scGet _ => (0, 0, 0)
  | .scPut _ => (0, 0, 0)

/-- A command that neither writes nor reads the Checksum Engine: the save-buffer commands (`spec/10_state.md` R21, R22,
`spec/42_save_buffer.md`). -/
def outsideEngine (i : Instr) : Bool :=
  match i with
  | .adlRst => false
  | .adlByte _ => false
  | .adlVal => false
  | .ckInit => false
  | .ckPush _ => false
  | .ckEnd => false
  | .fsCsum => false
  | .fsCsumz => false
  | .svWrite => false
  | .svRead => false
  | .svVerify => false
  | .svAppend => true
  | .svNew _ => true
  | .svInit _ => true
  | .scGet _ => true
  | .scPut _ => true

/-- An event that is no Checksum Engine work: an access to a register other than CMD, a save-buffer command, an illegal
word, an action of the environment, or nothing. -/
def Input.outsideEngine (ev : Input) : Bool :=
  match ev with
  | .hostWrite reg w =>
    reg != cmdReg ||
      match decode w with
      | .command i => Machine.outsideEngine i
      | .illegal _ => true
  | .hostRead _ => true
  | .startCommand _ => false
  | .reset => false
  | .env _ => true
  | .tick => true

/-- Bytes fed by a command, with other events in between. -/
def interleaved (feed : Byte → Instr) (events : List (Input ⊕ Byte)) : List Input :=
  events.map fun e => match e with
    | .inl ev => ev
    | .inr d => commandInput (feed d)

/-- The bytes among them, in order. -/
def bytesFed (events : List (Input ⊕ Byte)) : List Byte :=
  events.filterMap fun e => match e with
    | .inl _ => none
    | .inr d => some d

/-- The Checksum Engine as a finished file checksum leaves it: `X` the result, `A = 1, B = 0, N = 0`
(`spec/40_checksum.md` R117). -/
def Engine.done (x : Word) : Engine := { a := 1, b := 0, x := x, n := 0 }

/-- A Score as it comes back from the file: with INITIALS_W = 3 the fourth initials byte is 0x00 (`spec/20_memory.md` R82,
D20). -/
def Score.asReadBack (c : Config) (sc : Score) : Score :=
  match c.initialsW with
  | .three => { sc with ini3 := 0x00 }
  | .four => sc

end Sys2Proof.Machine
end

