-- ==== Sys2Proof/Certificates/Slice0/Obligations.lean ====
section
/-! DEFINITION. The statements for the provers: each formalises a numbered rule of `spec/` or what follows from it. -/

open Sys2Proof Sys2Proof.Machine

/-! ### Encoding -/

/-- `spec/30_encoding.md` R90 to R92: the word of every command decodes to that command, with its immediate at every value,
and a word that decodes to a command is that command's word. -/
def Obligations.DecodeAndEncodeAgree : Prop :=
  (∀ i : Instr, i.wellFormed = true → decode (encode i) = .command i ∧ wordWellFormed (encode i) = true) ∧
  ∀ (w : Word) (i : Instr), decode w = .command i → encode i = w

/-- R93 over the table of R92: exactly one row matches a word, or none does and the word is illegal. -/
def Obligations.EveryWordMatchesOneRowOrIsIllegal : Prop :=
  ∀ w : Word,
    (∃ r ∈ opcodeTable, r.matchesWord w = true ∧ decode w = .command (r.command (immField w)) ∧
      ∀ r' ∈ opcodeTable, r'.matchesWord w = true → r'.mnemonic = r.mnemonic) ∨
    ((∀ r ∈ opcodeTable, r.matchesWord w = false) ∧ ∃ why, decode w = .illegal why)

/-- R94 and R199: which words are illegal, and that a write of one to CMD sets STATUS.ERR to 6 and changes nothing else. -/
def Obligations.IllegalWordsSetTheCodeAndNothingElse : Prop :=
  (∀ w : Word, (∃ why, decode w = .illegal why) ↔
    (w.extractLsb' 16 16 ≠ 0#16 ∨
      (let op := (w.extractLsb' 0 8).toNat
       op = 0x00 ∨ op = 0x07 ∨ (0x0A ≤ op ∧ op ≤ 0x0F) ∨ (0x13 ≤ op ∧ op ≤ 0x17) ∨ 0x1D ≤ op) ∨
      (w.extractLsb' 0 8 ∈ ([0x01, 0x03, 0x04, 0x06, 0x08, 0x09, 0x10, 0x11, 0x12, 0x18] : List Byte) ∧
        w.extractLsb' 8 8 ≠ 0#8))) ∧
  (∃ why, decode 0x00000000#32 = .illegal why) ∧
  (∀ (s : State) (w : Word) (why : IllegalReason) (rest : List Input), s.idle →
    s.inbox = .hostWrite cmdReg w :: rest → decode w = .illegal why →
    step s = .next { s with inbox := rest, err := .illegalCommand }) ∧
  ResultCode.illegalCommand.code = 6#8

/-- R97: the worked encodings and the worked illegal words. -/
def Obligations.WorkedEncodingsDecode : Prop :=
  decode 0x00000001#32 = .command .adlRst ∧ decode 0x00006102#32 = .command (.adlByte 0x61#8) ∧
  decode 0x0000FF05#32 = .command (.ckPush 0xFF#8) ∧ decode 0x00000006#32 = .command .ckEnd ∧
  decode 0x00000010#32 = .command .svWrite ∧ decode 0x00000219#32 = .command (.svNew 2#8) ∧
  decode 0x0000FF1A#32 = .command (.svInit 255#8) ∧ decode 0x0000001B#32 = .command (.scGet 0#8) ∧
  decode 0x0000FE1C#32 = .command (.scPut 254#8) ∧
  decode 0x00000000#32 = .illegal .unassignedOpcode ∧ decode 0x00000110#32 = .illegal .immediateNotZero ∧
  decode 0x00010005#32 = .illegal .reservedBits ∧ decode 0x00000007#32 = .illegal .unassignedOpcode

/-- R27: a write of a word to CMD runs the command the word encodes; CMD reads 0. What the step adds around the command is
that the event is taken off the queue, which is the model's own form of what happens outside (log 5). -/
def Obligations.StepRunsTheDecodedCommand : Prop :=
  (∀ (s : State) (w : Word) (rest : List Input) (i : Instr), s.seq.phase = .idle →
    s.inbox = .hostWrite cmdReg w :: rest → decode w = .command i → i.wellFormed = true →
    step s = exec i { s with inbox := rest }) ∧
  ∀ s : State, regRead cmdReg s = 0#32

/-! ### Checksum Engine -/

/-- R111 and R114: ADL.RST writes A and B alone; CK.INIT writes all four registers of the engine. -/
def Obligations.AdlRstAndCkInitSetTheEngine : Prop :=
  decode 0x00000001#32 = .command .adlRst ∧ decode 0x00000004#32 = .command .ckInit ∧
  ∀ s : State, s.idle →
    exec .adlRst s = .next { s with ce := { s.ce with a := 1, b := 0 }, err := .success } ∧
    exec .ckInit s = .next { s with ce := { a := 1, b := 0, x := 1, n := 0 }, err := .success }

/-- R112: ADL.BYTE d, with A' = (A + d) mod 65521 and B' = (B + A') mod 65521; nothing else changes. -/
def Obligations.AdlByteTakesOneByte : Prop :=
  (∀ d : Byte, decode (0x00000002#32 ||| d.setWidth 32 <<< 8) = .command (.adlByte d)) ∧
  ∀ (s : State) (d : Byte), s.idle → ∃ a' b' : BitVec 16,
    a'.toNat = (s.ce.a.toNat + d.toNat) % 65521 ∧ b'.toNat = (s.ce.b.toNat + a'.toNat) % 65521 ∧
    exec (.adlByte d) s = .next { s with ce := { s.ce with a := a', b := b' }, err := .success }

/-- R120: from reduced sums each reduction is at most one subtraction of 65521, each sum fits in 17 bits, the results are
reduced again, and the packed value loses no bit. -/
def Obligations.ReductionIsAtMostOneSubtraction : Prop :=
  ∀ (e : Engine) (d : Byte), e.inRange →
    let a' := (adlStep e.a e.b d).1.toNat
    let b' := (adlStep e.a e.b d).2.toNat
    e.a.toNat + d.toNat < 2 ^ 17 ∧ e.b.toNat + a' < 2 ^ 17 ∧
    a' = (if 65521 ≤ e.a.toNat + d.toNat then e.a.toNat + d.toNat - 65521 else e.a.toNat + d.toNat) ∧
    b' = (if 65521 ≤ e.b.toNat + a' then e.b.toNat + a' - 65521 else e.b.toNat + a') ∧
    a' ≤ 65520 ∧ b' ≤ 65520 ∧
    (packSums e.a e.b).toNat = e.b.toNat * 2 ^ 16 + e.a.toNat

/-- R113: ADL.VAL gives B in the high half and A in the low half, changes nothing else, and straight after ADL.RST or reset
gives 1. -/
def Obligations.AdlValDeliversTheSums : Prop :=
  decode 0x00000003#32 = .command .adlVal ∧
  (∀ s : State, s.idle → exec .adlVal s = .next { s with result := s.ce.b ++ s.ce.a, err := .success }) ∧
  (∀ s t : State, s.idle → exec .adlRst s = .next t → ∃ u, exec .adlVal t = .next u ∧ u.result = 1#32) ∧
  ∃ u, exec .adlVal State.reset = .next u ∧ u.result = 1#32

/-- R115: CK.PUSH d folds the chunk on its 128th byte, with the sums that include that byte, and else counts it. -/
def Obligations.CkPushFoldsTheFullChunk : Prop :=
  (∀ d : Byte, decode (0x00000005#32 ||| d.setWidth 32 <<< 8) = .command (.ckPush d)) ∧
  ∀ (s : State) (d : Byte), s.idle →
    let ab := adlStep s.ce.a s.ce.b d
    (s.ce.n.toNat = 127 → exec (.ckPush d) s = .next
      { s with ce := { a := 1, b := 0, x := s.ce.x ^^^ (ab.2 ++ ab.1), n := 0 }, err := .success }) ∧
    (s.ce.n.toNat ≠ 127 → ∃ n' : BitVec 7, n'.toNat = s.ce.n.toNat + 1 ∧ exec (.ckPush d) s = .next
      { s with ce := { a := ab.1, b := ab.2, x := s.ce.x, n := n' }, err := .success })

/-- R116: CK.END folds an open chunk and delivers X; with no open chunk it only delivers X; a second CK.END in a row changes
nothing. -/
def Obligations.CkEndClosesTheOpenChunk : Prop :=
  decode 0x00000006#32 = .command .ckEnd ∧
  ∀ s : State, s.idle →
    (s.ce.n ≠ 0 → exec .ckEnd s = .next
      { s with ce := { a := 1, b := 0, x := s.ce.x ^^^ (s.ce.b ++ s.ce.a), n := 0 },
               result := s.ce.x ^^^ (s.ce.b ++ s.ce.a), err := .success }) ∧
    (s.ce.n = 0 → exec .ckEnd s = .next { s with result := s.ce.x, err := .success }) ∧
    (∀ t : State, exec .ckEnd s = .next t → exec .ckEnd t = .next t)

/-- R124: `adl.rst`, the bytes, `adl.val` leave RESULT = Adl32 of the bytes, for any length, also with other events in between
that are no Checksum Engine work; with none in between, nothing else but A, B and STATUS.ERR is written. -/
def Obligations.AdlSequenceGivesAdl32 : Prop :=
  (∀ (s : State) (bytes : List Byte) (rest : List Input), s.idle →
    s.inbox = listing [.command .adlRst, .adlBytes bytes, .command .adlVal] ++ rest →
    ∃ a b : BitVec 16, b ++ a = adl32 bytes ∧
      runSteps (bytes.length + 2) s = .next
        { s with inbox := rest, ce := { s.ce with a := a, b := b }, result := adl32 bytes, err := .success }) ∧
  ∀ (s : State) (events : List (Input ⊕ Byte)) (rest : List Input), s.idle →
    (∀ ev : Input, .inl ev ∈ events → ev.outsideEngine = true) →
    s.inbox = commandInput .adlRst :: (interleaved .adlByte events ++ commandInput .adlVal :: rest) →
    ∃ t, runSteps (events.length + 2) s = .next t ∧ t.idle ∧ t.inbox = rest ∧ t.err = .success ∧
      t.result = adl32 (bytesFed events) ∧ t.ce.b ++ t.ce.a = adl32 (bytesFed events) ∧
      t.ce.x = s.ce.x ∧ t.ce.n = s.ce.n

/-- R125: `ck.init`, the bytes, `ck.end` leave RESULT = X = FileSum of the bytes and A = 1, B = 0, N = 0, for any length, also
with other events in between that are no Checksum Engine work. -/
def Obligations.CkSequenceGivesFileSum : Prop :=
  (∀ (s : State) (bytes : List Byte) (rest : List Input), s.idle →
    s.inbox = listing [.command .ckInit, .ckBytes bytes, .command .ckEnd] ++ rest →
    runSteps (bytes.length + 2) s = .next
      { s with inbox := rest, ce := { a := 1, b := 0, x := fileSum bytes, n := 0 }, result := fileSum bytes,
               err := .success }) ∧
  ∀ (s : State) (events : List (Input ⊕ Byte)) (rest : List Input), s.idle →
    (∀ ev : Input, .inl ev ∈ events → ev.outsideEngine = true) →
    s.inbox = commandInput .ckInit :: (interleaved .ckPush events ++ commandInput .ckEnd :: rest) →
    ∃ t, runSteps (events.length + 2) s = .next t ∧ t.idle ∧ t.inbox = rest ∧ t.err = .success ∧
      t.result = fileSum (bytesFed events) ∧ t.ce = { a := 1, b := 0, x := fileSum (bytesFed events), n := 0 }

/-- R122: over 1 to 128 bytes FileSum is Adl32 xor 1; for the empty sequence both are 1; and past one chunk FileSum is not
the single pass, with or without the seed. -/
def Obligations.OneChunkDiffersFromTheSinglePassByTheSeed : Prop :=
  (∀ bytes : List Byte, 1 ≤ bytes.length → bytes.length ≤ 128 → fileSum bytes = adl32 bytes ^^^ 1#32) ∧
  fileSum [] = 1#32 ∧ adl32 [] = 1#32 ∧
  ∃ bytes : List Byte, bytes.length = 129 ∧ fileSum bytes ≠ adl32 bytes ∧ fileSum bytes ≠ adl32 bytes ^^^ 1#32

/-- R117: the file checksum procedure computes FileSum of the file, or of the file with its first four bytes zero, and leaves
A = 1, B = 0, N = 0. -/
def Obligations.FileChecksumIsFileSumOfTheFile : Prop :=
  ∀ (z : Bool) (fs : FileStore),
    fileChecksum z fs =
      { a := 1, b := 0, x := if z then fileSum (zeroHead fs.bytes) else fileSum fs.bytes, n := 0 }

/-- R118 and R119: FS.CSUM and FS.CSUMZ, with a file and without one (then no access is made), their corner lengths, and what
they give on a file SV.WRITE has made. -/
def Obligations.FsCsumAndFsCsumzSumTheFile : Prop :=
  decode 0x00000008#32 = .command .fsCsum ∧ decode 0x00000009#32 = .command .fsCsumz ∧
  (∀ s : State, s.idle → s.fs.present = false →
    exec .fsCsum s = .next { s with err := .ioError } ∧ exec .fsCsumz s = .next { s with err := .ioError }) ∧
  (∀ s : State, s.idle → s.fs.present = true →
    exec .fsCsum s = .next
      { s with ce := Engine.done (fileSum s.fs.bytes), result := fileSum s.fs.bytes, err := .success } ∧
    exec .fsCsumz s = .next
      { s with ce := Engine.done (fileSum (zeroHead s.fs.bytes)), result := fileSum (zeroHead s.fs.bytes),
               err := .success }) ∧
  (∀ s : State, s.fs.len = 0 → fileSum s.fs.bytes = 1#32 ∧ fileSum (zeroHead s.fs.bytes) = 1#32) ∧
  (∀ s : State, 1 ≤ s.fs.len → s.fs.len ≤ 3 →
    fileSum (zeroHead s.fs.bytes) = BitVec.ofNat 32 s.fs.len <<< 16) ∧
  (∀ s t : State, s.fs.wrOk = true → s.fs.data.wf → exec .svWrite s = .next t →
    ∃ u, exec .fsCsumz t = .next u ∧ u.err = .success ∧ u.result = t.save.hdr.cksum) ∧
  (∃ s t u : State, exec .svWrite s = .next t ∧ t.err = .success ∧ exec .fsCsum t = .next u ∧ u.err = .success ∧
    u.result ≠ t.save.hdr.cksum) ∧
  ∀ (s t : State) (k : Nat), s.fs.present = false → (beginInstr .fsCsum s = .next t ∨ beginInstr .fsCsumz s = .next t) →
    t.err = .ioError ∧ seqTrace k t = []

/-! ### Marshaller -/

/-- R62 and R63: where each field of the image stands, multi-byte fields least significant byte first. -/
def Obligations.ImageFollowsTheFileLayout : Prop :=
  ∀ (c : Config) (sv : Save),
    let f := image c sv
    let ck := fileSum (ser c sv)
    f.length = 8 + c.recLen * sv.hdr.count.toNat ∧
    (∀ k, k < 4 → f.getD k 0 = ck.extractLsb' (8 * k) 8) ∧
    f.getD 4 0 = sv.hdr.day ∧ f.getD 5 0 = sv.hdr.month ∧ f.getD 6 0 = sv.hdr.year ∧ f.getD 7 0 = sv.hdr.count ∧
    ∀ i, i < sv.hdr.count.toNat →
      let base := 8 + c.recLen * i
      let sc := sv.slot i
      f.getD base 0 = sc.day ∧ f.getD (base + 1) 0 = sc.month ∧ f.getD (base + 2) 0 = sc.year ∧
      (∀ k, k < 4 → f.getD (base + 3 + k) 0 = sc.value.extractLsb' (8 * k) 8) ∧
      f.getD (base + 7) 0 = sc.ini0 ∧ f.getD (base + 8) 0 = sc.ini1 ∧ f.getD (base + 9) 0 = sc.ini2 ∧
      (c.initialsW = .four → c.recLen = 11 ∧ f.getD (base + 10) 0 = sc.ini3) ∧
      (c.initialsW = .three → c.recLen = 10)

/-- R142: SV.WRITE leaves Image(SV) on the file store, its checksum in SV.cksum, RESULT and X, and nothing else changed; no
byte past the image is written; with `wr_ok = 0` it raises IoError and changes nothing. The premise on `data` is the canonical
form of the byte list (log 12); that the raw bytes at and past the new length stay is the model's choice (log 14). -/
def Obligations.SvWriteLeavesTheSealedImage : Prop :=
  decode 0x00000010#32 = .command .svWrite ∧
  (∀ s : State, s.idle → s.fs.wrOk = false → exec .svWrite s = .next { s with err := .ioError }) ∧
  (∀ s : State, s.idle → s.fs.wrOk = true → s.fs.data.wf →
    let c := fileSum (ser s.cfg s.save)
    ∃ f : FileStore,
      exec .svWrite s = .next
        { s with fs := f, ce := Engine.done c, save := { s.save with hdr := { s.save.hdr with cksum := c } },
                 result := c, err := .success } ∧
      f.bytes = image s.cfg s.save ∧ f.present = true ∧ f.wrOk = true ∧
      f.len = 8 + s.cfg.recLen * s.save.hdr.count.toNat ∧
      ∀ off, 8 + s.cfg.recLen * s.save.hdr.count.toNat ≤ off → f.byteAt off = s.fs.byteAt off) ∧
  ∀ (c : Config) (sv : Save), zeroHead (ser c sv) = ser c sv

/-- R143: SV.READ, by cases in the order of its tests: IoError, ParseError, TamperError, success. -/
def Obligations.SvReadParsesOnlyAWholeSealedFile : Prop :=
  decode 0x00000011#32 = .command .svRead ∧
  ∀ s : State, s.idle →
    let c := fileSum (zeroHead s.fs.bytes)
    (s.fs.present = false → exec .svRead s = .next { s with err := .ioError }) ∧
    (s.fs.present = true →
      (s.fs.len < 8 ∨ s.fs.len < 8 + s.cfg.recLen * (s.fs.byteAt 7).toNat) →
      exec .svRead s = .next { s with err := .parseError }) ∧
    (s.fs.present = true → 8 ≤ s.fs.len → 8 + s.cfg.recLen * (s.fs.byteAt 7).toNat ≤ s.fs.len →
      ∃ h scores, parse s.cfg s.fs.bytes = some (h, scores) ∧ scores.length = (s.fs.byteAt 7).toNat ∧
        (c ≠ h.cksum → exec .svRead s = .next
          { s with ce := Engine.done c, result := c, tamper := true, err := .tamperError }) ∧
        (c = h.cksum → ∃ slots : Vector Score 255,
          exec .svRead s = .next
            { s with ce := Engine.done c, result := c, tamper := false, err := .success,
                     save := { hdr := h, slots := slots } } ∧
          ∀ j, j < 255 → (Save.mk h slots).slot j =
            if j < scores.length then scores.getD j Score.blank else s.save.slot j))

/-- R144: SV.VERIFY compares the recomputed checksum with ARG, reports a difference in TAMPER and never as an error, and
writes nothing but TAMPER, RESULT and the Checksum Engine. -/
def Obligations.SvVerifyComparesWithArg : Prop :=
  decode 0x00000012#32 = .command .svVerify ∧
  ∀ s : State, s.idle →
    (s.fs.present = false → exec .svVerify s = .next { s with err := .ioError }) ∧
    (s.fs.present = true →
      ∃ t, exec .svVerify s = .next t ∧ (t.tamper = true ↔ fileSum (zeroHead s.fs.bytes) ≠ s.arg) ∧
        t = { s with ce := Engine.done (fileSum (zeroHead s.fs.bytes)), result := fileSum (zeroHead s.fs.bytes),
                     tamper := t.tamper, err := .success })

/-- R75: the reading commands and host reads never write the file store, and two SV.READ in a row give the same Save. The
port's read value `rdata` is the model's own field (log 10). -/
def Obligations.ReadsNeverWriteTheStore : Prop :=
  (∀ (i : Instr) (s t : State), i ∈ [Instr.svRead, .svVerify, .fsCsum, .fsCsumz] → exec i s = .next t → t.fs = s.fs) ∧
  (∀ s t u : State, exec .svRead s = .next t → t.err = .success → exec .svRead t = .next u →
    u.save = t.save ∧ u.err = .success ∧ u.fs = s.fs) ∧
  ∀ (s : State) (reg : BitVec 6), ∃ v : Word, takeWhenIdle (.hostRead reg) s = .next { s with rdata := v }

/-- R82: Parse of Image gives the Save back, with `cksum = FileSum(Ser(S))`, and the image verifies. -/
def Obligations.ParseOfImageGivesTheSaveBack : Prop :=
  ∀ (c : Config) (sv : Save),
    parse c (image c sv) = some
      ({ sv.hdr with cksum := fileSum (ser c sv) },
       (List.range sv.hdr.count.toNat).map fun i => (sv.slot i).asReadBack c) ∧
    fileSum (zeroHead (image c sv)) = fileSum (ser c sv)

/-- R146: SV.WRITE and then SV.READ, with nothing in between, leave the header and the slots as they were (the fourth
initials byte 0x00 where it is not on file), SV.cksum the computed value, TAMPER = 0. -/
def Obligations.WriteThenReadRestoresTheSave : Prop :=
  ∀ (s : State) (rest : List Input), s.idle → s.fs.wrOk = true → s.fs.data.wf →
    s.inbox = listing [.command .svWrite, .command .svRead] ++ rest →
    ∃ t : State, runSteps 2 s = .next t ∧ t.err = .success ∧ t.tamper = false ∧
      t.save.hdr = { s.save.hdr with cksum := fileSum (ser s.cfg s.save) } ∧
      ∀ j, j < 255 → t.save.slot j =
        if j < s.save.hdr.count.toNat then (s.save.slot j).asReadBack s.cfg else s.save.slot j

/-- R83: a file that differs from a whole sealed one in exactly one byte is never read successfully: TamperError, or
ParseError where a raised count byte asks for more bytes than the file has. Two equal full chunks, on the other hand, cancel. -/
def Obligations.OneChangedByteIsAlwaysDetected : Prop :=
  (∀ (c : Config) (file : List Byte) (h : Header) (scores : List Score) (k : Nat) (b : Byte),
    parse c file = some (h, scores) → fileSum (zeroHead file) = h.cksum → k < file.length → b ≠ file.getD k 0 →
    (k = 7 ∧ (file.getD 7 0).toNat < b.toNat ∧ parse c (file.set k b) = none) ∨
    ∃ h' scores', parse c (file.set k b) = some (h', scores') ∧ fileSum (zeroHead (file.set k b)) ≠ h'.cksum) ∧
  (∀ (s : State) (file : List Byte) (h : Header) (scores : List Score) (k : Nat) (b : Byte), s.fs.present = true →
    parse s.cfg file = some (h, scores) → fileSum (zeroHead file) = h.cksum → k < file.length → b ≠ file.getD k 0 →
    s.fs.bytes = file.set k b →
    ∃ t, exec .svRead s = .next t ∧ t.save = s.save ∧ (t.err = .tamperError ∨ (k = 7 ∧ t.err = .parseError))) ∧
  ∀ chunk rest : List Byte, chunk.length = 128 → fileSum (chunk ++ (chunk ++ rest)) = fileSum rest

/-! ### Save buffer -/

/-- R171 and R170: SV.APPEND puts the staging Score into slot SV.count and counts it; at 255 it raises CapacityError and
changes nothing. -/
def Obligations.SvAppendAddsTheStagingScore : Prop :=
  decode 0x00000018#32 = .command .svAppend ∧
  ∀ s : State, s.idle →
    (s.save.hdr.count.toNat = 255 → exec .svAppend s = .next { s with err := .capacityError }) ∧
    (s.save.hdr.count.toNat ≠ 255 → ∃ (n : Byte) (slots : Vector Score 255),
      n.toNat = s.save.hdr.count.toNat + 1 ∧
      exec .svAppend s = .next
        { s with save := { hdr := { s.save.hdr with count := n }, slots := slots }, err := .success } ∧
      ∀ j, j < 255 → (Save.mk { s.save.hdr with count := n } slots).slot j =
        if j = s.save.hdr.count.toNat then
          { day := s.scDate.extractLsb' 0 8, month := s.scDate.extractLsb' 8 8, year := s.scDate.extractLsb' 16 8,
            value := s.scValue, ini0 := s.scInit.extractLsb' 0 8, ini1 := s.scInit.extractLsb' 8 8,
            ini2 := s.scInit.extractLsb' 16 8, ini3 := s.scInit.extractLsb' 24 8 }
        else s.save.slot j)

/-- R172, R173 with R47: SV.NEW n and SV.INIT n make a Save of n unspecified scores, dated zero or from NOW, with SV.cksum 0;
slots n to 254 keep what they held. The unspecified slots hold free draws; that the draws are numbered from the counter
`draws` on, eleven to a slot, is the model's choice (log 3), and the statement holds for every value of the counter. -/
def Obligations.SvNewAndSvInitMakeANewSave : Prop :=
  (∀ n : Byte, decode (0x00000019#32 ||| n.setWidth 32 <<< 8) = .command (.svNew n) ∧
    decode (0x0000001A#32 ||| n.setWidth 32 <<< 8) = .command (.svInit n)) ∧
  ∀ (s : State) (n : Byte), s.idle → ∃ slots : Vector Score 255,
    (∀ (h : Header) (j : Nat), j < 255 → (Save.mk h slots).slot j =
      if j < n.toNat then drawScore (s.draws + 11 * j) else s.save.slot j) ∧
    exec (.svNew n) s = .next
      { s with save := { hdr := { cksum := 0, day := 0, month := 0, year := 0, count := n }, slots := slots },
               draws := s.draws + 11 * n.toNat, err := .success } ∧
    exec (.svInit n) s = .next
      { s with save := { hdr := { cksum := 0, day := s.now.extractLsb' 0 8, month := s.now.extractLsb' 8 8,
                                  year := s.now.extractLsb' 16 8, count := n }, slots := slots },
               draws := s.draws + 11 * n.toNat, err := .success }

/-- R174 (with R170): SC.GET i copies slot i to the staging registers; at or past the count it raises BoundsError and changes
nothing. -/
def Obligations.ScGetCopiesASlotToStaging : Prop :=
  (∀ i : Byte, decode (0x0000001B#32 ||| i.setWidth 32 <<< 8) = .command (.scGet i)) ∧
  ∀ (s : State) (i : Byte), s.idle →
    (s.save.hdr.count.toNat ≤ i.toNat → exec (.scGet i) s = .next { s with err := .boundsError }) ∧
    (i.toNat < s.save.hdr.count.toNat →
      let sc := s.save.slot i.toNat
      exec (.scGet i) s = .next
        { s with scDate := (sc.year ++ sc.month) ++ sc.day, scValue := sc.value,
                 scInit := ((sc.ini3 ++ sc.ini2) ++ sc.ini1) ++ sc.ini0, err := .success })

/-- R175 (with R170): SC.PUT i copies the staging registers to slot i; at or past the count it raises BoundsError and changes
nothing. -/
def Obligations.ScPutCopiesStagingToASlot : Prop :=
  (∀ i : Byte, decode (0x0000001C#32 ||| i.setWidth 32 <<< 8) = .command (.scPut i)) ∧
  ∀ (s : State) (i : Byte), s.idle →
    (s.save.hdr.count.toNat ≤ i.toNat → exec (.scPut i) s = .next { s with err := .boundsError }) ∧
    (i.toNat < s.save.hdr.count.toNat → ∃ slots : Vector Score 255,
      exec (.scPut i) s = .next { s with save := { s.save with slots := slots }, err := .success } ∧
      ∀ j, j < 255 → (Save.mk s.save.hdr slots).slot j =
        if j = i.toNat then
          { day := s.scDate.extractLsb' 0 8, month := s.scDate.extractLsb' 8 8, year := s.scDate.extractLsb' 16 8,
            value := s.scValue, ini0 := s.scInit.extractLsb' 0 8, ini1 := s.scInit.extractLsb' 8 8,
            ini2 := s.scInit.extractLsb' 16 8, ini3 := s.scInit.extractLsb' 24 8 }
        else s.save.slot j)

/-- A slot written by SC.PUT comes back by SC.GET in all eleven bytes (R170, R175, R174), whatever the staging registers held
in between. -/
def Obligations.ScPutThenScGetGivesTheScoreBack : Prop :=
  ∀ (s t : State) (i : Byte) (d : BitVec 24) (v w : Word), exec (.scPut i) s = .next t → t.err = .success →
    ∃ u, exec (.scGet i) { t with scDate := d, scValue := v, scInit := w } = .next u ∧ u.err = .success ∧
      u.scDate = s.scDate ∧ u.scValue = s.scValue ∧ u.scInit = s.scInit ∧ u.save = t.save

/-- R61: the commands fed by the host and the save-buffer commands make no file-store access at all. -/
def Obligations.HostFedCommandsMakeNoAccess : Prop :=
  ∀ (i : Instr) (s t : State),
    (i ∈ [Instr.adlRst, .adlVal, .ckInit, .ckEnd, .svAppend] ∨
      (∃ d, i = .adlByte d ∨ i = .ckPush d ∨ i = .svNew d ∨ i = .svInit d ∨ i = .scGet d ∨ i = .scPut d)) →
    beginInstr i s = .next t → exec i s = .next t ∧ t.fs = s.fs ∧ ∀ k, seqTrace k t = [] ∧ seqRun k t = .next t

/-! ### Who writes what -/

/-- R30: TAMPER is written only by SV.VERIFY and by an SV.READ that reaches verification, and no command reads it. -/
def Obligations.TamperIsWrittenByVerificationAlone : Prop :=
  (∀ (i : Instr) (s t : State), exec i s = .next t →
    (i ≠ .svVerify → i ≠ .svRead → t.tamper = s.tamper) ∧
    (i = .svRead → t.err = .ioError ∨ t.err = .parseError → t.tamper = s.tamper) ∧
    (i = .svVerify → t.err = .success → (t.tamper = true ↔ t.result ≠ s.arg)) ∧
    (i = .svRead → t.err = .success ∨ t.err = .tamperError →
      (t.tamper = true ↔ t.result ≠ (headerOfBytes s.fs.bytes).cksum))) ∧
  (∀ (i : Instr) (s t : State) (b : Bool), exec i s = .next t →
    ∃ t', exec i { s with tamper := b } = .next t' ∧ t = { t' with tamper := t.tamper }) ∧
  (∀ (s : State) (reg : BitVec 6) (v : Word), (regWrite reg v s).tamper = s.tamper) ∧ State.reset.tamper = false

/-- R31: RESULT is written only by the commands that produce a value, and not by one that raises before it has one. -/
def Obligations.ResultIsWrittenByItsProducersAlone : Prop :=
  ∀ (i : Instr) (s t : State), exec i s = .next t →
    (i ∉ [Instr.adlVal, .ckEnd, .fsCsum, .fsCsumz, .svWrite, .svVerify, .svRead] → t.result = s.result) ∧
    (t.err ≠ .success → t.err ≠ .tamperError → t.result = s.result)

/-- R32, R33, R36 to R38: no command writes ARG or NOW, and only SC.GET writes the staging registers. -/
def Obligations.OperandRegistersBelongToTheHost : Prop :=
  ∀ (i : Instr) (s t : State), exec i s = .next t →
    t.arg = s.arg ∧ t.now = s.now ∧
    ((∀ idx, i ≠ .scGet idx) → t.scDate = s.scDate ∧ t.scValue = s.scValue ∧ t.scInit = s.scInit)

/-- R21 to R23: which commands write the Checksum Engine, and which part of it. -/
def Obligations.EngineIsWrittenByChecksumWorkAlone : Prop :=
  ∀ (i : Instr) (s t : State), exec i s = .next t →
    (i ∈ [Instr.adlVal, .svAppend] ∨ (∃ d, i = .svNew d ∨ i = .svInit d ∨ i = .scGet d ∨ i = .scPut d) →
      t.ce = s.ce) ∧
    (i = .adlRst ∨ (∃ d, i = .adlByte d) → t.ce.x = s.ce.x ∧ t.ce.n = s.ce.n) ∧
    (t.err ≠ .success → t.err ≠ .tamperError → t.ce = s.ce)

/-- R45 and `spec/95_test_vectors.md` section 13 item 11: SV.count changes only by SV.NEW, SV.INIT, SV.APPEND (by one, never
from 255) and a successful SV.READ. -/
def Obligations.CountNeverWraps : Prop :=
  (∀ (i : Instr) (s t : State), exec i s = .next t → t.save.hdr.count ≠ s.save.hdr.count →
    (∃ n, (i = .svNew n ∨ i = .svInit n) ∧ t.save.hdr.count = n) ∨
    (i = .svAppend ∧ s.save.hdr.count.toNat < 255 ∧ t.save.hdr.count.toNat = s.save.hdr.count.toNat + 1) ∨
    (i = .svRead ∧ t.err = .success ∧ t.save.hdr.count = s.fs.byteAt 7)) ∧
  ∀ (s : State) (reg : BitVec 6) (v : Word), (regWrite reg v s).save.hdr.count = s.save.hdr.count

/-- R45: slots at the count and above are not part of the Save: two states that differ in nothing else take the same step in
everything else, and end with the same Save. -/
def Obligations.SlotsPastTheCountAreNeverRead : Prop :=
  ∀ (i : Instr) (s t : State) (slots : Vector Score 255),
    (∀ j, j < s.save.hdr.count.toNat → (Save.mk s.save.hdr slots).slot j = s.save.slot j) → exec i s = .next t →
    ∃ t', exec i { s with save := { s.save with slots := slots } } = .next t' ∧
      { t' with save := t.save } = t ∧ t'.save.hdr = t.save.hdr ∧
      ∀ j, j < t.save.hdr.count.toNat → t'.save.slot j = t.save.slot j

/-- R194 (and R48, the contents of the file are the bytes below `fs.len`): two states that differ only in bytes of the file
store at or past `fs.len` take the same step in everything else, and end with the same file. The premises on `data` are the
canonical form of the byte list (log 12). -/
def Obligations.BytesPastTheLengthAreNeverRead : Prop :=
  ∀ (i : Instr) (s t : State) (f : FileStore), s.fs.data.wf → f.data.wf → f.present = s.fs.present →
    f.wrOk = s.fs.wrOk → f.len = s.fs.len → (∀ off, off < s.fs.len → f.byteAt off = s.fs.byteAt off) →
    exec i s = .next t →
    ∃ t', exec i { s with fs := f } = .next t' ∧ { t' with fs := t.fs } = t ∧ t'.fs.present = t.fs.present ∧
      t'.fs.wrOk = t.fs.wrOk ∧ t'.fs.len = t.fs.len ∧ t'.fs.bytes = t.fs.bytes

/-- R34: no command reads SV.cksum. -/
def Obligations.StoredChecksumIsNoInput : Prop :=
  ∀ (i : Instr) (s t : State) (v : Word), exec i s = .next t →
    ∃ t', exec i { s with save := { s.save with hdr := { s.save.hdr with cksum := v } } } = .next t' ∧
      { t' with save := { t'.save with hdr := { t'.save.hdr with cksum := t.save.hdr.cksum } } } = t ∧
      (t'.save.hdr.cksum = t.save.hdr.cksum ∨ (t.save.hdr.cksum = s.save.hdr.cksum ∧ t'.save.hdr.cksum = v))

/-! ### Errors -/

/-- R191: the codes; and each error comes only from the commands the table names, for the cause it names, with what it
records. -/
def Obligations.ErrorsHaveTheirCausesAndCodes : Prop :=
  [ResultCode.success, .ioError, .parseError, .tamperError, .capacityError, .boundsError, .illegalCommand].map
    ResultCode.code = [0, 1, 2, 3, 4, 5, 6] ∧
  ∀ (i : Instr) (s t : State), exec i s = .next t →
    (t.err = .ioError →
      (i ∈ [Instr.fsCsum, .fsCsumz, .svRead, .svVerify] ∧ s.fs.present = false) ∨
      (i = .svWrite ∧ s.fs.wrOk = false)) ∧
    (t.err = .parseError → i = .svRead ∧ s.fs.present = true ∧
      (s.fs.len < 8 ∨ s.fs.len < 8 + s.cfg.recLen * (s.fs.byteAt 7).toNat)) ∧
    (t.err = .tamperError → i = .svRead ∧ s.fs.present = true ∧ 8 ≤ s.fs.len ∧
      fileSum (zeroHead s.fs.bytes) ≠ (headerOfBytes s.fs.bytes).cksum ∧
      t.result = fileSum (zeroHead s.fs.bytes) ∧ t.tamper = true ∧
      t.ce = { a := 1, b := 0, x := fileSum (zeroHead s.fs.bytes), n := 0 }) ∧
    (t.err = .capacityError → i = .svAppend ∧ s.save.hdr.count.toNat = 255) ∧
    (t.err = .boundsError → ∃ idx : Byte, (i = .scGet idx ∨ i = .scPut idx) ∧ s.save.hdr.count.toNat ≤ idx.toNat) ∧
    t.err ≠ .illegalCommand

/-- R193: an error other than TamperError changes nothing but STATUS.ERR; TamperError changes also the Checksum Engine, RESULT
and TAMPER, and nothing else; every command, with or without error, and every illegal word ends with the sequencer IDLE. -/
def Obligations.ErrorsLeaveEverythingElseAsItWas : Prop :=
  (∀ (i : Instr) (s : State), s.idle → ∃ t, exec i s = .next t ∧ t.idle ∧
    (t.err ≠ .success → t.err ≠ .tamperError → t = { s with err := t.err }) ∧
    (t.err = .tamperError →
      let c := fileSum (zeroHead s.fs.bytes)
      t = { s with err := .tamperError, result := c, tamper := true, ce := { a := 1, b := 0, x := c, n := 0 } })) ∧
  ∀ (s : State) (w : Word) (why : IllegalReason), s.idle → decode w = .illegal why →
    issueCommand w s = .next { s with err := .illegalCommand }

/-- R50: no command depends on the values `fp`, `ri`, `bi` (or any other sequencer state) held before it started. -/
def Obligations.CommandsForgetTheSequencer : Prop :=
  ∀ (i : Instr) (s : State) (q : Sequencer), exec i { s with seq := q } = exec i s

/-! ### Host registers -/

/-- R28, R33, R35 to R40: the fields of the host-visible registers, bit by bit. -/
def Obligations.RegistersShowTheirFields : Prop :=
  ∀ s : State,
    ((regRead 1#6 s).extractLsb' 0 8 = s.err.code ∧ (regRead 1#6 s).getLsbD 8 = s.tamper ∧
      (regRead 1#6 s).extractLsb' 9 23 = 0) ∧
    (regRead 2#6 s = s.result ∧ regRead 3#6 s = s.arg ∧ regRead 5#6 s = s.save.hdr.cksum ∧
      regRead 8#6 s = s.scValue ∧ regRead 9#6 s = s.scInit ∧ regRead 11#6 s = s.ce.x) ∧
    ((regRead 4#6 s).extractLsb' 0 24 = s.now ∧ (regRead 4#6 s).extractLsb' 24 8 = 0 ∧
      (regRead 7#6 s).extractLsb' 0 24 = s.scDate ∧ (regRead 7#6 s).extractLsb' 24 8 = 0) ∧
    ((regRead 6#6 s).extractLsb' 0 8 = s.save.hdr.day ∧ (regRead 6#6 s).extractLsb' 8 8 = s.save.hdr.month ∧
      (regRead 6#6 s).extractLsb' 16 8 = s.save.hdr.year ∧ (regRead 6#6 s).extractLsb' 24 8 = s.save.hdr.count) ∧
    ((regRead 10#6 s).extractLsb' 0 16 = s.ce.a ∧ (regRead 10#6 s).extractLsb' 16 16 = s.ce.b ∧
      (regRead 12#6 s).toNat = s.ce.n.toNat) ∧
    ((regRead 13#6 s).getLsbD 0 = s.fs.present ∧ (regRead 13#6 s).getLsbD 1 = s.fs.wrOk ∧
      (regRead 13#6 s).extractLsb' 2 14 = 0 ∧ (regRead 13#6 s).extractLsb' 29 3 = 0 ∧
      (s.fs.len < 8192 → ((regRead 13#6 s).extractLsb' 16 13).toNat = s.fs.len))

/-- R26: a write to a register other than CMD shows in that register as its access code says and in no other register, and
never writes a slot, the file store or the sequencer. -/
def Obligations.RegisterWritesShowInThatRegisterAlone : Prop :=
  ∀ (s : State) (reg : BitVec 6) (v : Word), reg ≠ cmdReg → ∃ t, hostWrite reg v s = .next t ∧
    (∀ r : BitVec 6, r ≠ reg → regRead r t = regRead r s) ∧
    (reg ∈ ([3, 5, 8, 9] : List (BitVec 6)) → regRead reg t = v) ∧
    (reg ∈ ([4, 7] : List (BitVec 6)) → regRead reg t = v &&& 0x00FFFFFF#32) ∧
    (reg = 6 → regRead reg t = (v &&& 0x00FFFFFF#32) ||| (regRead reg s &&& 0xFF000000#32)) ∧
    (reg ∉ ([3, 4, 5, 6, 7, 8, 9] : List (BitVec 6)) → regRead reg t = regRead reg s) ∧
    t.save.slots = s.save.slots ∧ t.fs = s.fs ∧ t.seq = s.seq

/-- R41: unmapped numbers read 0 and ignore writes; so do writes to read-only registers and to reserved bits; none of these
changes any state. The port's read value `rdata` is the model's own field (log 10). -/
def Obligations.StrayAccessesAreIgnored : Prop :=
  (∀ (s : State) (reg : BitVec 6), 14 ≤ reg.toNat → regRead reg s = 0#32 ∧
    ∀ v : Word, hostWrite reg v s = .next s) ∧
  (∀ (s : State) (reg : BitVec 6) (v : Word), reg ∈ ([1, 2, 10, 11, 12, 13] : List (BitVec 6)) →
    hostWrite reg v s = .next s) ∧
  (∀ (s : State) (reg : BitVec 6) (v w : Word), reg ∈ ([4, 6, 7] : List (BitVec 6)) →
    v &&& 0x00FFFFFF#32 = w &&& 0x00FFFFFF#32 → hostWrite reg v s = hostWrite reg w s) ∧
  ∀ (s : State) (reg : BitVec 6), ∃ v : Word, takeWhenIdle (.hostRead reg) s = .next { s with rdata := v } ∧
    v = regRead reg s

/-- R96: what the pseudo-instructions load: `score` the staging Score, `now` the date in NOW, `date` the header's date with
the count kept. A line is data here (log 21). -/
def Obligations.PseudoInstructionsLoadTheRegisters : Prop :=
  ∀ (s : State) (rest : List Input) (d m y i0 i1 i2 i3 : Byte) (v : Word), s.idle →
    (s.inbox = listing [.score d m y v i0 i1 i2 i3] ++ rest →
      ∃ t, runSteps 3 s = .next t ∧ stagingScore t = ⟨d, m, y, v, i0, i1, i2, i3⟩ ∧
        { t with scDate := s.scDate, scValue := s.scValue, scInit := s.scInit } = { s with inbox := rest }) ∧
    (s.inbox = listing [.now d m y] ++ rest →
      runSteps 1 s = .next { s with inbox := rest, now := (y ++ m) ++ d }) ∧
    (s.inbox = listing [.date d m y] ++ rest →
      runSteps 1 s = .next
        { s with inbox := rest,
                 save := { s.save with hdr := { s.save.hdr with day := d, month := m, year := y } } })

/-! ### Reset and the outside world -/

/-- R51 and R220: a reset, whatever the block is doing, gives every register its reset value, makes every slot unspecified and
the sequencer IDLE, and does not reset the file store. The unspecified slots hold new free draws; their numbering is the
model's choice (log 3). The reset state itself has these values too. -/
def Obligations.ResetGivesTheResetState : Prop :=
  (∀ (s : State) (rest : List Input), s.inbox = .reset :: rest →
    ∃ t, step s = .next t ∧
      t.ce = { a := 1, b := 0, x := 1, n := 0 } ∧ regRead 1#6 t = 0#32 ∧ t.result = 0 ∧ t.arg = 0 ∧ t.now = 0 ∧
      t.save.hdr = { cksum := 0, day := 0, month := 0, year := 0, count := 0 } ∧
      t.scDate = 0 ∧ t.scValue = 0 ∧ t.scInit = 0 ∧
      (∀ j, j < 255 → t.save.slot j = drawScore (s.draws + 11 * j)) ∧
      t.seq.phase = .idle ∧ t.seq.fp = 0 ∧ t.seq.ri = 0 ∧ t.seq.bi = 0 ∧ t.fs = s.fs ∧ t.inbox = rest) ∧
  (State.reset.ce = { a := 1, b := 0, x := 1, n := 0 } ∧ regRead 1#6 State.reset = 0#32 ∧ State.reset.result = 0 ∧
    State.reset.arg = 0 ∧ State.reset.now = 0 ∧
    State.reset.save.hdr = { cksum := 0, day := 0, month := 0, year := 0, count := 0 } ∧
    State.reset.scDate = 0 ∧ State.reset.scValue = 0 ∧ State.reset.scInit = 0 ∧
    (∀ j, j < 255 → ∃ k, State.reset.save.slot j = drawScore k) ∧
    State.reset.seq.phase = .idle ∧ State.reset.seq.fp = 0 ∧ State.reset.seq.ri = 0 ∧ State.reset.seq.bi = 0)

/-- R13, R48: the environment changes the file store alone, also in the middle of a command, and each of its actions does to
the file what it says. How an action a store cannot carry out is treated is the model's choice (log 13), and so is that the raw
bytes past the length stay when a file is removed, cut or extended (logs 12 and 14), as the `removeFile` and `setLen` clauses
have it. -/
def Obligations.EnvironmentChangesTheStoreAlone : Prop :=
  ∀ (s : State) (act : EnvAction) (rest : List Input), s.inbox = .env act :: rest →
    ∃ f : FileStore, step s = .next { s with inbox := rest, fs := f } ∧
      (∀ bytes, act = .putFile bytes → bytes.length ≤ s.cfg.fsCap → s.fs.data.wf →
        f.present = true ∧ f.bytes = bytes ∧ f.wrOk = s.fs.wrOk) ∧
      (act = .removeFile → f = { s.fs with present := false, len := 0 }) ∧
      (∀ n, act = .setLen n → s.fs.present = true → n ≤ s.cfg.fsCap → f = { s.fs with len := n }) ∧
      (∀ off b, act = .setByte off b → off < s.cfg.fsCap → s.fs.data.wf →
        f.len = s.fs.len ∧ ∀ a, f.byteAt a = if a = off then b else s.fs.byteAt a) ∧
      (∀ ok, act = .setWrOk ok → f = { s.fs with wrOk := ok })

/-- R26: while a command runs a host access is not accepted: it stays at the head of the queue and the sequencer goes on.
That it waits, and is not lost, is the model's choice (log 19). -/
def Obligations.BusyPortHoldsHostAccesses : Prop :=
  ∀ (s : State) (ev : Input) (rest : List Input), s.seq.phase ≠ .idle → s.inbox = ev :: rest →
    (∃ reg v, ev = .hostWrite reg v) ∨ (∃ reg, ev = .hostRead reg) ∨ (∃ w, ev = .startCommand w) →
    step s = seqStep s ∧ ∀ t, step s = .next t → t.inbox = s.inbox ∧ t.rdata = s.rdata ∧ t.arg = s.arg

/-- R48, R60: the file store changes only by the environment, by SV.WRITE, and by the writing phases of an SV.WRITE seen access
by access. -/
def Obligations.OnlySvWriteAndTheEnvironmentChangeTheStore : Prop :=
  ∀ s t : State, step s = .next t → t.fs ≠ s.fs →
    (∃ act rest, s.inbox = .env act :: rest) ∨
    (s.seq.phase = .idle ∧ s.fs.wrOk = true ∧
      ∃ w rest, s.inbox = .hostWrite cmdReg w :: rest ∧ decode w = .command .svWrite) ∨
    s.seq.phase ∈ [Phase.w1, .w2, .w4]

/-- R14: the configuration never changes. -/
def Obligations.ConfigurationNeverChanges : Prop :=
  ∀ s t : State, step s = .next t → t.cfg = s.cfg

/-! ### Invariants -/

/-- R25: the accumulators stay reduced at every step, from any state in which they are, and are so at reset. -/
def Obligations.SumsStayReduced : Prop :=
  (∀ s t : State, s.ce.a.toNat ≤ 65520 → s.ce.b.toNat ≤ 65520 → step s = .next t →
    t.ce.a.toNat ≤ 65520 ∧ t.ce.b.toNat ≤ 65520 ∧ t.ce.n.toNat ≤ 127) ∧
  State.reset.ce.a.toNat = 1 ∧ State.reset.ce.b.toNat = 0 ∧ State.reset.ce.n.toNat = 0

/-- The invariant of the machine is kept by every step: reduced sums (R25), the file store's invariants and the canonical form
of its bytes (R49), sequencer pointers that fit their phase (R50), a legal configuration (R8). The canonical form (log 12) and the sequencer's
latches (log 8) are the model's choice. -/
def Obligations.StepKeepsTheMachineInvariant : Prop :=
  ∀ s t : State, s.Inv → step s = .next t → t.Inv

/-- The reset state meets the machine's invariant. The configuration (log 2) and the file store (log 4) that stand there are
the model's choice. -/
def Obligations.ResetMeetsTheMachineInvariant : Prop := State.reset.Inv

/-- R50: in every state that meets the invariant the sequencer's pointers fit their widths: `fp` 13 bits for FS_CAP = 4096,
`ri` 8 bits, `bi` 4 bits. That they are held as numbers is the model's choice (log 9). -/
def Obligations.SequencerPointersFitTheirWidths : Prop :=
  ∀ s : State, s.Inv → s.seq.ri < 2 ^ 8 ∧ s.seq.bi < 2 ^ 4 ∧ s.seq.fp ≤ s.cfg.fsCap ∧
    (s.cfg.fsCap = 4096 → s.seq.fp < 2 ^ 13)

/-! ### Access by access -/

/-- R11, R50: a command seen access by access, with nothing in between, ends, and ends in the state the one-step command gives.
That the model has both views is its choice (log 6). -/
def Obligations.AccessByAccessRunHasTheWholeEffect : Prop :=
  ∀ (s : State) (w : Word), s.idle → s.cfg.legal →
    ∃ k t, beginCommand w s = .next t ∧ seqRun k t = issueCommand w s

/-- R140: the accesses of each file-store command, in order. -/
def Obligations.AccessesComeInTheListedOrder : Prop :=
  ∀ s : State, s.idle → s.cfg.legal →
    let n := (s.fs.byteAt 7).toNat
    (s.fs.wrOk = true → s.fs.data.wf →
      ∃ k t, beginInstr .svWrite s = .next t ∧ seqRun k t = exec .svWrite s ∧
        seqTrace k t =
          .truncate :: (writesFrom 0 [0, 0, 0, 0] ++ writesFrom 4 ((ser s.cfg s.save).drop 4) ++
            readsFrom 0 (8 + s.cfg.recLen * s.save.hdr.count.toNat) ++
            writesFrom 0 (leBytes (fileSum (ser s.cfg s.save))))) ∧
    (s.fs.present = true → 8 ≤ s.fs.len →
      ∃ k t u, beginInstr .svRead s = .next t ∧ seqRun k t = .next u ∧ exec .svRead s = .next u ∧
        seqTrace k t =
          readsFrom 0 8 ++
            (if u.err = .parseError then []
             else readsFrom 0 s.fs.len ++ if u.err = .tamperError then [] else readsFrom 8 (s.cfg.recLen * n))) ∧
    (s.fs.present = true → ∀ i ∈ [Instr.fsCsum, .fsCsumz, .svVerify],
      ∃ k t, beginInstr i s = .next t ∧ seqRun k t = exec i s ∧ seqTrace k t = readsFrom 0 s.fs.len)

/-- R237: every command terminates, with the access counts of the table. -/
def Obligations.EveryCommandEndsAfterTheListedAccesses : Prop :=
  (∀ (s : State) (i : Instr), s.idle → s.cfg.legal →
    ∃ k t u, beginInstr i s = .next t ∧ seqRun k t = .next u ∧ u.idle ∧
      accessCounts (seqTrace k t) = expectedCounts i s u.err) ∧
  (∀ (s : State) (w : Word) (why : IllegalReason), s.idle → decode w = .illegal why →
    ∃ t, beginCommand w s = .next t ∧ t.idle ∧ t.err = .illegalCommand ∧ ∀ k, seqTrace k t = [])

/-- R145: the states of the file between the phases of SV.WRITE. -/
def Obligations.TransientFilesOfSvWrite : Prop :=
  ∀ s : State, s.idle → s.cfg.legal → s.fs.wrOk = true → s.fs.data.wf →
    let len := 8 + s.cfg.recLen * s.save.hdr.count.toNat
    let c := fileSum (ser s.cfg s.save)
    ∃ t, beginInstr .svWrite s = .next t ∧
      (∃ u, seqRun 5 t = .next u ∧ u.seq.phase = .w2 ∧ u.fs.bytes = [0, 0, 0, 0]) ∧
      (∃ u, seqRun (5 + (len - 4)) t = .next u ∧ u.seq.phase = .w3 ∧ u.fs.bytes = ser s.cfg s.save) ∧
      (∀ j, j < 4 → ∃ u, seqRun (5 + (len - 4) + (len + 1) + j) t = .next u ∧ u.seq.phase = .w4 ∧
        u.fs.bytes = (leBytes c).take j ++ (ser s.cfg s.save).drop j) ∧
      (∃ u, seqRun (5 + (len - 4) + (len + 1) + 4) t = .next u ∧ u.idle ∧ u.fs.bytes = image s.cfg s.save)

/-- R13: an access of a running command is made against the store as it stands, whatever the environment has done to it. A read
below the length brings the store's byte, and a write at or below the length lands (`wr_ok` was sampled at the start, log 16); an
access whose requirement (R17) does not hold brings a free byte, grows nothing and changes no contents of the file (the model's
choice, log 7; it holds for every value of the counter of draws). -/
def Obligations.AccessesRunAgainstTheStoreAsItStands : Prop :=
  (∀ (s : State) (off : Nat), seqAccess s = some (.read off) →
    (s.fs.present = true ∧ off < s.fs.len → seqStep s = .next (seqTake (s.fs.byteAt off) s)) ∧
    (¬(s.fs.present = true ∧ off < s.fs.len) →
      seqStep s = .next (seqTake (Config.freeByte s.draws) { s with draws := s.draws + 1 }))) ∧
  ∀ (s : State) (off : Nat) (b : Byte), s.fs.ok s.cfg.fsCap → seqAccess s = some (.write off b) →
    ∃ (f : FileStore) (d : Nat) (c : Byte), seqStep s = .next (seqTake c { s with fs := f, draws := d }) ∧
      f.present = s.fs.present ∧ f.wrOk = s.fs.wrOk ∧
      (∀ a, a ≠ off → f.byteAt a = s.fs.byteAt a) ∧
      (s.fs.present = true ∧ (off < s.fs.len ∨ (off = s.fs.len ∧ off < s.cfg.fsCap)) →
        d = s.draws ∧ f.byteAt off = b ∧ f.len = (if off = s.fs.len then s.fs.len + 1 else s.fs.len)) ∧
      (¬(s.fs.present = true ∧ (off < s.fs.len ∨ (off = s.fs.len ∧ off < s.cfg.fsCap))) →
        f.len = s.fs.len ∧ f.bytes = s.fs.bytes)

/-- No state hangs or stops (R15, R237), and a running command ends, whatever the environment does to the file store meanwhile:
after so many of its own steps as there are bytes to move, however the environment's actions fall between them. That a run
which breaks the premise of R13 ends is the model's choice (log 7): the spec claims nothing for such a run (U7). The `tick`, by
which a running command makes its next step, is the model's too (log 5). -/
def Obligations.CommandsEndWhateverTheEnvironmentDoes : Prop :=
  (∀ s : State, ∃ t, step s = .next t) ∧
  ∀ (s : State) (events rest : List Input), s.Inv → s.inbox = events ++ rest →
    (∀ ev ∈ events, ev = .tick ∨ ∃ act, ev = .env act) →
    s.cfg.fsCap + s.cfg.fileLen slotCount + 6 ≤ events.count .tick →
    ∃ k t, k ≤ events.length ∧ runSteps k s = .next t ∧ t.idle
end

