-- ==== Sys2Proof/Laws/State.lean ====
section
/-! SUPPORT. One lemma per field per named update of State, all true by rfl, so that no proof unfolds a record update. -/

namespace Sys2Proof.Machine

variable (s : State)

/-! ### setEngine -/

@[simp] theorem setEngine_cfg (e : Engine) : (s.setEngine e).cfg = s.cfg := rfl
@[simp] theorem setEngine_ce (e : Engine) : (s.setEngine e).ce = e := rfl
@[simp] theorem setEngine_err (e : Engine) : (s.setEngine e).err = s.err := rfl
@[simp] theorem setEngine_tamper (e : Engine) : (s.setEngine e).tamper = s.tamper := rfl
@[simp] theorem setEngine_result (e : Engine) : (s.setEngine e).result = s.result := rfl
@[simp] theorem setEngine_arg (e : Engine) : (s.setEngine e).arg = s.arg := rfl
@[simp] theorem setEngine_now (e : Engine) : (s.setEngine e).now = s.now := rfl
@[simp] theorem setEngine_save (e : Engine) : (s.setEngine e).save = s.save := rfl
@[simp] theorem setEngine_scDate (e : Engine) : (s.setEngine e).scDate = s.scDate := rfl
@[simp] theorem setEngine_scValue (e : Engine) : (s.setEngine e).scValue = s.scValue := rfl
@[simp] theorem setEngine_scInit (e : Engine) : (s.setEngine e).scInit = s.scInit := rfl
@[simp] theorem setEngine_fs (e : Engine) : (s.setEngine e).fs = s.fs := rfl
@[simp] theorem setEngine_seq (e : Engine) : (s.setEngine e).seq = s.seq := rfl
@[simp] theorem setEngine_draws (e : Engine) : (s.setEngine e).draws = s.draws := rfl
@[simp] theorem setEngine_rdata (e : Engine) : (s.setEngine e).rdata = s.rdata := rfl
@[simp] theorem setEngine_inbox (e : Engine) : (s.setEngine e).inbox = s.inbox := rfl

/-! ### setResult -/

@[simp] theorem setResult_cfg (v : Word) : (s.setResult v).cfg = s.cfg := rfl
@[simp] theorem setResult_ce (v : Word) : (s.setResult v).ce = s.ce := rfl
@[simp] theorem setResult_err (v : Word) : (s.setResult v).err = s.err := rfl
@[simp] theorem setResult_tamper (v : Word) : (s.setResult v).tamper = s.tamper := rfl
@[simp] theorem setResult_result (v : Word) : (s.setResult v).result = v := rfl
@[simp] theorem setResult_arg (v : Word) : (s.setResult v).arg = s.arg := rfl
@[simp] theorem setResult_now (v : Word) : (s.setResult v).now = s.now := rfl
@[simp] theorem setResult_save (v : Word) : (s.setResult v).save = s.save := rfl
@[simp] theorem setResult_scDate (v : Word) : (s.setResult v).scDate = s.scDate := rfl
@[simp] theorem setResult_scValue (v : Word) : (s.setResult v).scValue = s.scValue := rfl
@[simp] theorem setResult_scInit (v : Word) : (s.setResult v).scInit = s.scInit := rfl
@[simp] theorem setResult_fs (v : Word) : (s.setResult v).fs = s.fs := rfl
@[simp] theorem setResult_seq (v : Word) : (s.setResult v).seq = s.seq := rfl
@[simp] theorem setResult_draws (v : Word) : (s.setResult v).draws = s.draws := rfl
@[simp] theorem setResult_rdata (v : Word) : (s.setResult v).rdata = s.rdata := rfl
@[simp] theorem setResult_inbox (v : Word) : (s.setResult v).inbox = s.inbox := rfl

/-! ### setTamper -/

@[simp] theorem setTamper_cfg (t : Bool) : (s.setTamper t).cfg = s.cfg := rfl
@[simp] theorem setTamper_ce (t : Bool) : (s.setTamper t).ce = s.ce := rfl
@[simp] theorem setTamper_err (t : Bool) : (s.setTamper t).err = s.err := rfl
@[simp] theorem setTamper_tamper (t : Bool) : (s.setTamper t).tamper = t := rfl
@[simp] theorem setTamper_result (t : Bool) : (s.setTamper t).result = s.result := rfl
@[simp] theorem setTamper_arg (t : Bool) : (s.setTamper t).arg = s.arg := rfl
@[simp] theorem setTamper_now (t : Bool) : (s.setTamper t).now = s.now := rfl
@[simp] theorem setTamper_save (t : Bool) : (s.setTamper t).save = s.save := rfl
@[simp] theorem setTamper_scDate (t : Bool) : (s.setTamper t).scDate = s.scDate := rfl
@[simp] theorem setTamper_scValue (t : Bool) : (s.setTamper t).scValue = s.scValue := rfl
@[simp] theorem setTamper_scInit (t : Bool) : (s.setTamper t).scInit = s.scInit := rfl
@[simp] theorem setTamper_fs (t : Bool) : (s.setTamper t).fs = s.fs := rfl
@[simp] theorem setTamper_seq (t : Bool) : (s.setTamper t).seq = s.seq := rfl
@[simp] theorem setTamper_draws (t : Bool) : (s.setTamper t).draws = s.draws := rfl
@[simp] theorem setTamper_rdata (t : Bool) : (s.setTamper t).rdata = s.rdata := rfl
@[simp] theorem setTamper_inbox (t : Bool) : (s.setTamper t).inbox = s.inbox := rfl

/-! ### setSave -/

@[simp] theorem setSave_cfg (sv : Save) : (s.setSave sv).cfg = s.cfg := rfl
@[simp] theorem setSave_ce (sv : Save) : (s.setSave sv).ce = s.ce := rfl
@[simp] theorem setSave_err (sv : Save) : (s.setSave sv).err = s.err := rfl
@[simp] theorem setSave_tamper (sv : Save) : (s.setSave sv).tamper = s.tamper := rfl
@[simp] theorem setSave_result (sv : Save) : (s.setSave sv).result = s.result := rfl
@[simp] theorem setSave_arg (sv : Save) : (s.setSave sv).arg = s.arg := rfl
@[simp] theorem setSave_now (sv : Save) : (s.setSave sv).now = s.now := rfl
@[simp] theorem setSave_save (sv : Save) : (s.setSave sv).save = sv := rfl
@[simp] theorem setSave_scDate (sv : Save) : (s.setSave sv).scDate = s.scDate := rfl
@[simp] theorem setSave_scValue (sv : Save) : (s.setSave sv).scValue = s.scValue := rfl
@[simp] theorem setSave_scInit (sv : Save) : (s.setSave sv).scInit = s.scInit := rfl
@[simp] theorem setSave_fs (sv : Save) : (s.setSave sv).fs = s.fs := rfl
@[simp] theorem setSave_seq (sv : Save) : (s.setSave sv).seq = s.seq := rfl
@[simp] theorem setSave_draws (sv : Save) : (s.setSave sv).draws = s.draws := rfl
@[simp] theorem setSave_rdata (sv : Save) : (s.setSave sv).rdata = s.rdata := rfl
@[simp] theorem setSave_inbox (sv : Save) : (s.setSave sv).inbox = s.inbox := rfl

/-! ### setFs -/

@[simp] theorem setFs_cfg (f : FileStore) : (s.setFs f).cfg = s.cfg := rfl
@[simp] theorem setFs_ce (f : FileStore) : (s.setFs f).ce = s.ce := rfl
@[simp] theorem setFs_err (f : FileStore) : (s.setFs f).err = s.err := rfl
@[simp] theorem setFs_tamper (f : FileStore) : (s.setFs f).tamper = s.tamper := rfl
@[simp] theorem setFs_result (f : FileStore) : (s.setFs f).result = s.result := rfl
@[simp] theorem setFs_arg (f : FileStore) : (s.setFs f).arg = s.arg := rfl
@[simp] theorem setFs_now (f : FileStore) : (s.setFs f).now = s.now := rfl
@[simp] theorem setFs_save (f : FileStore) : (s.setFs f).save = s.save := rfl
@[simp] theorem setFs_scDate (f : FileStore) : (s.setFs f).scDate = s.scDate := rfl
@[simp] theorem setFs_scValue (f : FileStore) : (s.setFs f).scValue = s.scValue := rfl
@[simp] theorem setFs_scInit (f : FileStore) : (s.setFs f).scInit = s.scInit := rfl
@[simp] theorem setFs_fs (f : FileStore) : (s.setFs f).fs = f := rfl
@[simp] theorem setFs_seq (f : FileStore) : (s.setFs f).seq = s.seq := rfl
@[simp] theorem setFs_draws (f : FileStore) : (s.setFs f).draws = s.draws := rfl
@[simp] theorem setFs_rdata (f : FileStore) : (s.setFs f).rdata = s.rdata := rfl
@[simp] theorem setFs_inbox (f : FileStore) : (s.setFs f).inbox = s.inbox := rfl

/-! ### takeDraws -/

@[simp] theorem takeDraws_cfg (k : Nat) : (s.takeDraws k).cfg = s.cfg := rfl
@[simp] theorem takeDraws_ce (k : Nat) : (s.takeDraws k).ce = s.ce := rfl
@[simp] theorem takeDraws_err (k : Nat) : (s.takeDraws k).err = s.err := rfl
@[simp] theorem takeDraws_tamper (k : Nat) : (s.takeDraws k).tamper = s.tamper := rfl
@[simp] theorem takeDraws_result (k : Nat) : (s.takeDraws k).result = s.result := rfl
@[simp] theorem takeDraws_arg (k : Nat) : (s.takeDraws k).arg = s.arg := rfl
@[simp] theorem takeDraws_now (k : Nat) : (s.takeDraws k).now = s.now := rfl
@[simp] theorem takeDraws_save (k : Nat) : (s.takeDraws k).save = s.save := rfl
@[simp] theorem takeDraws_scDate (k : Nat) : (s.takeDraws k).scDate = s.scDate := rfl
@[simp] theorem takeDraws_scValue (k : Nat) : (s.takeDraws k).scValue = s.scValue := rfl
@[simp] theorem takeDraws_scInit (k : Nat) : (s.takeDraws k).scInit = s.scInit := rfl
@[simp] theorem takeDraws_fs (k : Nat) : (s.takeDraws k).fs = s.fs := rfl
@[simp] theorem takeDraws_seq (k : Nat) : (s.takeDraws k).seq = s.seq := rfl
@[simp] theorem takeDraws_draws (k : Nat) : (s.takeDraws k).draws = s.draws + k := rfl
@[simp] theorem takeDraws_rdata (k : Nat) : (s.takeDraws k).rdata = s.rdata := rfl
@[simp] theorem takeDraws_inbox (k : Nat) : (s.takeDraws k).inbox = s.inbox := rfl

/-! ### finish -/

@[simp] theorem finish_cfg (code : ResultCode) : (finish code s).cfg = s.cfg := rfl
@[simp] theorem finish_ce (code : ResultCode) : (finish code s).ce = s.ce := rfl
@[simp] theorem finish_err (code : ResultCode) : (finish code s).err = code := rfl
@[simp] theorem finish_tamper (code : ResultCode) : (finish code s).tamper = s.tamper := rfl
@[simp] theorem finish_result (code : ResultCode) : (finish code s).result = s.result := rfl
@[simp] theorem finish_arg (code : ResultCode) : (finish code s).arg = s.arg := rfl
@[simp] theorem finish_now (code : ResultCode) : (finish code s).now = s.now := rfl
@[simp] theorem finish_save (code : ResultCode) : (finish code s).save = s.save := rfl
@[simp] theorem finish_scDate (code : ResultCode) : (finish code s).scDate = s.scDate := rfl
@[simp] theorem finish_scValue (code : ResultCode) : (finish code s).scValue = s.scValue := rfl
@[simp] theorem finish_scInit (code : ResultCode) : (finish code s).scInit = s.scInit := rfl
@[simp] theorem finish_fs (code : ResultCode) : (finish code s).fs = s.fs := rfl
@[simp] theorem finish_seq (code : ResultCode) : (finish code s).seq = Sequencer.rest := rfl
@[simp] theorem finish_draws (code : ResultCode) : (finish code s).draws = s.draws := rfl
@[simp] theorem finish_rdata (code : ResultCode) : (finish code s).rdata = s.rdata := rfl
@[simp] theorem finish_inbox (code : ResultCode) : (finish code s).inbox = s.inbox := rfl

/-! ### loadStaging -/

@[simp] theorem loadStaging_cfg (sc : Score) : (loadStaging sc s).cfg = s.cfg := rfl
@[simp] theorem loadStaging_ce (sc : Score) : (loadStaging sc s).ce = s.ce := rfl
@[simp] theorem loadStaging_err (sc : Score) : (loadStaging sc s).err = s.err := rfl
@[simp] theorem loadStaging_tamper (sc : Score) : (loadStaging sc s).tamper = s.tamper := rfl
@[simp] theorem loadStaging_result (sc : Score) : (loadStaging sc s).result = s.result := rfl
@[simp] theorem loadStaging_arg (sc : Score) : (loadStaging sc s).arg = s.arg := rfl
@[simp] theorem loadStaging_now (sc : Score) : (loadStaging sc s).now = s.now := rfl
@[simp] theorem loadStaging_save (sc : Score) : (loadStaging sc s).save = s.save := rfl
@[simp] theorem loadStaging_scDate (sc : Score) : (loadStaging sc s).scDate = packDate sc.day sc.month sc.year := rfl
@[simp] theorem loadStaging_scValue (sc : Score) : (loadStaging sc s).scValue = sc.value := rfl
@[simp] theorem loadStaging_scInit (sc : Score) : (loadStaging sc s).scInit = packInitials sc := rfl
@[simp] theorem loadStaging_fs (sc : Score) : (loadStaging sc s).fs = s.fs := rfl
@[simp] theorem loadStaging_seq (sc : Score) : (loadStaging sc s).seq = s.seq := rfl
@[simp] theorem loadStaging_draws (sc : Score) : (loadStaging sc s).draws = s.draws := rfl
@[simp] theorem loadStaging_rdata (sc : Score) : (loadStaging sc s).rdata = s.rdata := rfl
@[simp] theorem loadStaging_inbox (sc : Score) : (loadStaging sc s).inbox = s.inbox := rfl

/-! ### dropEvent -/

@[simp] theorem dropEvent_cfg : (s.dropEvent).cfg = s.cfg := rfl
@[simp] theorem dropEvent_ce : (s.dropEvent).ce = s.ce := rfl
@[simp] theorem dropEvent_err : (s.dropEvent).err = s.err := rfl
@[simp] theorem dropEvent_tamper : (s.dropEvent).tamper = s.tamper := rfl
@[simp] theorem dropEvent_result : (s.dropEvent).result = s.result := rfl
@[simp] theorem dropEvent_arg : (s.dropEvent).arg = s.arg := rfl
@[simp] theorem dropEvent_now : (s.dropEvent).now = s.now := rfl
@[simp] theorem dropEvent_save : (s.dropEvent).save = s.save := rfl
@[simp] theorem dropEvent_scDate : (s.dropEvent).scDate = s.scDate := rfl
@[simp] theorem dropEvent_scValue : (s.dropEvent).scValue = s.scValue := rfl
@[simp] theorem dropEvent_scInit : (s.dropEvent).scInit = s.scInit := rfl
@[simp] theorem dropEvent_fs : (s.dropEvent).fs = s.fs := rfl
@[simp] theorem dropEvent_seq : (s.dropEvent).seq = s.seq := rfl
@[simp] theorem dropEvent_draws : (s.dropEvent).draws = s.draws := rfl
@[simp] theorem dropEvent_rdata : (s.dropEvent).rdata = s.rdata := rfl
@[simp] theorem dropEvent_inbox : (s.dropEvent).inbox = s.inbox.tail := rfl

/-! ### hostRead -/

@[simp] theorem hostRead_cfg (reg : BitVec 6) : (hostRead reg s).cfg = s.cfg := rfl
@[simp] theorem hostRead_ce (reg : BitVec 6) : (hostRead reg s).ce = s.ce := rfl
@[simp] theorem hostRead_err (reg : BitVec 6) : (hostRead reg s).err = s.err := rfl
@[simp] theorem hostRead_tamper (reg : BitVec 6) : (hostRead reg s).tamper = s.tamper := rfl
@[simp] theorem hostRead_result (reg : BitVec 6) : (hostRead reg s).result = s.result := rfl
@[simp] theorem hostRead_arg (reg : BitVec 6) : (hostRead reg s).arg = s.arg := rfl
@[simp] theorem hostRead_now (reg : BitVec 6) : (hostRead reg s).now = s.now := rfl
@[simp] theorem hostRead_save (reg : BitVec 6) : (hostRead reg s).save = s.save := rfl
@[simp] theorem hostRead_scDate (reg : BitVec 6) : (hostRead reg s).scDate = s.scDate := rfl
@[simp] theorem hostRead_scValue (reg : BitVec 6) : (hostRead reg s).scValue = s.scValue := rfl
@[simp] theorem hostRead_scInit (reg : BitVec 6) : (hostRead reg s).scInit = s.scInit := rfl
@[simp] theorem hostRead_fs (reg : BitVec 6) : (hostRead reg s).fs = s.fs := rfl
@[simp] theorem hostRead_seq (reg : BitVec 6) : (hostRead reg s).seq = s.seq := rfl
@[simp] theorem hostRead_draws (reg : BitVec 6) : (hostRead reg s).draws = s.draws := rfl
@[simp] theorem hostRead_rdata (reg : BitVec 6) : (hostRead reg s).rdata = regRead reg s := rfl
@[simp] theorem hostRead_inbox (reg : BitVec 6) : (hostRead reg s).inbox = s.inbox := rfl

/-! ### applyEnv -/

@[simp] theorem applyEnv_cfg (act : EnvAction) : (applyEnv act s).cfg = s.cfg := rfl
@[simp] theorem applyEnv_ce (act : EnvAction) : (applyEnv act s).ce = s.ce := rfl
@[simp] theorem applyEnv_err (act : EnvAction) : (applyEnv act s).err = s.err := rfl
@[simp] theorem applyEnv_tamper (act : EnvAction) : (applyEnv act s).tamper = s.tamper := rfl
@[simp] theorem applyEnv_result (act : EnvAction) : (applyEnv act s).result = s.result := rfl
@[simp] theorem applyEnv_arg (act : EnvAction) : (applyEnv act s).arg = s.arg := rfl
@[simp] theorem applyEnv_now (act : EnvAction) : (applyEnv act s).now = s.now := rfl
@[simp] theorem applyEnv_save (act : EnvAction) : (applyEnv act s).save = s.save := rfl
@[simp] theorem applyEnv_scDate (act : EnvAction) : (applyEnv act s).scDate = s.scDate := rfl
@[simp] theorem applyEnv_scValue (act : EnvAction) : (applyEnv act s).scValue = s.scValue := rfl
@[simp] theorem applyEnv_scInit (act : EnvAction) : (applyEnv act s).scInit = s.scInit := rfl
@[simp] theorem applyEnv_fs (act : EnvAction) : (applyEnv act s).fs = envStore s.cfg.fsCap act s.fs := rfl
@[simp] theorem applyEnv_seq (act : EnvAction) : (applyEnv act s).seq = s.seq := rfl
@[simp] theorem applyEnv_draws (act : EnvAction) : (applyEnv act s).draws = s.draws := rfl
@[simp] theorem applyEnv_rdata (act : EnvAction) : (applyEnv act s).rdata = s.rdata := rfl
@[simp] theorem applyEnv_inbox (act : EnvAction) : (applyEnv act s).inbox = s.inbox := rfl

/-! ### resetBlock -/

@[simp] theorem resetBlock_cfg : (resetBlock s).cfg = s.cfg := rfl
@[simp] theorem resetBlock_ce : (resetBlock s).ce = Engine.init := rfl
@[simp] theorem resetBlock_err : (resetBlock s).err = .success := rfl
@[simp] theorem resetBlock_tamper : (resetBlock s).tamper = false := rfl
@[simp] theorem resetBlock_result : (resetBlock s).result = 0 := rfl
@[simp] theorem resetBlock_arg : (resetBlock s).arg = 0 := rfl
@[simp] theorem resetBlock_now : (resetBlock s).now = 0 := rfl
@[simp] theorem resetBlock_save : (resetBlock s).save = { hdr := Header.zero, slots := drawnSlots s.draws } := rfl
@[simp] theorem resetBlock_scDate : (resetBlock s).scDate = 0 := rfl
@[simp] theorem resetBlock_scValue : (resetBlock s).scValue = 0 := rfl
@[simp] theorem resetBlock_scInit : (resetBlock s).scInit = 0 := rfl
@[simp] theorem resetBlock_fs : (resetBlock s).fs = s.fs := rfl
@[simp] theorem resetBlock_seq : (resetBlock s).seq = Sequencer.rest := rfl
@[simp] theorem resetBlock_draws : (resetBlock s).draws = s.draws + drawsPerSlot * slotCount := rfl
@[simp] theorem resetBlock_rdata : (resetBlock s).rdata = 0 := rfl
@[simp] theorem resetBlock_inbox : (resetBlock s).inbox = s.inbox := rfl

/-! ### startPass -/

@[simp] theorem startPass_cfg (ph : Phase) : (startPass ph s).cfg = s.cfg := rfl
@[simp] theorem startPass_ce (ph : Phase) : (startPass ph s).ce = Engine.init := rfl
@[simp] theorem startPass_err (ph : Phase) : (startPass ph s).err = s.err := rfl
@[simp] theorem startPass_tamper (ph : Phase) : (startPass ph s).tamper = s.tamper := rfl
@[simp] theorem startPass_result (ph : Phase) : (startPass ph s).result = s.result := rfl
@[simp] theorem startPass_arg (ph : Phase) : (startPass ph s).arg = s.arg := rfl
@[simp] theorem startPass_now (ph : Phase) : (startPass ph s).now = s.now := rfl
@[simp] theorem startPass_save (ph : Phase) : (startPass ph s).save = s.save := rfl
@[simp] theorem startPass_scDate (ph : Phase) : (startPass ph s).scDate = s.scDate := rfl
@[simp] theorem startPass_scValue (ph : Phase) : (startPass ph s).scValue = s.scValue := rfl
@[simp] theorem startPass_scInit (ph : Phase) : (startPass ph s).scInit = s.scInit := rfl
@[simp] theorem startPass_fs (ph : Phase) : (startPass ph s).fs = s.fs := rfl
@[simp] theorem startPass_seq (ph : Phase) : (startPass ph s).seq = { s.seq with phase := ph, fp := 0, ri := 0, bi := 0, len := s.fs.len, buf := [] } := rfl
@[simp] theorem startPass_draws (ph : Phase) : (startPass ph s).draws = s.draws := rfl
@[simp] theorem startPass_rdata (ph : Phase) : (startPass ph s).rdata = s.rdata := rfl
@[simp] theorem startPass_inbox (ph : Phase) : (startPass ph s).inbox = s.inbox := rfl

/-! ### The save buffer -/

@[simp] theorem putSlot_hdr (sv : Save) (i : Nat) (sc : Score) : (sv.putSlot i sc).hdr = sv.hdr := rfl

/-! ### Updates of an IDLE block -/

/-- The end of a command leaves an IDLE block's sequencer as it was. -/
theorem finish_of_idle (code : ResultCode) (h : s.idle) : finish code s = { s with err := code } := by
  simp [finish, ← h]

/-- Raising an error answers a next state in which only STATUS.ERR and the sequencer are written. -/
theorem raise_eq (code : ResultCode) : raise code s = .next (finish code s) := rfl

/-- Success answers a next state in which only STATUS.ERR and the sequencer are written beyond what the meaning wrote. -/
theorem succeed_eq : succeed s = .next (finish .success s) := rfl

/-- Every end of a command leaves the sequencer at rest. -/
theorem finish_idle (code : ResultCode) : (finish code s).idle := rfl

end Sys2Proof.Machine
end

