-- ==== Sys2Proof/Laws/Memory.lean ====
section
/-! SUPPORT. The bytes of the file store: read after write, the canonical form, and what a run of byte writes does. -/

namespace Sys2Proof.Machine

/-! ### One byte -/

/-- An offset below every listed one reads as an unlisted offset does. -/
theorem readByte_of_forall_lt (m : Memory) (a : Nat) (h : ∀ c ∈ m, a < c.1) : m.readByte a = unlistedByte := by
  induction m with
  | nil => rfl
  | cons c rest ih =>
    have hc := h c (by simp)
    simp only [Memory.readByte]
    rw [if_neg (by omega)]
    exact ih fun d hd => h d (by simp [hd])

/-- Read after write, at any offset, in a canonical memory. -/
theorem readByte_writeByte (m : Memory) (hm : m.Pairwise (fun c d => c.1 < d.1)) (a a' : Nat) (b : Byte) :
    (m.writeByte a b).readByte a' = if a' = a then b else m.readByte a' := by
  induction m with
  | nil =>
    by_cases hb : b = unlistedByte <;> simp [Memory.writeByte, Memory.readByte, hb, eq_comm]
  | cons c rest ih =>
    obtain ⟨k, v⟩ := c
    rw [List.pairwise_cons] at hm
    obtain ⟨hlt, hrest⟩ := hm
    simp only at hlt
    have below : ∀ x, x < k ∨ x = k → Memory.readByte rest x = unlistedByte := fun x hx =>
      readByte_of_forall_lt rest x fun d hd => by have := hlt d hd; omega
    simp only [Memory.writeByte]
    by_cases h1 : a < k
    · rw [if_pos h1]
      by_cases hb : b = unlistedByte
      · rw [if_pos hb]
        by_cases ha : a' = a
        · subst ha
          simp [Memory.readByte, below a' (.inl h1), hb, show k ≠ a' by omega]
        · simp [ha]
      · rw [if_neg hb]
        by_cases ha : a' = a
        · simp [Memory.readByte, ha]
        · simp [Memory.readByte, ha, show a ≠ a' by omega]
    · rw [if_neg h1]
      by_cases h2 : a = k
      · rw [if_pos h2]
        by_cases hb : b = unlistedByte
        · rw [if_pos hb]
          by_cases ha : a' = a
          · subst ha
            simp [below a' (.inr h2), hb]
          · simp [Memory.readByte, ha, show k ≠ a' by omega]
        · rw [if_neg hb]
          by_cases ha : a' = a
          · simp [Memory.readByte, ha]
          · simp [Memory.readByte, ha, show a ≠ a' by omega, show k ≠ a' by omega]
      · rw [if_neg h2]
        simp only [Memory.readByte, ih hrest]
        by_cases h3 : k = a'
        · simp [h3, show a' ≠ a by omega]
        · simp [h3]

/-- Every cell after a write was there before or is the written one. -/
theorem mem_writeByte (m : Memory) (a : Nat) (b : Byte) (c : Host.Cell) (h : c ∈ m.writeByte a b) :
    c ∈ m ∨ (c = (a, b) ∧ b ≠ unlistedByte) := by
  induction m with
  | nil =>
    simp only [Memory.writeByte] at h
    split at h <;> simp_all
  | cons d rest ih =>
    obtain ⟨k, v⟩ := d
    simp only [Memory.writeByte] at h
    split_ifs at h <;> simp only [List.mem_cons] at h ⊢
    all_goals (try tauto)

/-- A write keeps the canonical form. -/
theorem writeByte_wf (m : Memory) (hm : m.wf) (a : Nat) (b : Byte) : (m.writeByte a b).wf := by
  obtain ⟨hp, hn⟩ := hm
  constructor
  · clear hn
    induction m with
    | nil =>
      simp only [Memory.writeByte]
      split <;> simp
    | cons c rest ih =>
      obtain ⟨k, v⟩ := c
      have hp' := hp
      rw [List.pairwise_cons] at hp
      obtain ⟨hlt, hrest⟩ := hp
      simp only at hlt
      simp only [Memory.writeByte]
      split_ifs with h1 hb h2 hb
      · exact hp'
      · refine List.pairwise_cons.2 ⟨?_, hp'⟩
        intro d hd
        rcases List.mem_cons.1 hd with rfl | hd
        · exact h1
        · have := hlt d hd
          simp only
          omega
      · exact hrest
      · subst h2
        exact List.pairwise_cons.2 ⟨hlt, hrest⟩
      · refine List.pairwise_cons.2 ⟨?_, ih hrest⟩
        intro d hd
        rcases mem_writeByte rest a b d hd with hd | ⟨rfl, -⟩
        · exact hlt d hd
        · simp only
          omega
  · intro c hc
    rcases mem_writeByte m a b c hc with hc | ⟨rfl, hb⟩
    · exact hn c hc
    · exact hb

/-- A write below a bound keeps every listed offset below it. -/
theorem writeByte_lt (m : Memory) (n : Nat) (h : ∀ c ∈ m, c.1 < n) (a : Nat) (ha : a < n) (b : Byte) :
    ∀ c ∈ m.writeByte a b, c.1 < n := by
  intro c hc
  rcases mem_writeByte m a b c hc with hc | ⟨rfl, -⟩
  · exact h c hc
  · exact ha

end Sys2Proof.Machine
end

