-- ==== Sys2Proof/Laws/FileStore.lean ====
section
/-! SUPPORT. The file store: what a run of byte writes does, once; what a run of byte reads gives; that every access keeps
the store's invariants. -/

namespace Sys2Proof.Machine

/-! ### Named updates, field by field -/

@[simp] theorem createTrunc_present (fs : FileStore) : fs.createTrunc.present = true := rfl
@[simp] theorem createTrunc_wrOk (fs : FileStore) : fs.createTrunc.wrOk = fs.wrOk := rfl
@[simp] theorem createTrunc_len (fs : FileStore) : fs.createTrunc.len = 0 := rfl
@[simp] theorem createTrunc_data (fs : FileStore) : fs.createTrunc.data = fs.data := rfl
@[simp] theorem createTrunc_byteAt (fs : FileStore) (a : Nat) : fs.createTrunc.byteAt a = fs.byteAt a := rfl
@[simp] theorem writeByte_present (fs : FileStore) (o : Nat) (b : Byte) : (fs.writeByte o b).present = fs.present := rfl
@[simp] theorem writeByte_wrOk (fs : FileStore) (o : Nat) (b : Byte) : (fs.writeByte o b).wrOk = fs.wrOk := rfl
@[simp] theorem writeByte_data (fs : FileStore) (o : Nat) (b : Byte) :
    (fs.writeByte o b).data = fs.data.writeByte o b := rfl
@[simp] theorem writeByte_len (fs : FileStore) (o : Nat) (b : Byte) :
    (fs.writeByte o b).len = if o = fs.len then fs.len + 1 else fs.len := rfl

/-- Read after write at the store's level. -/
theorem byteAt_writeByte (fs : FileStore) (h : fs.data.wf) (o a : Nat) (b : Byte) :
    (fs.writeByte o b).byteAt a = if a = o then b else fs.byteAt a :=
  readByte_writeByte fs.data h.1 o a b

/-! ### Runs of byte writes -/

@[simp] theorem writeBytes_present (fs : FileStore) (o : Nat) (bs : List Byte) :
    (fs.writeBytes o bs).present = fs.present := by
  induction bs generalizing fs o with
  | nil => rfl
  | cons b rest ih => simp [FileStore.writeBytes, ih]

@[simp] theorem writeBytes_wrOk (fs : FileStore) (o : Nat) (bs : List Byte) :
    (fs.writeBytes o bs).wrOk = fs.wrOk := by
  induction bs generalizing fs o with
  | nil => rfl
  | cons b rest ih => simp [FileStore.writeBytes, ih]

/-- A run of writes keeps the canonical form. -/
theorem writeBytes_wf (fs : FileStore) (h : fs.data.wf) (o : Nat) (bs : List Byte) : (fs.writeBytes o bs).data.wf := by
  induction bs generalizing fs o with
  | nil => exact h
  | cons b rest ih => exact ih (fs.writeByte o b) (writeByte_wf fs.data h o b) (o + 1)

/-- A run of writes below a bound keeps every listed offset below it. -/
theorem writeBytes_lt (fs : FileStore) (n : Nat) (h : ∀ c ∈ fs.data, c.1 < n) (o : Nat) (bs : List Byte)
    (hn : o + bs.length ≤ n) : ∀ c ∈ (fs.writeBytes o bs).data, c.1 < n := by
  induction bs generalizing fs o with
  | nil => exact h
  | cons b rest ih =>
    simp only [List.length_cons] at hn
    exact ih (fs.writeByte o b) (writeByte_lt fs.data n h o (by omega) b) (o + 1) (by omega)

/-- The byte at any offset after a run of writes: a written one inside the run, the old one outside. -/
theorem byteAt_writeBytes (fs : FileStore) (h : fs.data.wf) (o : Nat) (bs : List Byte) (a : Nat) :
    (fs.writeBytes o bs).byteAt a = if o ≤ a ∧ a < o + bs.length then bs.getD (a - o) 0 else fs.byteAt a := by
  induction bs generalizing fs o with
  | nil => simp [FileStore.writeBytes, show ¬ (o ≤ a ∧ a < o) by omega]
  | cons b rest ih =>
    rw [FileStore.writeBytes, ih _ (writeByte_wf fs.data h o b), byteAt_writeByte fs h]
    simp only [List.length_cons]
    by_cases h1 : a = o
    · subst h1
      simp
    · by_cases h2 : o + 1 ≤ a ∧ a < o + 1 + rest.length
      · rw [if_pos h2, if_pos (by omega), show a - o = a - (o + 1) + 1 by omega, List.getD_cons_succ]
      · rw [if_neg h2, if_neg h1, if_neg (by omega)]

/-- The length after a run of writes that begins inside the file or at its end. -/
theorem writeBytes_len (fs : FileStore) (o : Nat) (bs : List Byte) (h : o ≤ fs.len) :
    (fs.writeBytes o bs).len = max fs.len (o + bs.length) := by
  induction bs generalizing fs o with
  | nil => simp [FileStore.writeBytes, h]
  | cons b rest ih =>
    rw [FileStore.writeBytes, ih _ _ (by rw [writeByte_len]; split <;> omega), writeByte_len, List.length_cons]
    split <;> omega

/-- Two runs, one after the other, are one run. -/
theorem writeBytes_append (fs : FileStore) (o : Nat) (bs cs : List Byte) :
    fs.writeBytes o (bs ++ cs) = (fs.writeBytes o bs).writeBytes (o + bs.length) cs := by
  induction bs generalizing fs o with
  | nil => rfl
  | cons b rest ih =>
    simp only [List.cons_append, FileStore.writeBytes, ih, List.length_cons]
    rw [show o + 1 + rest.length = o + (rest.length + 1) by omega]

/-! ### Runs of byte reads -/

@[simp] theorem readBytes_length (fs : FileStore) (o n : Nat) : (fs.readBytes o n).length = n := by
  induction n generalizing o with
  | zero => rfl
  | succ n ih => simp [FileStore.readBytes, ih]

/-- The i-th byte of a run of reads. -/
theorem readBytes_getElem? (fs : FileStore) (o n i : Nat) :
    (fs.readBytes o n)[i]? = if i < n then some (fs.byteAt (o + i)) else none := by
  induction n generalizing o i with
  | zero => simp [FileStore.readBytes]
  | succ n ih =>
    cases i with
    | zero => simp [FileStore.readBytes]
    | succ i => simp [FileStore.readBytes, ih, show o + 1 + i = o + (i + 1) by omega]

/-- A run of reads as a list of offsets read. -/
theorem readBytes_eq_map (fs : FileStore) (o n : Nat) :
    fs.readBytes o n = (List.range n).map fun i => fs.byteAt (o + i) := by
  refine List.ext_getElem? fun i => ?_
  rw [readBytes_getElem?]
  by_cases h : i < n <;> simp [h]

/-- Part of the file's contents is the run of reads that starts there. -/
theorem readBytes_drop_take (fs : FileStore) (o n d k : Nat) (h : d + k ≤ n) :
    ((fs.readBytes o n).drop d).take k = fs.readBytes (o + d) k := by
  refine List.ext_getElem? fun i => ?_
  rw [List.getElem?_take, List.getElem?_drop, readBytes_getElem?, readBytes_getElem?]
  by_cases h1 : i < k
  · simp [h1, show d + i < n by omega, Nat.add_assoc]
  · simp [h1]

@[simp] theorem bytes_length (fs : FileStore) : fs.bytes.length = fs.len := readBytes_length fs 0 fs.len

/-- The i-th byte of the file. -/
theorem bytes_getD (fs : FileStore) (i : Nat) (h : i < fs.len) : fs.bytes.getD i 0 = fs.byteAt i := by
  rw [FileStore.bytes, List.getD_eq_getElem?_getD, readBytes_getElem?, if_pos h, Option.getD_some, Nat.zero_add]

/-- Reading back a run of writes gives what was written. -/
theorem readBytes_writeBytes (fs : FileStore) (h : fs.data.wf) (o : Nat) (bs : List Byte) :
    (fs.writeBytes o bs).readBytes o bs.length = bs := by
  refine List.ext_getElem? fun i => ?_
  rw [readBytes_getElem?, byteAt_writeBytes fs h]
  by_cases h1 : i < bs.length
  · simp [h1]
  · simp [h1]

/-! ### Accesses -/

/-- Every access a store permits keeps the store's invariants. -/
theorem perform_ok (fs : FileStore) (cap : Nat) (acc : FsAccess) (h : fs.ok cap) (hp : fs.permits cap acc = true) :
    (fs.perform acc).ok cap := by
  obtain ⟨hl, ha, hw, hc⟩ := h
  cases acc with
  | truncate => exact ⟨Nat.zero_le _, fun h => (nomatch h), hw, hc⟩
  | read off => exact ⟨hl, ha, hw, hc⟩
  | write off b =>
    simp only [FileStore.permits, Bool.and_eq_true, Bool.or_eq_true, decide_eq_true_eq, beq_iff_eq] at hp
    obtain ⟨hpres, hoff⟩ := hp
    refine ⟨?_, ?_, writeByte_wf fs.data hw off b, writeByte_lt fs.data cap hc off ?_ b⟩
    · simp only [FileStore.perform, writeByte_len]
      split <;> omega
    · intro h
      simp [FileStore.perform, hpres] at h
    · omega

/-- An access the environment has put astray keeps the store's invariants. -/
theorem performAstray_ok (fs : FileStore) (cap : Nat) (free : Byte) (acc : FsAccess) (h : fs.ok cap) :
    (fs.performAstray cap free acc).ok cap := by
  obtain ⟨hl, ha, hw, hc⟩ := h
  cases acc with
  | truncate => exact ⟨Nat.zero_le _, fun h => (nomatch h), hw, hc⟩
  | read off => exact ⟨hl, ha, hw, hc⟩
  | write off b =>
    simp only [FileStore.performAstray]
    split
    · exact ⟨hl, ha, writeByte_wf fs.data hw off free, writeByte_lt fs.data cap hc off (by omega) free⟩
    · exact ⟨hl, ha, hw, hc⟩

/-- A write put astray touches the byte at its own offset alone: length, flags and every other byte stay. -/
theorem performAstray_write (fs : FileStore) (cap : Nat) (free : Byte) (off : Nat) (b : Byte) (h : fs.data.wf) :
    (fs.performAstray cap free (.write off b)).present = fs.present ∧
      (fs.performAstray cap free (.write off b)).wrOk = fs.wrOk ∧
      (fs.performAstray cap free (.write off b)).len = fs.len ∧
      ∀ a, a ≠ off → (fs.performAstray cap free (.write off b)).byteAt a = fs.byteAt a := by
  simp only [FileStore.performAstray]
  split
  · refine ⟨rfl, rfl, rfl, fun a ha => ?_⟩
    exact (readByte_writeByte fs.data h.1 off a free).trans (if_neg ha)
  · exact ⟨rfl, rfl, rfl, fun _ _ => rfl⟩

/-- Whatever the environment does keeps the store's invariants (`spec/10_state.md` R49). -/
theorem envStore_ok (cap : Nat) (act : EnvAction) (fs : FileStore) (h : fs.ok cap) : (envStore cap act fs).ok cap := by
  obtain ⟨hl, ha, hw, hc⟩ := h
  cases act with
  | putFile bytes =>
    simp only [envStore]
    split
    · refine ⟨?_, ?_, writeBytes_wf fs.createTrunc hw 0 bytes, writeBytes_lt fs.createTrunc cap hc 0 bytes (by omega)⟩
      · rw [writeBytes_len _ _ _ (Nat.zero_le _)]
        simp
        omega
      · simp
    · exact ⟨hl, ha, hw, hc⟩
  | removeFile => exact ⟨Nat.zero_le _, fun _ => rfl, hw, hc⟩
  | setLen n =>
    simp only [envStore]
    split
    · rename_i hn
      simp only [Bool.and_eq_true, decide_eq_true_eq] at hn
      exact ⟨hn.2, fun h => by simp [hn.1] at h, hw, hc⟩
    · exact ⟨hl, ha, hw, hc⟩
  | setByte off b =>
    simp only [envStore]
    split
    · exact ⟨hl, ha, writeByte_wf fs.data hw off b, writeByte_lt fs.data cap hc off (by omega) b⟩
    · exact ⟨hl, ha, hw, hc⟩
  | setWrOk ok => exact ⟨hl, ha, hw, hc⟩

end Sys2Proof.Machine
end

