-- ==== Sys2Proof/Laws/Engine.lean ====
section
/-! SUPPORT. The Checksum Engine: what each of its operations writes, and that the accumulators stay reduced. -/

namespace Sys2Proof.Machine

@[simp] theorem addByte_x (e : Engine) (d : Byte) : (e.addByte d).x = e.x := rfl
@[simp] theorem addByte_n (e : Engine) (d : Byte) : (e.addByte d).n = e.n := rfl
@[simp] theorem fold_a (e : Engine) : e.fold.a = 1 := rfl
@[simp] theorem fold_b (e : Engine) : e.fold.b = 0 := rfl
@[simp] theorem fold_n (e : Engine) : e.fold.n = 0 := rfl
@[simp] theorem fold_x (e : Engine) : e.fold.x = e.x ^^^ packSums e.a e.b := rfl

/-- The new `A` as a number (`spec/00_scope.md` R18). -/
theorem adlStep_fst_toNat (a b : BitVec 16) (d : Byte) :
    (adlStep a b d).1.toNat = (a.toNat + d.toNat) % adlerModulus := by
  have := Nat.mod_lt (a.toNat + d.toNat) (show adlerModulus > 0 by decide)
  simp only [adlStep, BitVec.toNat_ofNat]
  exact Nat.mod_eq_of_lt (Nat.lt_trans this (by decide))

/-- The new `B` as a number: the new `A`, not the old one, is added. -/
theorem adlStep_snd_toNat (a b : BitVec 16) (d : Byte) :
    (adlStep a b d).2.toNat = (b.toNat + (adlStep a b d).1.toNat) % adlerModulus := by
  rw [adlStep_fst_toNat]
  have := Nat.mod_lt (b.toNat + (a.toNat + d.toNat) % adlerModulus) (show adlerModulus > 0 by decide)
  simp only [adlStep, BitVec.toNat_ofNat]
  exact Nat.mod_eq_of_lt (Nat.lt_trans this (by decide))

/-- Both sums are reduced after a byte, whatever they were before. -/
theorem addByte_inRange (e : Engine) (d : Byte) : (e.addByte d).inRange := by
  have h1 := Nat.mod_lt (e.a.toNat + d.toNat) (show adlerModulus > 0 by decide)
  have h2 := Nat.mod_lt (e.b.toNat + (adlStep e.a e.b d).1.toNat) (show adlerModulus > 0 by decide)
  rw [← adlStep_fst_toNat e.a e.b] at h1
  rw [← adlStep_snd_toNat] at h2
  exact ⟨Nat.le_of_lt_succ h1, Nat.le_of_lt_succ h2⟩

theorem fold_inRange (e : Engine) : e.fold.inRange := ⟨by simp, by simp⟩

theorem init_inRange : Engine.init.inRange := by decide

/-- CK.PUSH answers one of two engines: the folded one on the 128th byte, else the sums with the byte and one more byte
counted. -/
theorem push_cases (e : Engine) (d : Byte) :
    (e.n = 127#7 ∧ e.push d = (e.addByte d).fold) ∨ (e.n ≠ 127#7 ∧ e.push d = { e.addByte d with n := e.n + 1 }) := by
  by_cases h : e.n = 127#7
  · exact .inl ⟨h, if_pos h⟩
  · exact .inr ⟨h, if_neg h⟩

theorem push_inRange (e : Engine) (d : Byte) : (e.push d).inRange := by
  rcases push_cases e d with ⟨-, h⟩ | ⟨-, h⟩ <;> rw [h]
  · exact fold_inRange _
  · exact addByte_inRange e d

theorem close_inRange (e : Engine) (h : e.inRange) : e.close.inRange := by
  unfold Engine.close
  split
  · exact fold_inRange e
  · exact h

/-- A run of pushes ends in range if it begins in range. -/
theorem foldl_push_inRange {α : Type} (f : α → Byte) (l : List α) (e : Engine) (h : e.inRange) :
    (l.foldl (fun e x => e.push (f x)) e).inRange := by
  induction l generalizing e with
  | nil => exact h
  | cons x rest ih => exact ih _ (push_inRange e (f x))

theorem fileChecksum_inRange (z : Bool) (fs : FileStore) : (fileChecksum z fs).inRange :=
  close_inRange _ (foldl_push_inRange _ _ _ init_inRange)

/-- The bytes a pass takes from a file: with `z` its first four count as zero. -/
theorem map_passByte_true (fs : FileStore) :
    (List.range fs.len).map (fun off => passByte true off (fs.byteAt off)) = zeroHead fs.bytes := by
  refine List.ext_getElem? fun i => ?_
  simp only [zeroHead, bytes_length, cksumLen, List.getElem?_append, List.length_replicate, List.getElem?_replicate,
    List.getElem?_drop, List.getElem?_map, passByte]
  simp only [FileStore.bytes, readBytes_getElem?]
  by_cases h : i < fs.len
  · by_cases h4 : i < 4
    · simp [h, h4, show i ≤ 3 by omega]
    · simp only [List.getElem?_range h, Option.map_some, Bool.true_and, decide_eq_true_eq, show ¬ i ≤ 3 by omega, if_false]
      rw [if_neg (by omega), if_pos (by omega)]
      congr 2
      omega
  · have : (List.range fs.len)[i]? = none := by simpa using h
    rw [this, if_neg (by omega), if_neg (by omega)]
    rfl

/-- Without `z` a pass takes the bytes of the file. -/
theorem map_passByte_false (fs : FileStore) :
    (List.range fs.len).map (fun off => passByte false off (fs.byteAt off)) = fs.bytes := by
  rw [FileStore.bytes, readBytes_eq_map]
  simp [passByte]

/-- FileChecksum as a run of pushes over the bytes a pass takes. -/
theorem fileChecksum_eq_foldl (z : Bool) (fs : FileStore) :
    fileChecksum z fs =
      (((List.range fs.len).map (fun off => passByte z off (fs.byteAt off))).foldl Engine.push Engine.init).close := by
  rw [List.foldl_map]
  rfl

end Sys2Proof.Machine
end

