-- ==== Sys2Proof/Laws/Slots.lean ====
section
/-! SUPPORT. The slots of the save buffer: read after write, and slots that become unspecified. -/

namespace Sys2Proof.Machine

/-- Read after write of a slot. -/
theorem slot_putSlot (sv : Save) (i j : Nat) (sc : Score) (hi : i < slotCount) :
    (sv.putSlot i sc).slot j = if j = i then sc else sv.slot j := by
  have hlen : sv.slots.toList.length = slotCount := sv.slots.size_toArray
  simp only [Save.slot, Save.putSlot, List.getD_eq_getElem?_getD]
  show ((sv.slots.toList.set i sc)[j]?).getD Score.blank = _
  rw [List.getElem?_set]
  by_cases h : i = j
  · subst h
    simp [hlen, hi]
  · simp [h, Ne.symm h]

/-- What slot `j` holds after the first `n` of a list of slots have become unspecified. -/
theorem redraw_getD (n k : Nat) (l : List Score) (j : Nat) :
    (redraw n k l).getD j Score.blank =
      if j < n ∧ j < l.length then drawScore (k + drawsPerSlot * j) else l.getD j Score.blank := by
  induction n generalizing k l j with
  | zero => simp [redraw]
  | succ n ih =>
    cases l with
    | nil => simp [redraw]
    | cons sc rest =>
      cases j with
      | zero => simp [redraw]
      | succ j =>
        simp only [redraw, List.getD_cons_succ, ih, List.length_cons, Nat.add_lt_add_iff_right]
        congr 2
        rw [Nat.mul_add]
        omega

/-- The slots after SV.NEW n or SV.INIT n (`spec/10_state.md` R47). -/
theorem slot_redrawSlots (n k : Nat) (sv : Save) (h : Header) (j : Nat) (hn : n ≤ slotCount) :
    (Save.mk h (redrawSlots n k sv.slots)).slot j = if j < n then drawScore (k + drawsPerSlot * j) else sv.slot j := by
  have hlen : sv.slots.toList.length = slotCount := sv.slots.size_toArray
  show (redraw n k sv.slots.toList).getD j Score.blank = _
  rw [redraw_getD, hlen]
  by_cases hj : j < n
  · rw [if_pos ⟨hj, by omega⟩, if_pos hj]
  · rw [if_neg (by omega), if_neg hj]
    rfl

/-- Every slot after reset is a draw (`spec/10_state.md` R51). -/
theorem slot_drawnSlots (k : Nat) (h : Header) (j : Nat) (hj : j < slotCount) :
    (Save.mk h (drawnSlots k)).slot j = drawScore (k + drawsPerSlot * j) := by
  show (redraw 255 k (List.replicate 255 Score.blank)).getD j Score.blank = _
  rw [redraw_getD, List.length_replicate, if_pos]
  exact ⟨hj, hj⟩

end Sys2Proof.Machine
end

