-- ==== Sys2Proof/Laws/Layout.lean ====
section
/-! SUPPORT. The file layout: lengths, and that fields come back from the bytes they were split into. -/

namespace Sys2Proof.Machine

@[simp] theorem leBytes_length (v : Word) : (leBytes v).length = 4 := rfl
@[simp] theorem dateCountBytes_length (h : Header) : (dateCountBytes h).length = 4 := rfl

@[simp] theorem initialsBytes_length (w : InitialsWidth) (sc : Score) : (initialsBytes w sc).length = w.bytes := by
  cases w <;> rfl

@[simp] theorem scoreBytes_length (c : Config) (sc : Score) : (scoreBytes c sc).length = c.recLen := by
  simp [scoreBytes, Config.recLen]
  omega

/-- `k` records take `k * REC_LEN` bytes. -/
theorem flatMap_scoreBytes_length (c : Config) (f : Nat → Score) (k : Nat) :
    ((List.range k).flatMap fun i => scoreBytes c (f i)).length = c.recLen * k := by
  induction k with
  | zero => rfl
  | succ k ih => simp [List.range_succ, ih, Nat.mul_succ]

@[simp] theorem ser_length (c : Config) (sv : Save) : (ser c sv).length = c.fileLen sv.hdr.count.toNat := by
  simp only [ser, recordsBytes, List.length_append, flatMap_scoreBytes_length, dateCountBytes_length, Config.fileLen,
    headerLen]
  rfl

/-- Four bytes in file order give the field back. -/
theorem le32_leBytes (v : Word) :
    le32 (v.extractLsb' 0 8) (v.extractLsb' 8 8) (v.extractLsb' 16 8) (v.extractLsb' 24 8) = v := by
  refine BitVec.eq_of_getLsbD_eq fun i hi => ?_
  simp only [le32, BitVec.getLsbD_append, BitVec.getLsbD_extractLsb']
  by_cases h1 : i < 8
  · simp [h1]
  · by_cases h2 : i < 16
    · simp [h1, show i - 8 < 8 by omega, show 8 + (i - 8) = i by omega]
    · by_cases h3 : i < 24
      · simp [h1, show ¬ i - 8 < 8 by omega, show i - 8 - 8 < 8 by omega, show 16 + (i - 8 - 8) = i by omega]
      · simp [h1, show ¬ i - 8 < 8 by omega, show ¬ i - 8 - 8 < 8 by omega, show i - 8 - 8 - 8 < 8 by omega,
          show 24 + (i - 8 - 8 - 8) = i by omega]

/-- A record's bytes give its Score back, with the fourth initials byte zero where it is not on file. -/
theorem scoreOfBytes_scoreBytes (c : Config) (sc : Score) : scoreOfBytes c (scoreBytes c sc) = sc.asReadBack c := by
  obtain ⟨w, cap⟩ := c
  cases w <;>
    simp [scoreOfBytes, scoreBytes, initialsBytes, leBytes, Score.asReadBack, le32_leBytes]

/-- Steps 1 and 2 of SV.WRITE are one run of writes of Ser(SV) from offset 0. -/
theorem writeBody_eq (c : Config) (sv : Save) (fs : FileStore) :
    writeBody c sv fs = fs.createTrunc.writeBytes 0 (ser c sv) := by
  have key : ∀ k, (List.range k).foldl (fun f i => f.writeBytes (recordBase c i) (scoreBytes c (sv.slot i)))
      ((fs.createTrunc.writeBytes 0 [0x00, 0x00, 0x00, 0x00]).writeBytes 4 (dateCountBytes sv.hdr)) =
      fs.createTrunc.writeBytes 0 ([0x00, 0x00, 0x00, 0x00] ++ dateCountBytes sv.hdr ++
        (List.range k).flatMap fun i => scoreBytes c (sv.slot i)) := by
    intro k
    induction k with
    | zero => rw [List.append_assoc, writeBytes_append]; rfl
    | succ k ih =>
      simp only [List.range_succ, List.foldl_append, List.foldl_cons, List.foldl_nil, ih, List.flatMap_append,
        List.flatMap_cons, List.flatMap_nil, List.append_nil]
      rw [← List.append_assoc, writeBytes_append _ _ ([0x00, 0x00, 0x00, 0x00] ++ dateCountBytes sv.hdr ++ _)]
      congr 1
      simp only [List.length_append, flatMap_scoreBytes_length, dateCountBytes_length, recordBase, headerLen,
        List.length_cons, List.length_nil]
      omega
  exact key _

end Sys2Proof.Machine
end

