-- ==== Sys2Proof/Laws/Chunks.lean ====
section
/-! SUPPORT. Runs of pushes and the pieces of FileSum: the engine folds exactly at the piece boundaries
(`spec/40_checksum.md` R115, R117; `spec/00_scope.md` R18). -/

namespace Sys2Proof.Machine

/-- The pair of sums after a byte sequence, from any pair. -/
def sumsFrom (ab : BitVec 16 × BitVec 16) (bytes : List Byte) : BitVec 16 × BitVec 16 :=
  bytes.foldl (fun ab d => adlStep ab.1 ab.2 d) ab

theorem adl32_eq (bytes : List Byte) :
    adl32 bytes = packSums (sumsFrom (1#16, 0#16) bytes).1 (sumsFrom (1#16, 0#16) bytes).2 := rfl

/-- A run of pushes that does not fill the chunk counts its bytes and takes them into the sums. -/
theorem foldl_push_of_lt (bytes : List Byte) (e : Engine) (h : e.n.toNat + bytes.length ≤ 127) :
    bytes.foldl Engine.push e =
      { a := (sumsFrom (e.a, e.b) bytes).1, b := (sumsFrom (e.a, e.b) bytes).2, x := e.x,
        n := BitVec.ofNat 7 (e.n.toNat + bytes.length) } := by
  induction bytes generalizing e with
  | nil => simp [sumsFrom]
  | cons d rest ih =>
    simp only [List.length_cons] at h
    have hn : e.n ≠ 127#7 := fun hn => by
      rw [hn, BitVec.toNat_ofNat] at h
      omega
    have hn1 : (e.n + 1).toNat = e.n.toNat + 1 := by
      rw [BitVec.toNat_add]
      simp
      omega
    rw [List.foldl_cons, Engine.push, if_neg hn, ih _ (by simp only [hn1]; omega)]
    simp only [hn1, List.length_cons, sumsFrom, List.foldl_cons, Engine.addByte]
    congr 2
    omega

/-- A run of pushes that fills the chunk exactly folds it. -/
theorem foldl_push_of_full (bytes : List Byte) (e : Engine) (h : e.n.toNat + bytes.length = 128) :
    bytes.foldl Engine.push e =
      { a := 1, b := 0,
        x := e.x ^^^ packSums (sumsFrom (e.a, e.b) bytes).1 (sumsFrom (e.a, e.b) bytes).2, n := 0 } := by
  have hne : bytes ≠ [] := fun hb => by
    have := e.n.isLt
    simp [hb] at h
    omega
  rw [← List.dropLast_append_getLast hne]
  have hl : bytes.dropLast.length = bytes.length - 1 := List.length_dropLast
  have hpos := List.length_pos_of_ne_nil hne
  rw [List.foldl_append, foldl_push_of_lt bytes.dropLast e (by omega)]
  simp only [List.foldl_cons, List.foldl_nil]
  have hn : BitVec.ofNat 7 (e.n.toNat + bytes.dropLast.length) = 127#7 := by
    rw [show e.n.toNat + bytes.dropLast.length = 127 by omega]
  rw [Engine.push, if_pos hn]
  simp [Engine.fold, Engine.addByte, sumsFrom, List.foldl_append]

/-- More pieces than the bytes can make change nothing. -/
theorem piecesUpTo_eq (n m : Nat) (bytes : List Byte) (hn : bytes.length ≤ n) (hm : bytes.length ≤ m) :
    piecesUpTo n bytes = piecesUpTo m bytes := by
  induction n generalizing m bytes with
  | zero =>
    have : bytes = [] := List.length_eq_zero_iff.1 (by omega)
    subst this
    cases m <;> rfl
  | succ n ih =>
    cases bytes with
    | nil => cases m <;> rfl
    | cons b rest =>
      cases m with
      | zero => simp at hm
      | succ m =>
        simp only [List.length_cons] at hn hm
        simp only [piecesUpTo]
        rw [ih m]
        · simp only [List.length_drop, List.length_cons, chunkLen]
          omega
        · simp only [List.length_drop, List.length_cons, chunkLen]
          omega

/-- A sequence longer than no piece is one piece. -/
theorem pieces_of_le (bytes : List Byte) (h0 : bytes ≠ []) (h : bytes.length ≤ chunkLen) : pieces bytes = [bytes] := by
  obtain ⟨b, rest, rfl⟩ := List.exists_cons_of_ne_nil h0
  have hd : (b :: rest).drop chunkLen = [] := List.drop_eq_nil_of_le h
  rw [pieces, List.length_cons, piecesUpTo, List.take_of_length_le h, hd]
  cases rest.length <;> rfl

/-- A full piece comes off the front. -/
theorem pieces_append (p rest : List Byte) (h : p.length = chunkLen) : pieces (p ++ rest) = p :: pieces rest := by
  obtain ⟨b, q, rfl⟩ := List.exists_cons_of_ne_nil (show p ≠ [] by rintro rfl; simp [chunkLen] at h)
  rw [pieces, List.cons_append, List.length_cons, piecesUpTo, ← List.cons_append, ← h, List.take_left, List.drop_left]
  congr 1
  exact piecesUpTo_eq _ _ _ (by simp) (le_refl _)

/-- From an empty chunk, pushing a sequence and closing xors its pieces' checksums into `X`. -/
theorem close_foldl_push (bytes : List Byte) (x : Word) :
    (bytes.foldl Engine.push { a := 1, b := 0, x := x, n := 0 }).close =
      Engine.done ((pieces bytes).foldl (fun x p => x ^^^ adl32 p) x) := by
  induction hl : bytes.length using Nat.strong_induction_on generalizing bytes x with
  | _ k ih =>
    by_cases h0 : bytes = []
    · subst h0
      rfl
    · by_cases hlt : bytes.length < chunkLen
      · have hpos := List.length_pos_of_ne_nil h0
        simp only [chunkLen] at hlt
        have hz : (0 : BitVec 7).toNat = 0 := rfl
        have hn : BitVec.ofNat 7 ((0 : BitVec 7).toNat + bytes.length) ≠ 0#7 := fun h => by
          have := congrArg BitVec.toNat h
          simp only [hz, BitVec.toNat_ofNat, Nat.zero_add] at this
          omega
        rw [pieces_of_le bytes h0 (by simp only [chunkLen]; omega), foldl_push_of_lt bytes _ (by simp only [hz]; omega)]
        exact if_pos hn
      · have hsplit : bytes = bytes.take chunkLen ++ bytes.drop chunkLen := (List.take_append_drop _ _).symm
        have htake : (bytes.take chunkLen).length = chunkLen := by
          rw [List.length_take]
          omega
        rw [hsplit, pieces_append _ _ htake, List.foldl_append,
          foldl_push_of_full (bytes.take chunkLen) _ (by rw [htake]; rfl), List.foldl_cons]
        refine ih (bytes.drop chunkLen).length ?_ (bytes.drop chunkLen) _ rfl
        rw [List.length_drop, ← hl]
        simp only [chunkLen] at *
        omega

/-- FileSum as one run of the engine. -/
theorem close_foldl_push_init (bytes : List Byte) :
    (bytes.foldl Engine.push Engine.init).close = Engine.done (fileSum bytes) :=
  close_foldl_push bytes 1

end Sys2Proof.Machine
end

