-- ==== Sys2Proof/Laws/Exec.lean ====
section
/-! SUPPORT. What a command can do, once: it always ends, and there are parts of the state no command writes. -/

namespace Sys2Proof.Machine

/-- Every command answers a next state: some meaning's work `m`, ended by `finish`. The configuration, ARG, NOW, the port's
read value and the queue of events are untouched. -/
theorem exec_eq_finish (i : Instr) (s : State) :
    ∃ code m, exec i s = .next (finish code m) ∧
      m.cfg = s.cfg ∧ m.arg = s.arg ∧ m.now = s.now ∧ m.rdata = s.rdata ∧ m.inbox = s.inbox := by
  have keep : ∀ code, ∃ code' m, (raise code s : Host.Outcome State Fault Refusal) = .next (finish code' m) ∧
      m.cfg = s.cfg ∧ m.arg = s.arg ∧ m.now = s.now ∧ m.rdata = s.rdata ∧ m.inbox = s.inbox :=
    fun code => ⟨code, s, rfl, rfl, rfl, rfl, rfl, rfl⟩
  cases i with
  | adlRst => exact ⟨_, _, rfl, rfl, rfl, rfl, rfl, rfl⟩
  | adlByte d => exact ⟨_, _, rfl, rfl, rfl, rfl, rfl, rfl⟩
  | adlVal => exact ⟨_, _, rfl, rfl, rfl, rfl, rfl, rfl⟩
  | ckInit => exact ⟨_, _, rfl, rfl, rfl, rfl, rfl, rfl⟩
  | ckPush d => exact ⟨_, _, rfl, rfl, rfl, rfl, rfl, rfl⟩
  | ckEnd => exact ⟨_, _, rfl, rfl, rfl, rfl, rfl, rfl⟩
  | fsCsum =>
    simp only [exec, execFsCsum, sumFile]
    split
    · exact keep _
    · exact ⟨_, _, rfl, rfl, rfl, rfl, rfl, rfl⟩
  | fsCsumz =>
    simp only [exec, execFsCsumz, sumFile]
    split
    · exact keep _
    · exact ⟨_, _, rfl, rfl, rfl, rfl, rfl, rfl⟩
  | svWrite =>
    simp only [exec, execSvWrite]
    split
    · exact keep _
    · exact ⟨_, _, rfl, rfl, rfl, rfl, rfl, rfl⟩
  | svRead =>
    simp only [exec, execSvRead]
    split_ifs
    · exact keep _
    · exact keep _
    · exact keep _
    · exact ⟨_, _, rfl, rfl, rfl, rfl, rfl, rfl⟩
    · exact ⟨_, _, rfl, rfl, rfl, rfl, rfl, rfl⟩
  | svVerify =>
    simp only [exec, execSvVerify]
    split
    · exact keep _
    · exact ⟨_, _, rfl, rfl, rfl, rfl, rfl, rfl⟩
  | svAppend =>
    simp only [exec, execSvAppend]
    split
    · exact keep _
    · exact ⟨_, _, rfl, rfl, rfl, rfl, rfl, rfl⟩
  | svNew n => exact ⟨_, _, rfl, rfl, rfl, rfl, rfl, rfl⟩
  | svInit n => exact ⟨_, _, rfl, rfl, rfl, rfl, rfl, rfl⟩
  | scGet idx =>
    simp only [exec, execScGet]
    split
    · exact ⟨_, _, rfl, rfl, rfl, rfl, rfl, rfl⟩
    · exact keep _
  | scPut idx =>
    simp only [exec, execScPut]
    split
    · exact ⟨_, _, rfl, rfl, rfl, rfl, rfl, rfl⟩
    · exact keep _

/-- No command writes ARG or NOW, the configuration, the port's read value or the queue. -/
theorem exec_keeps (i : Instr) (s t : State) (h : exec i s = .next t) :
    t.cfg = s.cfg ∧ t.arg = s.arg ∧ t.now = s.now ∧ t.rdata = s.rdata ∧ t.inbox = s.inbox ∧ t.idle := by
  obtain ⟨code, m, he, h1, h2, h3, h4, h5⟩ := exec_eq_finish i s
  rw [he] at h
  cases h
  exact ⟨h1, h2, h3, h4, h5, rfl⟩

end Sys2Proof.Machine
end

