-- ==== Sys2Proof/Laws/Image.lean ====
section
/-! SUPPORT. The image of a Save and the bytes of a file, piece by piece (`spec/20_memory.md` R62, R65, R66). -/

namespace Sys2Proof.Machine

/-- Byte `k` of a 32-bit field. -/
theorem leBytes_getD (v : Word) (k : Nat) (h : k < 4) : (leBytes v).getD k 0 = v.extractLsb' (8 * k) 8 := by
  match k, h with
  | 0, _ => rfl
  | 1, _ => rfl
  | 2, _ => rfl
  | 3, _ => rfl

theorem image_length (c : Config) (sv : Save) : (image c sv).length = c.fileLen sv.hdr.count.toNat := by
  simp only [image, List.length_append, leBytes_length, List.length_drop, ser_length, Config.fileLen, headerLen, cksumLen]
  omega

/-- What a store holds after its whole length has been overwritten from offset 0 on. -/
theorem bytes_writeBytes (fs : FileStore) (h : fs.data.wf) (bs : List Byte) (hl : fs.len ≤ bs.length) :
    (fs.writeBytes 0 bs).bytes = bs := by
  rw [FileStore.bytes, writeBytes_len _ _ _ (Nat.zero_le _), show max fs.len (0 + bs.length) = bs.length by omega,
    readBytes_writeBytes _ h]

/-- One of several equally long pieces, cut out of their concatenation. -/
theorem flatMap_range_drop_take {α : Type} (len : Nat) (f : Nat → List α) (hf : ∀ i, (f i).length = len) (n i : Nat)
    (hi : i < n) : (((List.range n).flatMap f).drop (len * i)).take len = f i := by
  induction n with
  | zero => omega
  | succ n ih =>
    have hl : ((List.range n).flatMap f).length = len * n := by
      clear ih hi
      induction n with
      | zero => rfl
      | succ n ih => simp [List.range_succ, ih, hf, Nat.mul_succ]
    rw [List.range_succ, List.flatMap_append]
    by_cases h : i < n
    · rw [List.drop_append_of_le_length (by rw [hl]; exact Nat.mul_le_mul_left _ h.le), List.take_append_of_le_length, ih h]
      rw [List.length_drop, hl, ← Nat.mul_sub]
      exact Nat.le_mul_of_pos_right _ (by omega)
    · have : i = n := by omega
      subst this
      rw [← hl, List.drop_left]
      simp [hf]

/-- Record `i` of the serialised image. -/
theorem ser_drop_take (c : Config) (sv : Save) (i : Nat) (hi : i < sv.hdr.count.toNat) :
    ((ser c sv).drop (recordBase c i)).take c.recLen = scoreBytes c (sv.slot i) := by
  rw [← flatMap_range_drop_take c.recLen (fun i => scoreBytes c (sv.slot i)) (fun i => by simp) _ i hi]
  rw [ser, recordBase, ← List.drop_drop]
  rfl

/-- Record `i` of the sealed image. -/
theorem image_drop_take (c : Config) (sv : Save) (i : Nat) (hi : i < sv.hdr.count.toNat) :
    ((image c sv).drop (recordBase c i)).take c.recLen = scoreBytes c (sv.slot i) := by
  have h4 : (image c sv).drop 4 = (ser c sv).drop 4 := rfl
  rw [← ser_drop_take c sv i hi, recordBase, headerLen, show 8 + c.recLen * i = 4 + (4 + c.recLen * i) by omega,
    ← List.drop_drop, h4, List.drop_drop]

/-- The header as it is read from the store is the header of the file's bytes. -/
theorem headerOfBytes_readBytes (fs : FileStore) (h : 8 ≤ fs.len) :
    headerOfBytes (fs.readBytes 0 headerLen) = headerOfBytes fs.bytes ∧
      (headerOfBytes fs.bytes).count = fs.byteAt 7 := by
  have hk : ∀ k, k < 8 → (fs.readBytes 0 headerLen).getD k 0 = fs.byteAt k ∧ fs.bytes.getD k 0 = fs.byteAt k := by
    intro k hk
    refine ⟨?_, bytes_getD fs k (by omega)⟩
    rw [List.getD_eq_getElem?_getD, readBytes_getElem?, if_pos (by simpa [headerLen] using hk)]
    simp
  simp only [headerOfBytes]
  simp only [(hk 0 (by omega)).1, (hk 1 (by omega)).1, (hk 2 (by omega)).1, (hk 3 (by omega)).1, (hk 4 (by omega)).1,
    (hk 5 (by omega)).1, (hk 6 (by omega)).1, (hk 7 (by omega)).1, (hk 0 (by omega)).2, (hk 1 (by omega)).2,
    (hk 2 (by omega)).2, (hk 3 (by omega)).2, (hk 4 (by omega)).2, (hk 5 (by omega)).2, (hk 6 (by omega)).2,
    (hk 7 (by omega)).2, and_self]

/-- Parse of a whole file, record by record as the marshaller reads it. -/
theorem parse_bytes (c : Config) (fs : FileStore) (h : 8 ≤ fs.len) (h2 : c.fileLen (fs.byteAt 7).toNat ≤ fs.len) :
    parse c fs.bytes = some (headerOfBytes fs.bytes,
      (List.range (fs.byteAt 7).toNat).map fun i => scoreOfBytes c (fs.readBytes (recordBase c i) c.recLen)) := by
  obtain ⟨-, h4⟩ := headerOfBytes_readBytes fs h
  unfold parse
  rw [bytes_length, if_neg (by simp [headerLen]; omega)]
  simp only [h4]
  rw [if_neg (by omega)]
  simp only [Option.some.injEq, Prod.mk.injEq, true_and]
  refine List.map_congr_left fun i hi => ?_
  have hi : i < (fs.byteAt 7).toNat := by simpa using hi
  rw [FileStore.bytes, readBytes_drop_take, Nat.zero_add]
  have := Nat.mul_le_mul_left c.recLen (show i + 1 ≤ (fs.byteAt 7).toNat from hi)
  simp only [recordBase, Config.fileLen, headerLen, Nat.mul_add] at *
  omega

/-- Two save buffers with the same header and the same slots are the same. -/
theorem save_eq_of_slots (v w : Save) (hh : v.hdr = w.hdr) (h : ∀ j, j < 255 → v.slot j = w.slot j) : v = w := by
  obtain ⟨vh, vs⟩ := v
  obtain ⟨wh, ws⟩ := w
  simp only at hh
  subst hh
  congr 1
  apply Vector.toList_inj.1
  refine List.ext_getElem? fun i => ?_
  by_cases hi : i < 255
  · have := h i hi
    simp only [Save.slot, List.getD_eq_getElem?_getD] at this
    have h1 : i < vs.toList.length := by simpa using hi
    have h2 : i < ws.toList.length := by simpa using hi
    rw [List.getElem?_eq_getElem h1, List.getElem?_eq_getElem h2] at *
    simpa using this
  · rw [List.getElem?_eq_none_iff.2 (by simp; omega), List.getElem?_eq_none_iff.2 (by simp; omega)]

/-- The slots after the commit of SV.READ (`spec/41_marshaller.md` R143, step 4). -/
theorem slot_loadRecords (c : Config) (fs : FileStore) (n : Nat) (hn : n ≤ 255) (sv : Save) (j : Nat) :
    (loadRecords c fs n sv).slot j =
      if j < n then scoreOfBytes c (fs.readBytes (recordBase c j) c.recLen) else sv.slot j := by
  unfold loadRecords
  induction n with
  | zero => simp
  | succ n ih =>
    rw [List.range_succ, List.foldl_append]
    simp only [List.foldl_cons, List.foldl_nil]
    rw [slot_putSlot _ _ _ _ (by simp only [slotCount]; omega), ih (by omega)]
    by_cases h : j = n
    · simp [h]
    · by_cases h2 : j < n
      · simp [h, h2, show j < n + 1 by omega]
      · simp [h, h2, show ¬ j < n + 1 by omega]

/-- The commit of the records leaves the header alone. -/
theorem loadRecords_hdr (c : Config) (fs : FileStore) (n : Nat) (sv : Save) : (loadRecords c fs n sv).hdr = sv.hdr := by
  unfold loadRecords
  induction n with
  | zero => simp
  | succ n ih =>
    rw [List.range_succ, List.foldl_append]
    simp only [List.foldl_cons, List.foldl_nil]
    exact ih

end Sys2Proof.Machine
end

