-- ==== Sys2Proof/Laws/PerInstr.lean ====
section
/-! SUPPORT. Statements made once for each command. The family EncodedFields: the word of a command has the command's opcode,
its immediate, and a zero upper half (`spec/30_encoding.md` R90). -/

namespace Sys2Proof.Laws

/-- The three fields of format C, read back from the encoded word. -/
def EncodedFields.Statement (i : Instr) : Prop :=
  opField (encode i) = opcodeOf i ∧ immField (encode i) = immOf i ∧ zeroField (encode i) = 0#16

/-- The three fields of a word put together from them. -/
theorem fields_of_word (imm op : Byte) :
    opField ((0#16 ++ imm) ++ op) = op ∧ immField ((0#16 ++ imm) ++ op) = imm ∧
      zeroField ((0#16 ++ imm) ++ op) = 0#16 := by
  refine ⟨?_, ?_, ?_⟩ <;> refine BitVec.eq_of_getLsbD_eq fun i hi => ?_ <;>
    simp only [opField, immField, zeroField, BitVec.getLsbD_extractLsb', BitVec.getLsbD_append]
  · simp [hi]
  · simp [hi]
  · rw [if_neg (by omega), if_neg (by omega)]
    simp

theorem EncodedFields.adlRst : EncodedFields.Statement .adlRst := fields_of_word _ _
theorem EncodedFields.adlByte (d : Byte) : EncodedFields.Statement (.adlByte d) := fields_of_word _ _
theorem EncodedFields.adlVal : EncodedFields.Statement .adlVal := fields_of_word _ _
theorem EncodedFields.ckInit : EncodedFields.Statement .ckInit := fields_of_word _ _
theorem EncodedFields.ckPush (d : Byte) : EncodedFields.Statement (.ckPush d) := fields_of_word _ _
theorem EncodedFields.ckEnd : EncodedFields.Statement .ckEnd := fields_of_word _ _
theorem EncodedFields.fsCsum : EncodedFields.Statement .fsCsum := fields_of_word _ _
theorem EncodedFields.fsCsumz : EncodedFields.Statement .fsCsumz := fields_of_word _ _
theorem EncodedFields.svWrite : EncodedFields.Statement .svWrite := fields_of_word _ _
theorem EncodedFields.svRead : EncodedFields.Statement .svRead := fields_of_word _ _
theorem EncodedFields.svVerify : EncodedFields.Statement .svVerify := fields_of_word _ _
theorem EncodedFields.svAppend : EncodedFields.Statement .svAppend := fields_of_word _ _
theorem EncodedFields.svNew (n : Byte) : EncodedFields.Statement (.svNew n) := fields_of_word _ _
theorem EncodedFields.svInit (n : Byte) : EncodedFields.Statement (.svInit n) := fields_of_word _ _
theorem EncodedFields.scGet (idx : Byte) : EncodedFields.Statement (.scGet idx) := fields_of_word _ _
theorem EncodedFields.scPut (idx : Byte) : EncodedFields.Statement (.scPut idx) := fields_of_word _ _

end Sys2Proof.Laws
end

