-- ==== Sys2Proof/Laws/Step.lean ====
section
/-! SUPPORT. What one step can do: the step function by cases, and the sequencer's step by cases. -/

namespace Sys2Proof.Machine

/-- An IDLE block with nothing to do stays as it is. -/
theorem step_idle_nil (s : State) (h : s.seq.phase = .idle) (hb : s.inbox = []) : step s = .next s := by
  simp [step, h, stepIdle, hb]

/-- An IDLE block takes the oldest event. -/
theorem step_idle_cons (s : State) (ev : Input) (rest : List Input) (h : s.seq.phase = .idle)
    (hb : s.inbox = ev :: rest) : step s = takeWhenIdle ev { s with inbox := rest } := by
  simp [step, h, stepIdle, hb, State.dropEvent]

/-- A running command goes on, and a host access at the head of the queue waits. -/
theorem step_busy_of_waiting (s : State) (h : s.seq.phase ≠ .idle)
    (hw : ∀ ev rest, s.inbox = ev :: rest → ev ≠ .reset ∧ ev ≠ .tick ∧ ∀ act, ev ≠ .env act) : step s = seqStep s := by
  rw [step, if_neg h]
  unfold stepBusy
  rcases hi : s.inbox with _ | ⟨ev, rest⟩
  · rfl
  · obtain ⟨h1, h2, h3⟩ := hw ev rest hi
    cases ev <;> simp_all

/-- A reset lands whether or not a command runs. -/
theorem step_reset (s : State) (rest : List Input) (hb : s.inbox = .reset :: rest) :
    step s = .next (resetBlock { s with inbox := rest }) := by
  unfold step
  split
  · simp [stepIdle, hb, takeWhenIdle, State.dropEvent]
  · simp [stepBusy, hb, State.dropEvent]

/-- The environment acts whether or not a command runs. -/
theorem step_env (s : State) (act : EnvAction) (rest : List Input) (hb : s.inbox = .env act :: rest) :
    step s = .next (applyEnv act { s with inbox := rest }) := by
  unfold step
  split
  · simp [stepIdle, hb, takeWhenIdle, State.dropEvent]
  · simp [stepBusy, hb, State.dropEvent]

/-- The sequencer's step, by cases: it decides without an access, makes one the store permits, or one the environment has
put astray. -/
theorem seqStep_cases (s t : State) (h : seqStep s = .next t) :
    (seqAccess s = none ∧ t = seqDecide s) ∨
      (∃ acc, seqAccess s = some acc ∧ s.fs.permits s.cfg.fsCap acc = true ∧
        t = seqTake (s.fs.answer acc) (s.setFs (s.fs.perform acc))) ∨
      ∃ acc, seqAccess s = some acc ∧ s.fs.permits s.cfg.fsCap acc = false ∧
        t = seqTake (Config.freeByte s.draws) (makeAstray acc s) := by
  unfold seqStep at h
  split at h
  · rename_i hn
    cases h
    exact .inl ⟨hn, rfl⟩
  · rename_i acc hs
    split at h
    · rename_i hp
      cases h
      exact .inr (.inl ⟨acc, hs, hp, rfl⟩)
    · rename_i hp
      cases h
      exact .inr (.inr ⟨acc, hs, by simpa using hp, rfl⟩)

/-- The sequencer always goes on (`spec/00_scope.md` R15). -/
theorem seqStep_next (s : State) : ∃ t, seqStep s = .next t := by
  unfold seqStep
  split
  · exact ⟨_, rfl⟩
  · split <;> exact ⟨_, rfl⟩

/-- One step of the machine, by cases. -/
theorem step_cases (s t : State) (h : step s = .next t) :
    (s.seq.phase = .idle ∧ s.inbox = [] ∧ t = s) ∨
    (s.seq.phase = .idle ∧ ∃ ev rest, s.inbox = ev :: rest ∧ takeWhenIdle ev { s with inbox := rest } = .next t) ∨
    (s.seq.phase ≠ .idle ∧ ∃ rest, s.inbox = .reset :: rest ∧ t = resetBlock { s with inbox := rest }) ∨
    (s.seq.phase ≠ .idle ∧ ∃ act rest, s.inbox = .env act :: rest ∧ t = applyEnv act { s with inbox := rest }) ∨
    (s.seq.phase ≠ .idle ∧ ∃ rest, s.inbox = .tick :: rest ∧ seqStep { s with inbox := rest } = .next t) ∨
    (s.seq.phase ≠ .idle ∧ seqStep s = .next t) := by
  by_cases hp : s.seq.phase = .idle
  · rcases hi : s.inbox with _ | ⟨ev, rest⟩
    · rw [step_idle_nil s hp hi] at h
      cases h
      exact .inl ⟨hp, rfl, rfl⟩
    · rw [step_idle_cons s ev rest hp hi] at h
      exact .inr (.inl ⟨hp, ev, rest, rfl, h⟩)
  · rw [step, if_neg hp] at h
    rcases hi : s.inbox with _ | ⟨ev, rest⟩
    · simp only [stepBusy, hi, List.head?_nil] at h
      exact .inr (.inr (.inr (.inr (.inr ⟨hp, h⟩))))
    · cases ev <;> simp only [stepBusy, hi, List.head?_cons, State.dropEvent, List.tail_cons] at h
      case hostWrite => exact .inr (.inr (.inr (.inr (.inr ⟨hp, h⟩))))
      case hostRead => exact .inr (.inr (.inr (.inr (.inr ⟨hp, h⟩))))
      case startCommand => exact .inr (.inr (.inr (.inr (.inr ⟨hp, h⟩))))
      case reset => cases h; exact .inr (.inr (.inl ⟨hp, rest, rfl, rfl⟩))
      case env act => cases h; exact .inr (.inr (.inr (.inl ⟨hp, act, rest, rfl, rfl⟩)))
      case tick => exact .inr (.inr (.inr (.inr (.inl ⟨hp, rest, rfl, h⟩))))

/-- What an IDLE block does with an event, by cases. -/
theorem takeWhenIdle_cases (ev : Input) (s t : State) (h : takeWhenIdle ev s = .next t) :
    (∃ w, ev = .hostWrite cmdReg w ∧ issueCommand w s = .next t) ∨
    (∃ reg v, reg ≠ cmdReg ∧ ev = .hostWrite reg v ∧ t = regWrite reg v s) ∨
    (∃ reg, ev = .hostRead reg ∧ t = hostRead reg s) ∨
    (∃ w, ev = .startCommand w ∧ beginCommand w s = .next t) ∨
    (ev = .reset ∧ t = resetBlock s) ∨ (∃ act, ev = .env act ∧ t = applyEnv act s) ∨ (ev = .tick ∧ t = s) := by
  cases ev with
  | hostWrite reg v =>
    simp only [takeWhenIdle, hostWrite] at h
    split at h
    · rename_i hr
      exact .inl ⟨v, by rw [hr], h⟩
    · rename_i hr
      cases h
      exact .inr (.inl ⟨reg, v, hr, rfl, rfl⟩)
  | hostRead reg => cases h; exact .inr (.inr (.inl ⟨reg, rfl, rfl⟩))
  | startCommand w => exact .inr (.inr (.inr (.inl ⟨w, rfl, h⟩)))
  | reset => cases h; exact .inr (.inr (.inr (.inr (.inl ⟨rfl, rfl⟩))))
  | env act => cases h; exact .inr (.inr (.inr (.inr (.inr (.inl ⟨act, rfl, rfl⟩)))))
  | tick => cases h; exact .inr (.inr (.inr (.inr (.inr (.inr ⟨rfl, rfl⟩)))))

/-- Issuing a word: a command's meaning, or IllegalCommand. -/
theorem issueCommand_cases (w : Word) (s : State) :
    (∃ i, decode w = .command i ∧ issueCommand w s = exec i s) ∨
      (∃ why, decode w = .illegal why ∧ issueCommand w s = .next (finish .illegalCommand s)) := by
  unfold issueCommand
  rcases decode w with i | why
  · exact .inl ⟨i, rfl, rfl⟩
  · exact .inr ⟨why, rfl, rfl⟩

end Sys2Proof.Machine
end

