-- ==== Sys2Proof/Laws/Runs.lean ====
section
/-! SUPPORT. Runs of several steps, put together from their parts; and what a step of the sequencer and a register write
leave as they were. -/

namespace Sys2Proof.Machine

/-- A run of the machine, cut in two. -/
theorem runSteps_add (j k : Nat) (s t : State) (h : runSteps j s = .next t) : runSteps (j + k) s = runSteps k t := by
  induction j generalizing s with
  | zero => cases h; simp
  | succ j ih =>
    rw [show j + 1 + k = (j + k) + 1 by omega]
    simp only [runSteps] at h ⊢
    cases hs : step s with
    | next u => rw [hs] at h; exact ih u h
    | fault r => rw [hs] at h; cases h
    | refused r => rw [hs] at h; cases h

/-- `j` steps of the sequencer lead from `t` to `u` and make the accesses `tr`. -/
def SeqRuns (j : Nat) (t u : State) (tr : List FsAccess) : Prop := seqRun j t = .next u ∧ seqTrace j t = tr

theorem seqRuns_zero (t : State) : SeqRuns 0 t t [] := ⟨rfl, rfl⟩

theorem seqRuns_one {t u : State} (hp : t.seq.phase ≠ .idle) (h : seqStep t = .next u) :
    SeqRuns 1 t u (seqAccess t).toList := by
  constructor
  · simp [seqRun, hp, h]
  · simp [seqTrace, hp, h]

/-- An IDLE sequencer does nothing, for any number of steps. -/
theorem seqRun_of_idle (k : Nat) (t : State) (h : t.seq.phase = .idle) : seqTrace k t = [] ∧ seqRun k t = .next t := by
  cases k with
  | zero => exact ⟨rfl, rfl⟩
  | succ k => simp [seqTrace, seqRun, h]

/-- Runs of the sequencer compose, and so do their accesses. -/
theorem seqRuns_trans {j k : Nat} {t u v : State} {l r : List FsAccess} (h1 : SeqRuns j t u l) (h2 : SeqRuns k u v r) :
    SeqRuns (j + k) t v (l ++ r) := by
  induction j generalizing t l with
  | zero =>
    obtain ⟨x, rfl⟩ := h1
    cases x
    simpa [seqTrace] using h2
  | succ j ih =>
    obtain ⟨x, rfl⟩ := h1
    by_cases hi : t.seq.phase = .idle
    · have hx := (seqRun_of_idle (j + 1) t hi).2
      rw [x] at hx
      cases hx
      obtain ⟨y, rfl⟩ := h2
      obtain ⟨e1, e2⟩ := seqRun_of_idle k u hi
      rw [e2] at y
      cases y
      refine ⟨(seqRun_of_idle _ u hi).2, ?_⟩
      rw [(seqRun_of_idle _ u hi).1, (seqRun_of_idle _ u hi).1, e1]
      rfl
    · rw [show j + 1 + k = (j + k) + 1 by omega]
      simp only [seqRun, hi, if_false] at x
      cases hs : seqStep t with
      | next w =>
        rw [hs] at x
        obtain ⟨p, q⟩ := ih (t := w) ⟨x, rfl⟩
        refine ⟨by simp only [seqRun, hi, if_false, hs]; exact p, ?_⟩
        simp only [seqTrace, hi, if_false, hs, q, List.append_assoc]
      | fault r => rw [hs] at x; cases x
      | refused r => rw [hs] at x; cases x

/-- Reads at ascending offsets, the first one taken off. -/
theorem readsFrom_succ (off n : Nat) : readsFrom off (n + 1) = .read off :: readsFrom (off + 1) n := by
  simp [readsFrom, List.range_succ_eq_map, Function.comp_def, Nat.add_assoc, Nat.add_comm 1]

/-- Inside the header `bi` moves with `fp` (`spec/10_state.md` R50). -/
theorem nextInHeader_inside (q : Sequencer) (h : q.fp + 1 < 8) :
    nextInHeader q = { q with fp := q.fp + 1, bi := q.bi + 1 } := if_pos h

/-- After the last byte of the header a record begins, at its byte 0 (R50). -/
theorem nextInHeader_last (q : Sequencer) (h : ¬q.fp + 1 < 8) : nextInHeader q = { q with fp := q.fp + 1, bi := 0 } :=
  if_neg h

/-- What the sequencer does with the byte of an access leaves the host's side and the file store alone. -/
theorem seqTake_keeps (b : Byte) (s : State) :
    (seqTake b s).inbox = s.inbox ∧ (seqTake b s).rdata = s.rdata ∧ (seqTake b s).arg = s.arg ∧
      (seqTake b s).cfg = s.cfg ∧ (seqTake b s).fs = s.fs := by
  unfold seqTake
  split <;> (try split_ifs) <;> exact ⟨rfl, rfl, rfl, rfl, rfl⟩

/-- A decision of the sequencer leaves the host's side and the file store alone. -/
theorem seqDecide_keeps (s : State) :
    (seqDecide s).inbox = s.inbox ∧ (seqDecide s).rdata = s.rdata ∧ (seqDecide s).arg = s.arg ∧
      (seqDecide s).cfg = s.cfg ∧ (seqDecide s).fs = s.fs := by
  unfold seqDecide
  split <;> (try dsimp only) <;> (try split_ifs) <;> (try split) <;> exact ⟨rfl, rfl, rfl, rfl, rfl⟩

/-- A step of the sequencer leaves the host's side alone, and outside the writing phases the file store too. -/
theorem seqStep_keeps (s t : State) (h : seqStep s = .next t) :
    t.inbox = s.inbox ∧ t.rdata = s.rdata ∧ t.arg = s.arg ∧ t.cfg = s.cfg ∧
      (t.fs ≠ s.fs → s.seq.phase ∈ [Phase.w1, .w2, .w4]) := by
  rcases seqStep_cases s t h with ⟨-, rfl⟩ | ⟨acc, h1, -, rfl⟩ | ⟨acc, h1, -, rfl⟩
  · obtain ⟨i, r, g, c, f⟩ := seqDecide_keeps s
    exact ⟨i, r, g, c, fun h => absurd f h⟩
  · obtain ⟨i, r, g, c, f⟩ := seqTake_keeps (s.fs.answer acc) (s.setFs (s.fs.perform acc))
    refine ⟨i, r, g, c, fun h => ?_⟩
    rw [f] at h
    unfold seqAccess at h1
    cases hp : s.seq.phase <;> rw [hp] at h1 <;> simp at h1 ⊢ <;> (try (obtain ⟨-, rfl⟩ := h1)) <;>
      exact h rfl
  · obtain ⟨i, r, g, c, f⟩ := seqTake_keeps (Config.freeByte s.draws) (makeAstray acc s)
    refine ⟨i, r, g, c, fun h => ?_⟩
    rw [f] at h
    unfold seqAccess at h1
    cases hp : s.seq.phase <;> rw [hp] at h1 <;> simp at h1 ⊢ <;> (try (obtain ⟨-, rfl⟩ := h1)) <;>
      exact h rfl

/-- A register write leaves the file store, the configuration, the Checksum Engine, the sequencer, the slots and the count
alone. -/
theorem regWrite_keeps (reg : BitVec 6) (v : Word) (s : State) :
    (regWrite reg v s).fs = s.fs ∧ (regWrite reg v s).cfg = s.cfg ∧ (regWrite reg v s).ce = s.ce ∧
      (regWrite reg v s).seq = s.seq ∧ (regWrite reg v s).save.slots = s.save.slots ∧
      (regWrite reg v s).save.hdr.count = s.save.hdr.count := by
  unfold regWrite
  split <;> exact ⟨rfl, rfl, rfl, rfl, rfl, rfl⟩

end Sys2Proof.Machine
end

