-- ==== Sys2Proof/Tests/Slice0.lean ====
section
/-! SUPPORT. Tests. Expected values are those of `spec/95_test_vectors.md` (V1, V2, …) and of the encodings of
`spec/30_encoding.md`; then, for every obligation with hypotheses, concrete states and operands that meet them. -/

namespace Sys2Proof.Tests

open Sys2Proof Sys2Proof.Machine

/-! ### Helpers -/

/-- The state a command ends in, if it ends. -/
def after (i : Instr) (s : State) : Option State :=
  match exec i s with
  | .next t => some t
  | .fault _ => none
  | .refused _ => none

/-- The state one step ends in, if it ends. -/
def afterStep (s : State) : Option State :=
  match step s with
  | .next t => some t
  | .fault _ => none
  | .refused _ => none

/-- From a computed end of a command to the statement that it ends so. -/
theorem exists_next {α : Type} (i : Instr) (s : State) (f : State → α) (v : α) (h : (after i s).map f = some v) :
    ∃ t, exec i s = .next t ∧ f t = v := by
  unfold after at h
  split at h
  · rename_i t ht
    exact ⟨t, ht, Option.some.inj h⟩
  · cases h
  · cases h

/-- The same for one step. -/
theorem exists_step {α : Type} (s : State) (f : State → α) (v : α) (h : (afterStep s).map f = some v) :
    ∃ t, step s = .next t ∧ f t = v := by
  unfold afterStep at h
  split at h
  · rename_i t ht
    exact ⟨t, ht, Option.some.inj h⟩
  · cases h
  · cases h

/-- The reset state with every slot known, so that a test can look at a slot. -/
def base : State := { State.reset with save := { hdr := Header.zero, slots := Vector.replicate 255 Score.blank } }

/-- The same with the registers of the Checksum Engine given. -/
def engine (a b : BitVec 16) (x : Word) (n : BitVec 7) : State := { base with ce := { a := a, b := b, x := x, n := n } }

/-- A state whose file store holds these bytes, put there by the environment. -/
def onFile (bytes : List Byte) (s : State) : State := applyEnv (.putFile bytes) s

/-- A state with a header dated 27 April 2024 and this count. -/
def counted (n : Byte) (s : State) : State :=
  s.setSave { s.save with hdr := { cksum := 0, day := 27, month := 4, year := 24, count := n } }

/-- The score "AMK" of the vectors. -/
def amk : Score := ⟨27, 4, 24, 0x00018E8E, 0x41, 0x4D, 0x4B, 0x00⟩

/-- The score "DBJ" of the vectors. -/
def dbj : Score := ⟨25, 2, 23, 0x00018A92, 0x44, 0x42, 0x4A, 0x00⟩

/-- The two-score Save of V47 in the buffer. -/
def twoScores : State := counted 2 (base.setSave ((base.save.putSlot 0 amk).putSlot 1 dbj))

/-- The file of V47. -/
def fileV47 : List Byte :=
  [0x87, 0x04, 0x5B, 0x37, 0x1B, 0x04, 0x18, 0x02, 0x1B, 0x04, 0x18, 0x8E, 0x8E, 0x01, 0x00, 0x41, 0x4D, 0x4B, 0x00,
    0x19, 0x02, 0x17, 0x92, 0x8A, 0x01, 0x00, 0x44, 0x42, 0x4A, 0x00]

/-- The file of V49: every byte of its one record distinct. -/
def fileV49 : List Byte :=
  [0xAA, 0x01, 0xE9, 0x04, 0x01, 0x02, 0x03, 0x01, 0x04, 0x05, 0x06, 0x04, 0x03, 0x02, 0x01, 0x58, 0x59, 0x5A, 0x7F]

/-- The Save of V49. -/
def saveV49 : Save :=
  { base.save.putSlot 0 ⟨4, 5, 6, 0x01020304, 0x58, 0x59, 0x5A, 0x7F⟩ with hdr := ⟨0, 1, 2, 3, 1⟩ }

/-- The file of V45: no scores, zero date. -/
def fileV45 : List Byte := [0x00, 0x00, 0x08, 0x00, 0x00, 0x00, 0x00, 0x00]

/-! ### Which words are commands: each check refuses an ill-formed word -/

theorem test_wellformed_upper_half : upperHalfZero 0x00010005 = false ∧ wordWellFormed 0x00010005 = false ∧
    decode 0x00010005 = .illegal .reservedBits := by decide
theorem test_wellformed_opcode : opcodeAssigned 0x00000007 = false ∧ wordWellFormed 0x00000007 = false ∧
    decode 0x00000007 = .illegal .unassignedOpcode := by decide
theorem test_wellformed_immediate : immediateAllowed 0x00000110 = false ∧ wordWellFormed 0x00000110 = false ∧
    decode 0x00000110 = .illegal .immediateNotZero := by decide
theorem test_wellformed_accepts : wordWellFormed 0x00006102 = true ∧ (Instr.adlByte 0x61).wellFormed = true := by decide

/-- V88 to V93: illegal words, both ends of every gap of the opcode map among them. -/
theorem test_illegal_words :
    ([0x00000000, 0x00000007, 0x0000000A, 0x0000000F, 0x00000013, 0x00000017, 0x0000001D, 0x000000FF, 0x00000110,
      0x0000FF01, 0x00000103, 0x00000104, 0x00000106, 0x00000108, 0x00000109, 0x00000111, 0x00000112, 0x00000118,
      0x00010005, 0x80000002, 0xFFFF0019] : List Word).all (fun w => (decodeTableWord 32 w.toNat).isNone && !wordWellFormed w) = true := by decide

/-! ### Decoding: words written out bit by bit, `zero` (16) `imm8` (8) `op` (8), from R90 and R92 -/

theorem test_decode_adlRst : decode 0b00000000000000000000000000000001#32 = .command .adlRst := by decide
theorem test_decode_adlByte : decode 0b00000000000000000110000100000010#32 = .command (.adlByte 0x61) := by decide
theorem test_decode_adlVal : decode 0b00000000000000000000000000000011#32 = .command .adlVal := by decide
theorem test_decode_ckInit : decode 0b00000000000000000000000000000100#32 = .command .ckInit := by decide
theorem test_decode_ckPush : decode 0b00000000000000001111111100000101#32 = .command (.ckPush 0xFF) := by decide
theorem test_decode_ckEnd : decode 0b00000000000000000000000000000110#32 = .command .ckEnd := by decide
theorem test_decode_fsCsum : decode 0b00000000000000000000000000001000#32 = .command .fsCsum := by decide
theorem test_decode_fsCsumz : decode 0b00000000000000000000000000001001#32 = .command .fsCsumz := by decide
theorem test_decode_svWrite : decode 0b00000000000000000000000000010000#32 = .command .svWrite := by decide
theorem test_decode_svRead : decode 0b00000000000000000000000000010001#32 = .command .svRead := by decide
theorem test_decode_svVerify : decode 0b00000000000000000000000000010010#32 = .command .svVerify := by decide
theorem test_decode_svAppend : decode 0b00000000000000000000000000011000#32 = .command .svAppend := by decide
theorem test_decode_svNew : decode 0b00000000000000000000001000011001#32 = .command (.svNew 2) := by decide
theorem test_decode_svInit : decode 0b00000000000000001111111100011010#32 = .command (.svInit 255) := by decide
theorem test_decode_scGet : decode 0b00000000000000000000000000011011#32 = .command (.scGet 0) := by decide
theorem test_decode_scPut : decode 0b00000000000000001111111000011100#32 = .command (.scPut 254) := by decide
theorem test_encode : encode (.scPut 254) = 0x0000FE1C ∧ encode .svWrite = 0x00000010 := by decide

/-- Every row of the table, with a zero immediate, is the first command the machine runs after reset; the codes are those
the vectors give (V83, V84, V87: no file, count 0). -/
theorem test_first_step :
    ([0x01, 0x02, 0x03, 0x04, 0x05, 0x06, 0x08, 0x09, 0x10, 0x11, 0x12, 0x18, 0x19, 0x1A, 0x1B, 0x1C] : List Nat).map
      (fun w => (afterStep (State.reset.withFetchWord 32 w)).map fun t => (t.err.code, t.inbox.length)) =
    ([0, 0, 0, 0, 0, 0, 1, 1, 0, 1, 1, 0, 0, 0, 5, 5] : List Byte).map fun c => some (c, 0) := by decide +kernel

/-! ### One command each -/

/-- V38: ADL.RST leaves N and X. -/
theorem test_adlRst : (after .adlRst (engine 98 98 7 1)).map (·.ce) = some ⟨1, 0, 7, 1⟩ := by decide
/-- V13 and V18: both sums reduce; the largest `B + A'`. -/
theorem test_adlByte_reduces : (after (.adlByte 255) (engine 65520 65520 1 0)).map (·.ce) = some ⟨254, 253, 1, 0⟩ ∧
    (after (.adlByte 0) (engine 65520 65520 1 0)).map (·.ce) = some ⟨65520, 65519, 1, 0⟩ := by decide
/-- V19: the new `A'` goes into `B`. -/
theorem test_adlByte_new_sum : (after (.adlByte 1) (engine 32760 32761 1 0)).map (·.ce) = some ⟨32761, 1, 1, 0⟩ := by decide
/-- V5, V18: `B` stands in the high half. -/
theorem test_adlVal : (after .adlVal (engine 295 589 1 0)).map (·.result) = some 0x024D0127 ∧
    (after .adlVal (engine 65520 65519 1 0)).map (·.result) = some 0xFFEFFFF0 := by decide
/-- V39. -/
theorem test_ckInit : (after .ckInit (engine 32386 41616 9 127)).map (·.ce) = some ⟨1, 0, 1, 0⟩ := by decide
/-- V30: the 128th byte folds the sums that include it. -/
theorem test_ckPush_folds :
    (after (.ckPush 0xFF) (engine 32386 41616 1 127)).map (·.ce) = some ⟨1, 0, 0x22207F80, 0⟩ := by decide
/-- V33: the 129th byte opens a new chunk. -/
theorem test_ckPush_counts :
    (after (.ckPush 0xFF) (engine 1 0 0x22207F80 0)).map (·.ce) = some ⟨256, 256, 0x22207F80, 1⟩ := by decide
/-- V29: a short chunk is folded. -/
theorem test_ckEnd_short : (after .ckEnd (engine 32386 41616 1 127)).map (fun t => (t.ce, t.result)) =
    some (⟨1, 0, 0xA2907E83, 0⟩, 0xA2907E83) := by decide
/-- V24: after a full chunk nothing is folded. -/
theorem test_ckEnd_full : (after .ckEnd (engine 1 0 0x00800000 0)).map (fun t => (t.ce.x, t.result)) =
    some (0x00800000, 0x00800000) := by decide
/-- V42, V44a. -/
theorem test_fsCsum :
    (after .fsCsum (onFile [0x61, 0x62, 0x63, 0x64, 0x65, 0x66] base)).map (·.result) = some 0x081E0257 ∧
    (after .fsCsum (onFile fileV47 base)).map (·.result) = some 0x576205A2 := by decide +kernel
/-- V41, V42: the first four bytes count as zero, and a short file is not extended. -/
theorem test_fsCsumz : (after .fsCsumz (onFile [0x61, 0x62, 0x63] base)).map (·.result) = some 0x00030000 ∧
    (after .fsCsumz (onFile [0x61, 0x62, 0x63, 0x64, 0x65, 0x66] base)).map (·.result) = some 0x013600CD := by
  decide +kernel
/-- V49: every byte in its place. -/
theorem test_svWrite : (after .svWrite (base.setSave saveV49)).map (fun t => (t.fs.bytes, t.save.hdr.cksum, t.err)) =
    some (fileV49, 0x04E901AA, .success) := by decide +kernel
/-- V53: a file one byte longer than a chunk. -/
theorem test_svWrite_two_chunks :
    (after .svWrite (base.setSave { hdr := ⟨0, 1, 1, 1, 11⟩, slots := Vector.ofFn fun i =>
      let k := BitVec.ofNat 8 (i.val + 1)
      ⟨k, k, k, k.setWidth 32, k + 0x40, k + 0x40, k + 0x40, k + 0x40⟩ })).map
        (fun t => (t.fs.len, t.result, regRead 13 t)) = some (129, 0xCAFE0C99, 0x00810003) := by decide +kernel
/-- V51. -/
theorem test_svRead : (after .svRead (onFile fileV47 base)).map
    (fun t => (t.save.hdr, t.save.slot 0, t.save.slot 1, t.save.slot 2, t.result, t.err)) =
    some (⟨0x375B0487, 27, 4, 24, 2⟩, amk, dbj, Score.blank, 0x375B0487, .success) := by decide +kernel
/-- V58 (TamperError) and V64 (ParseError). -/
theorem test_svRead_changed :
    (after .svRead (onFile (fileV47.set 11 0x8F) base)).map (fun t => (statusWord t, t.result, t.save.hdr.count)) =
      some (0x103, 0x376E0486, 0) ∧
    (after .svRead (onFile (fileV47.set 7 3) base)).map (fun t => (statusWord t, t.result, t.ce.x)) = some (2, 0, 1) := by
  decide +kernel
/-- V56b: the comparison is with ARG, not with the file's own field. -/
theorem test_svVerify :
    (after .svVerify { onFile ([0, 0, 0, 0] ++ fileV47.drop 4) base with arg := 0x375B0487 }).map
      (fun t => (statusWord t, t.result)) = some (0, 0x375B0487) := by decide +kernel
/-- V71: a cut file is summed as it is. -/
theorem test_svVerify_cut : (after .svVerify { onFile (fileV47.take 29) base with arg := 0x375B0487 }).map
    (fun t => (statusWord t, t.result)) = some (0x100, 0x32D50487) := by decide +kernel
/-- V72. -/
theorem test_svAppend : (after .svAppend (loadStaging amk twoScores)).map (fun t => (svHdrWord t.save.hdr, t.save.slot 2)) =
    some (0x0318041B, amk) := by decide +kernel
/-- V74, V75: the last free slot, and no wrap. -/
theorem test_svAppend_full :
    (after .svAppend (loadStaging dbj (counted 254 base))).map (fun t => (t.save.hdr.count, t.save.slot 254)) =
      some (255, dbj) ∧
    (after .svAppend (counted 255 base)).map (fun t => (t.save.hdr.count, t.err)) = some (255, .capacityError) := by
  decide +kernel
/-- V76: no slot becomes unspecified. After `sv.new 1` slot 0 has taken eleven draws and slot 1 is as it was (as V77). -/
theorem test_svNew :
    (after (.svNew 0) twoScores).map (fun t => (svHdrWord t.save.hdr, t.save.hdr.cksum, t.save.slot 0)) =
      some (0, 0, amk) ∧
    (after (.svNew 1) twoScores).map (fun t => (svHdrWord t.save.hdr, t.draws, t.save.slot 1)) =
      some (0x01000000, 2816, dbj) := by decide +kernel
/-- V79. -/
theorem test_svInit : (after (.svInit 2) { base with now := 0x18041B }).map
    (fun t => (svHdrWord t.save.hdr, t.save.hdr.cksum, t.now)) = some (0x0218041B, 0, 0x18041B) := by decide +kernel
/-- P3 line 18. -/
theorem test_scGet : (after (.scGet 1) twoScores).map (fun t => (t.scDate, t.scValue, t.scInit)) =
    some (0x170219, 0x00018A92, 0x004A4244) := by decide +kernel
/-- V82, V85: the bound is the count, and index 255 always raises. -/
theorem test_scGet_bounds : (after (.scGet 2) twoScores).map (·.err) = some .boundsError ∧
    (after (.scGet 254) (counted 255 base)).map (·.err) = some .success ∧
    (after (.scGet 255) (counted 255 base)).map (·.err) = some .boundsError := by decide +kernel
/-- V86. -/
theorem test_scPut : (after (.scPut 1) (loadStaging dbj (counted 2 base))).map
    (fun t => (t.save.slot 0, t.save.slot 1, t.save.hdr.count)) = some (Score.blank, dbj, 2) := by decide +kernel
/-- V84. -/
theorem test_scPut_bounds : (after (.scPut 0) (loadStaging dbj base)).map (fun t => (t.err, t.save.slot 0)) =
    some (.boundsError, Score.blank) := by decide +kernel

/-! ### Registers, reset, the three-byte initials, access by access -/

/-- V99 to V108, V111: reserved and read-only bits. -/
theorem test_registers :
    regRead 1 (regWrite 1 0xFFFFFFFF State.reset) = 0 ∧ regRead 3 (regWrite 3 0xDEADBEEF State.reset) = 0xDEADBEEF ∧
    regRead 4 (regWrite 4 0xAB18041B State.reset) = 0x0018041B ∧
    regRead 6 (regWrite 6 0xFF1A0B08 State.reset) = 0x001A0B08 ∧
    regRead 6 (regWrite 6 0x00010203 (counted 2 base)) = 0x02010203 ∧
    regRead 7 (regWrite 7 0xFF010203 State.reset) = 0x00010203 ∧
    regRead 10 (regWrite 10 5 State.reset) = 1 ∧ regRead 13 State.reset = 2 ∧
    regRead 14 State.reset = 0 ∧ regRead 63 (regWrite 63 5 State.reset) = 0 := by decide +kernel

/-- V112: a reset keeps the file and clears the rest. -/
theorem test_reset : (afterStep { onFile fileV47 twoScores with inbox := [.reset], err := .ioError }).map
    (fun t => (t.save.hdr, t.fs.bytes, t.err, t.inbox)) = some (Header.zero, fileV47, .success, []) := by decide +kernel

/-- V123: with INITIALS_W = 3 the fourth initials byte is not on file. -/
theorem test_three_initials : image { initialsW := .three, fsCap := 4096 } saveV49 =
    [0x2D, 0x01, 0x3E, 0x03, 0x01, 0x02, 0x03, 0x01, 0x04, 0x05, 0x06, 0x04, 0x03, 0x02, 0x01, 0x58, 0x59, 0x5A] := by
  decide +kernel

/-- R237: the access counts of SV.WRITE and SV.READ for two scores: 30 bytes written and 4 patched, 30 read, one truncation;
8 + 30 + 22 read. -/
theorem test_access_counts :
    (match beginInstr .svWrite twoScores with
      | .next t => accessCounts (seqTrace 70 t)
      | .fault _ => (0, 0, 0)
      | .refused _ => (0, 0, 0)) = (30, 34, 1) ∧
    (match beginInstr .svRead (onFile fileV47 base) with
      | .next t => accessCounts (seqTrace 70 t)
      | .fault _ => (0, 0, 0)
      | .refused _ => (0, 0, 0)) = (60, 0, 0) := by decide +kernel

/-- R13: the file is removed once SV.READ has fetched the header; the pass then finds an empty file (checksum 1), and the
command ends with TamperError. `bi` is the byte index in the header (R50). -/
theorem test_removed_file :
    (match beginInstr .svRead (onFile fileV47 base) with
      | .next t =>
        match seqRun 8 t with
        | .next u =>
          match seqRun 80 (applyEnv .removeFile u) with
          | .next v => some (u.seq.fp, u.seq.bi, decide v.idle, v.err, v.result)
          | .fault _ => none
          | .refused _ => none
        | .fault _ => none
        | .refused _ => none
      | .fault _ => none
      | .refused _ => none) = some (7, 7, true, .tamperError, 1) := by decide +kernel

/-! ### Witnesses: for each statement with hypotheses, concrete values that meet them all, clause by clause -/

/-- A busy state: SV.WRITE on the two-score Save, three accesses in. -/
def busy : State :=
  { twoScores with seq := { Sequencer.rest with phase := .w1, fp := 2, bi := 2, cut := true },
                   fs := { present := true, wrOk := true, len := 2, data := [] } }

/-- Two bytes with a register read and a failing SC.GET around them. -/
def mixture : List (Input ⊕ Byte) := [.inl (.hostRead 1), .inr 0x61, .inl (.hostWrite cmdReg 0x0000001B), .inr 0x62]

theorem witness_DecodeAndEncodeAgree : (Instr.scPut 255).wellFormed = true ∧ decode 0x0000FF1C = .command (.scPut 255) := by
  decide
theorem witness_IllegalWordsSetTheCodeAndNothingElse :
    ({ State.reset with inbox := [.hostWrite cmdReg 0x0000001D, .tick] } : State).idle ∧
    decode 0x0000001D = .illegal .unassignedOpcode ∧ decode 0x00010005 = .illegal .reservedBits ∧
    decode 0x00000118 = .illegal .immediateNotZero := by decide
theorem witness_StepRunsTheDecodedCommand :
    ({ State.reset with inbox := [.hostWrite cmdReg 0x0000FE1C, .tick] } : State).seq.phase = .idle ∧
    decode 0x0000FE1C = .command (.scPut 254) ∧ (Instr.scPut 254).wellFormed = true := by decide
theorem witness_AdlRstAndCkInitSetTheEngine : (engine 65520 65520 0 127).idle := by decide
theorem witness_AdlByteTakesOneByte : (engine 65520 65520 1 0).idle ∧ (engine 0 0 1 127).idle := by decide
theorem witness_ReductionIsAtMostOneSubtraction :
    (Engine.mk 65520 65520 1 127).inRange ∧ (Engine.mk 0 0 1 0).inRange := by decide
theorem witness_AdlValDeliversTheSums : (engine 7 8 1 0).idle ∧
    ∃ t, exec .adlRst (engine 7 8 1 0) = .next t ∧ t.ce.a = 1 :=
  ⟨by decide, exists_next _ _ (·.ce.a) _ (by decide)⟩
theorem witness_CkPushFoldsTheFullChunk : (engine 1 0 1 127).idle ∧ (engine 1 0 1 127).ce.n.toNat = 127 ∧
    (engine 1 0 1 126).idle ∧ (engine 1 0 1 126).ce.n.toNat ≠ 127 ∧ (engine 1 0 1 0).ce.n.toNat ≠ 127 := by decide
theorem witness_CkEndClosesTheOpenChunk : (engine 1 0 1 1).idle ∧ (engine 1 0 1 1).ce.n ≠ 0 ∧
    (engine 1 0 1 127).ce.n ≠ 0 ∧ (engine 1 0 1 0).idle ∧ (engine 1 0 1 0).ce.n = 0 ∧
    ∃ t, exec .ckEnd (engine 1 0 1 127) = .next t ∧ t.ce.n = 0 :=
  ⟨by decide, by decide, by decide, by decide, by decide, exists_next _ _ (·.ce.n) _ (by decide)⟩
theorem witness_AdlSequenceGivesAdl32 :
    (∃ s : State, s.idle ∧ s.inbox = listing [.command .adlRst, .adlBytes [0x61, 0x62], .command .adlVal] ++ [.tick]) ∧
    (∀ ev : Input, .inl ev ∈ mixture → ev.outsideEngine = true) ∧
    ∃ s : State, s.idle ∧ s.inbox = commandInput .adlRst :: (interleaved .adlByte mixture ++ commandInput .adlVal :: []) :=
  ⟨⟨{ State.reset with inbox := listing [.command .adlRst, .adlBytes [0x61, 0x62], .command .adlVal] ++ [.tick] }, rfl, rfl⟩,
    by simp [mixture]; decide,
    ⟨{ State.reset with inbox := commandInput .adlRst :: (interleaved .adlByte mixture ++ commandInput .adlVal :: []) }, rfl, rfl⟩⟩
theorem witness_CkSequenceGivesFileSum :
    (∃ s : State, s.idle ∧ s.inbox = listing [.command .ckInit, .ckBytes [0x61, 0x62], .command .ckEnd] ++ [.tick]) ∧
    (∀ ev : Input, .inl ev ∈ mixture → ev.outsideEngine = true) ∧
    ∃ s : State, s.idle ∧ s.inbox = commandInput .ckInit :: (interleaved .ckPush mixture ++ commandInput .ckEnd :: []) :=
  ⟨⟨{ State.reset with inbox := listing [.command .ckInit, .ckBytes [0x61, 0x62], .command .ckEnd] ++ [.tick] }, rfl, rfl⟩,
    by simp [mixture]; decide,
    ⟨{ State.reset with inbox := commandInput .ckInit :: (interleaved .ckPush mixture ++ commandInput .ckEnd :: []) }, rfl, rfl⟩⟩
theorem witness_OneChunkDiffersFromTheSinglePassByTheSeed :
    1 ≤ ([0x61] : List Byte).length ∧ ([0x61] : List Byte).length ≤ 128 ∧
    (List.replicate 128 (0xFF : Byte)).length ≤ 128 := by decide +kernel
theorem witness_FsCsumAndFsCsumzSumTheFile :
    (base.idle ∧ base.fs.present = false) ∧ ((onFile [0x61] base).idle ∧ (onFile [0x61] base).fs.present = true) ∧
    (onFile [] base).fs.len = 0 ∧ (onFile [0x61] base).fs.len = 1 ∧ (onFile [0x61, 0x62, 0x63] base).fs.len = 3 ∧
    (twoScores.fs.wrOk = true ∧ twoScores.fs.data.wf) ∧
    (∃ t, exec .svWrite twoScores = .next t ∧ t.err = .success) ∧
    ∃ t, beginInstr .fsCsumz base = .next t ∧ t.err = .ioError :=
  ⟨by decide +kernel, by decide +kernel, by decide +kernel, by decide +kernel, by decide +kernel, by decide +kernel,
    exists_next _ _ (·.err) _ (by decide +kernel), exists_next .fsCsumz base (·.err) _ (by decide +kernel)⟩
theorem witness_ImageFollowsTheFileLayout :
    1 < twoScores.save.hdr.count.toNat ∧ 254 < (counted 255 base).save.hdr.count.toNat ∧
    twoScores.cfg.initialsW = .four ∧ (Config.mk .three 4096).initialsW = .three := by decide +kernel
theorem witness_SvWriteLeavesTheSealedImage :
    (let s := applyEnv (.setWrOk false) (onFile fileV47 base); s.idle ∧ s.fs.wrOk = false) ∧
    (twoScores.idle ∧ twoScores.fs.wrOk = true ∧ twoScores.fs.data.wf) ∧
    (let s := onFile fileV47 (counted 0 base); s.idle ∧ s.fs.wrOk = true ∧ s.fs.data.wf) := by decide +kernel
theorem witness_SvReadParsesOnlyAWholeSealedFile :
    (base.idle ∧ base.fs.present = false) ∧
    (let s := onFile (fileV47.take 7) base; s.fs.present = true ∧ s.fs.len < 8) ∧
    (let s := onFile (fileV47.take 29) base; s.fs.present = true ∧ 8 ≤ s.fs.len ∧
      s.fs.len < 8 + s.cfg.recLen * (s.fs.byteAt 7).toNat) ∧
    (let s := onFile fileV45 base; s.fs.present = true ∧ 8 ≤ s.fs.len ∧
      8 + s.cfg.recLen * (s.fs.byteAt 7).toNat ≤ s.fs.len ∧
      fileSum (zeroHead s.fs.bytes) = (headerOfBytes s.fs.bytes).cksum) ∧
    (let s := onFile (fileV47.set 0 0x86) base; s.fs.present = true ∧ 8 ≤ s.fs.len ∧
      8 + s.cfg.recLen * (s.fs.byteAt 7).toNat ≤ s.fs.len ∧
      fileSum (zeroHead s.fs.bytes) ≠ (headerOfBytes s.fs.bytes).cksum) := by decide +kernel
theorem witness_SvVerifyComparesWithArg : (base.idle ∧ base.fs.present = false) ∧
    ((onFile [] base).idle ∧ (onFile [] base).fs.present = true) := by decide +kernel
theorem witness_ReadsNeverWriteTheStore :
    (∃ t, exec .svRead (onFile fileV47 base) = .next t ∧ (t.err, (after .svRead t).map (·.err)) =
      (ResultCode.success, some .success)) ∧
    (∃ t, exec .fsCsumz (onFile fileV47 base) = .next t ∧ t.err = .success) :=
  ⟨exists_next _ _ (fun t => (t.err, (after .svRead t).map (·.err))) _ (by decide +kernel),
    exists_next _ _ (·.err) _ (by decide +kernel)⟩
theorem witness_WriteThenReadRestoresTheSave :
    ∃ s : State, s.idle ∧ s.fs.wrOk = true ∧ s.fs.data.wf ∧ s.save.hdr.count = 2 ∧
      s.inbox = listing [.command .svWrite, .command .svRead] ++ [] :=
  ⟨{ twoScores with inbox := listing [.command .svWrite, .command .svRead] ++ [] }, by decide +kernel, by decide +kernel,
    by decide +kernel, by decide +kernel, rfl⟩
theorem witness_OneChangedByteIsAlwaysDetected :
    (let s := onFile (fileV47.set 7 3) base
     s.fs.present = true ∧ (parse s.cfg fileV47).isSome = true ∧
      (parse s.cfg fileV47).map (fun p => p.1.cksum) = some (fileSum (zeroHead fileV47)) ∧ 7 < fileV47.length ∧
      (3 : Byte) ≠ fileV47.getD 7 0 ∧ s.fs.bytes = fileV47.set 7 3) ∧
    (let s := onFile (fileV47.set 29 1) base
     s.fs.present = true ∧ 29 < fileV47.length ∧ (1 : Byte) ≠ fileV47.getD 29 0 ∧ s.fs.bytes = fileV47.set 29 1) ∧
    (let s := onFile (fileV45.set 7 1) base
     s.fs.present = true ∧ (parse s.cfg fileV45).map (fun p => p.1.cksum) = some (fileSum (zeroHead fileV45)) ∧
      7 < fileV45.length ∧ (1 : Byte) ≠ fileV45.getD 7 0 ∧ s.fs.bytes = fileV45.set 7 1) ∧
    (List.replicate 128 (0xFF : Byte)).length = 128 := by decide +kernel
theorem witness_SvAppendAddsTheStagingScore :
    ((counted 255 base).idle ∧ (counted 255 base).save.hdr.count.toNat = 255) ∧
    ((counted 254 base).idle ∧ (counted 254 base).save.hdr.count.toNat ≠ 255) ∧
    (base.idle ∧ base.save.hdr.count.toNat ≠ 255) := by decide +kernel
theorem witness_SvNewAndSvInitMakeANewSave : State.reset.idle ∧ twoScores.idle := by decide +kernel
theorem witness_ScGetCopiesASlotToStaging :
    ((counted 255 base).idle ∧ (counted 255 base).save.hdr.count.toNat ≤ (255 : Byte).toNat) ∧
    ((0 : Byte).toNat < twoScores.save.hdr.count.toNat ∧ (254 : Byte).toNat < (counted 255 base).save.hdr.count.toNat) ∧
    base.save.hdr.count.toNat ≤ (0 : Byte).toNat := by decide +kernel
theorem witness_ScPutCopiesStagingToASlot :
    (twoScores.idle ∧ twoScores.save.hdr.count.toNat ≤ (2 : Byte).toNat) ∧
    ((1 : Byte).toNat < twoScores.save.hdr.count.toNat ∧ (254 : Byte).toNat < (counted 255 base).save.hdr.count.toNat) :=
  by decide +kernel
theorem witness_ScPutThenScGetGivesTheScoreBack :
    ∃ t, exec (.scPut 254) (loadStaging dbj (counted 255 base)) = .next t ∧ t.err = .success :=
  exists_next _ _ (·.err) _ (by decide +kernel)
theorem witness_HostFedCommandsMakeNoAccess :
    Instr.ckEnd ∈ [Instr.adlRst, .adlVal, .ckInit, .ckEnd, .svAppend] ∧
    (∃ t, beginInstr .ckEnd base = .next t ∧ t.err = .success) ∧
    ∃ t, beginInstr (.scGet 255) base = .next t ∧ t.err = .boundsError :=
  ⟨by decide, exists_next .ckEnd base (·.err) _ (by decide +kernel),
    exists_next (.scGet 255) base (·.err) _ (by decide +kernel)⟩
theorem witness_TamperIsWrittenByVerificationAlone :
    (∃ t, exec .adlVal base = .next t ∧ t.err = .success) ∧ (∃ t, exec .svRead base = .next t ∧ t.err = .ioError) ∧
    (∃ t, exec .svRead (onFile [] base) = .next t ∧ t.err = .parseError) ∧
    (∃ t, exec .svVerify (onFile [] base) = .next t ∧ t.err = .success) ∧
    (∃ t, exec .svRead (onFile fileV45 base) = .next t ∧ t.err = .success) ∧
    (∃ t, exec .svRead (onFile (fileV45.set 6 1) base) = .next t ∧ t.err = .tamperError) :=
  ⟨exists_next _ _ (·.err) _ (by decide +kernel), exists_next _ _ (·.err) _ (by decide +kernel),
    exists_next _ _ (·.err) _ (by decide +kernel), exists_next _ _ (·.err) _ (by decide +kernel),
    exists_next _ _ (·.err) _ (by decide +kernel), exists_next _ _ (·.err) _ (by decide +kernel)⟩
theorem witness_ResultIsWrittenByItsProducersAlone :
    (Instr.scPut 0 ∉ [Instr.adlVal, .ckEnd, .fsCsum, .fsCsumz, .svWrite, .svVerify, .svRead] ∧
      ∃ t, exec (.scPut 0) twoScores = .next t ∧ t.err = .success) ∧
    ∃ t, exec .svVerify base = .next t ∧ t.err = .ioError :=
  ⟨⟨by decide, exists_next _ _ (·.err) _ (by decide +kernel)⟩, exists_next _ _ (·.err) _ (by decide +kernel)⟩
theorem witness_OperandRegistersBelongToTheHost :
    (∀ idx, Instr.scPut 0 ≠ .scGet idx) ∧ ∃ t, exec (.scPut 0) twoScores = .next t ∧ t.err = .success :=
  ⟨nofun, exists_next _ _ (·.err) _ (by decide +kernel)⟩
theorem witness_EngineIsWrittenByChecksumWorkAlone :
    (Instr.svAppend ∈ [Instr.adlVal, .svAppend] ∧ ∃ t, exec .svAppend base = .next t ∧ t.err = .success) ∧
    (∃ t, exec (.adlByte 9) (engine 1 0 5 127) = .next t ∧ t.ce.n = 127) ∧
    (∃ t, exec .fsCsum (engine 1 0 5 127) = .next t ∧ t.err = .ioError) :=
  ⟨⟨by decide, exists_next _ _ (·.err) _ (by decide +kernel)⟩, exists_next _ _ (·.ce.n) _ (by decide +kernel),
    exists_next _ _ (·.err) _ (by decide +kernel)⟩
theorem witness_CountNeverWraps :
    (∃ t, exec (.svInit 255) base = .next t ∧ t.save.hdr.count = 255) ∧
    (∃ t, exec .svAppend (counted 254 base) = .next t ∧ t.save.hdr.count = 255) ∧
    ∃ t, exec .svRead (onFile fileV47 base) = .next t ∧ t.save.hdr.count = 2 :=
  ⟨exists_next _ _ (·.save.hdr.count) _ (by decide +kernel), exists_next _ _ (·.save.hdr.count) _ (by decide +kernel),
    exists_next _ _ (·.save.hdr.count) _ (by decide +kernel)⟩
theorem witness_SlotsPastTheCountAreNeverRead :
    (∀ j, j < twoScores.save.hdr.count.toNat →
      (Save.mk twoScores.save.hdr (twoScores.save.putSlot 2 dbj).slots).slot j = twoScores.save.slot j) ∧
    (Save.mk twoScores.save.hdr (twoScores.save.putSlot 2 dbj).slots).slot 2 ≠ twoScores.save.slot 2 ∧
    ∃ t, exec .svWrite twoScores = .next t ∧ t.err = .success :=
  ⟨by decide +kernel, by decide +kernel, exists_next _ _ (·.err) _ (by decide +kernel)⟩
theorem witness_BytesPastTheLengthAreNeverRead :
    (let s := onFile (fileV47.take 8) base
     let f := { s.fs with data := s.fs.data.writeByte 8 0xFF }
     s.fs.data.wf ∧ f.data.wf ∧ f.present = s.fs.present ∧ f.wrOk = s.fs.wrOk ∧ f.len = s.fs.len ∧
      (∀ off, off < s.fs.len → f.byteAt off = s.fs.byteAt off) ∧ f.byteAt 8 ≠ s.fs.byteAt 8) ∧
    ∃ t, exec .fsCsum (onFile (fileV47.take 8) base) = .next t ∧ t.err = .success :=
  ⟨by decide +kernel, exists_next _ _ (·.err) _ (by decide +kernel)⟩
theorem witness_StoredChecksumIsNoInput :
    (∃ t, exec .svWrite twoScores = .next t ∧ t.err = .success) ∧ ∃ t, exec .adlVal base = .next t ∧ t.err = .success :=
  ⟨exists_next _ _ (·.err) _ (by decide +kernel), exists_next _ _ (·.err) _ (by decide +kernel)⟩
theorem witness_ErrorsHaveTheirCausesAndCodes :
    (∃ t, exec .svWrite (applyEnv (.setWrOk false) base) = .next t ∧ t.err = .ioError) ∧
    (∃ t, exec .fsCsum base = .next t ∧ t.err = .ioError) ∧
    (∃ t, exec .svRead (onFile (fileV47.take 7) base) = .next t ∧ t.err = .parseError) ∧
    (∃ t, exec .svRead (onFile (fileV47.take 29) base) = .next t ∧ t.err = .parseError) ∧
    (∃ t, exec .svRead (onFile (fileV47.set 0 0x86) base) = .next t ∧ t.err = .tamperError) ∧
    (∃ t, exec .svAppend (counted 255 base) = .next t ∧ t.err = .capacityError) ∧
    (∃ t, exec (.scPut 2) twoScores = .next t ∧ t.err = .boundsError) :=
  ⟨exists_next _ _ (·.err) _ (by decide +kernel), exists_next _ _ (·.err) _ (by decide +kernel),
    exists_next _ _ (·.err) _ (by decide +kernel), exists_next _ _ (·.err) _ (by decide +kernel),
    exists_next _ _ (·.err) _ (by decide +kernel), exists_next _ _ (·.err) _ (by decide +kernel),
    exists_next _ _ (·.err) _ (by decide +kernel)⟩
/-- The cases of this statement are reached by the states of `witness_ErrorsHaveTheirCausesAndCodes`. -/
theorem witness_ErrorsLeaveEverythingElseAsItWas :
    (counted 255 base).idle ∧ (∃ t, exec .svAppend (counted 255 base) = .next t ∧ t.err = .capacityError) ∧
    (onFile (fileV47.set 0 0x86) base).idle ∧ decode 0x00010005 = .illegal .reservedBits :=
  ⟨by decide +kernel, exists_next _ _ (·.err) _ (by decide +kernel), by decide +kernel, by decide⟩
theorem witness_RegistersShowTheirFields : (onFile fileV47 base).fs.len < 8192 := by decide +kernel
theorem witness_RegisterWritesShowInThatRegisterAlone :
    (1 : BitVec 6) ≠ cmdReg ∧ (63 : BitVec 6) ≠ cmdReg ∧ (3 : BitVec 6) ∈ ([3, 5, 8, 9] : List (BitVec 6)) ∧
    (7 : BitVec 6) ∈ ([4, 7] : List (BitVec 6)) ∧ (13 : BitVec 6) ∉ ([3, 4, 5, 6, 7, 8, 9] : List (BitVec 6)) ∧
    (0 : BitVec 6) ≠ 63 := by decide
theorem witness_StrayAccessesAreIgnored :
    14 ≤ (14 : BitVec 6).toNat ∧ 14 ≤ (63 : BitVec 6).toNat ∧
    (13 : BitVec 6) ∈ ([1, 2, 10, 11, 12, 13] : List (BitVec 6)) ∧ (6 : BitVec 6) ∈ ([4, 6, 7] : List (BitVec 6)) ∧
    (0xFF1A0B08 : Word) &&& 0x00FFFFFF#32 = (0x001A0B08 : Word) &&& 0x00FFFFFF#32 := by decide
theorem witness_PseudoInstructionsLoadTheRegisters :
    (∃ s : State, s.idle ∧ s.inbox = listing [.score 255 0 255 0xFFFFFFFF 0 255 0 255] ++ [.tick]) ∧
    (∃ s : State, s.idle ∧ s.inbox = listing [.now 27 4 24] ++ []) ∧
    ∃ s : State, s.idle ∧ s.inbox = listing [.date 255 255 255] ++ [] :=
  ⟨⟨{ base with inbox := listing [.score 255 0 255 0xFFFFFFFF 0 255 0 255] ++ [.tick] }, rfl, rfl⟩,
    ⟨{ base with inbox := listing [.now 27 4 24] ++ [] }, rfl, rfl⟩,
    ⟨{ base with inbox := listing [.date 255 255 255] ++ [] }, rfl, rfl⟩⟩
theorem witness_ResetGivesTheResetState :
    ({ busy with inbox := [.reset, .tick] } : State).inbox = .reset :: [.tick] ∧ busy.seq.phase ≠ .idle := by decide
theorem witness_EnvironmentChangesTheStoreAlone :
    ({ busy with inbox := [.env .removeFile] } : State).inbox = .env .removeFile :: [] ∧
    (fileV47.length ≤ busy.cfg.fsCap ∧ busy.fs.data.wf) ∧ (busy.fs.present = true ∧ 4096 ≤ busy.cfg.fsCap) ∧
    4095 < busy.cfg.fsCap := by decide
theorem witness_BusyPortHoldsHostAccesses :
    busy.seq.phase ≠ .idle ∧ ({ busy with inbox := [.hostRead 1] } : State).inbox = .hostRead 1 :: [] ∧
    ∃ t, step { busy with inbox := [.hostRead 1] } = .next t ∧ t.fs.len = 3 :=
  ⟨by decide, rfl, exists_step _ (·.fs.len) _ (by decide +kernel)⟩
theorem witness_OnlySvWriteAndTheEnvironmentChangeTheStore :
    (∃ t, step { twoScores with inbox := [commandInput .svWrite] } = .next t ∧ t.fs.len = 30) ∧ twoScores.fs.len = 0 ∧
    (∃ t, step busy = .next t ∧ t.fs.len = 3) ∧ busy.fs.len = 2 ∧
    (∃ t, step { onFile fileV47 base with inbox := [.env .removeFile] } = .next t ∧ t.fs.len = 0) ∧
    (onFile fileV47 base).fs.len = 30 :=
  ⟨exists_step _ (·.fs.len) _ (by decide +kernel), by decide +kernel, exists_step _ (·.fs.len) _ (by decide +kernel),
    by decide +kernel, exists_step _ (·.fs.len) _ (by decide +kernel), by decide +kernel⟩
theorem witness_ConfigurationNeverChanges : ∃ t, step busy = .next t ∧ t.seq.fp = 3 :=
  exists_step _ (·.seq.fp) _ (by decide +kernel)
theorem witness_SumsStayReduced :
    (engine 65520 65520 1 127).ce.a.toNat ≤ 65520 ∧ (engine 65520 65520 1 127).ce.b.toNat ≤ 65520 ∧
    ∃ t, step { engine 65520 65520 1 127 with inbox := [commandInput (.adlByte 1)] } = .next t ∧ t.ce.a = 0 :=
  ⟨by decide, by decide, exists_step _ (·.ce.a) _ (by decide +kernel)⟩
theorem witness_StepKeepsTheMachineInvariant : busy.Inv ∧ ∃ t, step busy = .next t ∧ t.seq.fp = 3 :=
  ⟨by decide +kernel, exists_step _ (·.seq.fp) _ (by decide +kernel)⟩
theorem witness_SequencerPointersFitTheirWidths : busy.Inv ∧ busy.cfg.fsCap = 4096 := by decide +kernel
theorem witness_AccessByAccessRunHasTheWholeEffect : twoScores.idle ∧ twoScores.cfg.legal := by decide +kernel
theorem witness_AccessesComeInTheListedOrder :
    (twoScores.idle ∧ twoScores.cfg.legal ∧ twoScores.fs.wrOk = true ∧ twoScores.fs.data.wf) ∧
    (let s := onFile fileV45 base; s.idle ∧ s.cfg.legal ∧ s.fs.present = true ∧ 8 ≤ s.fs.len) ∧
    (let s := onFile [] base; s.idle ∧ s.cfg.legal ∧ s.fs.present = true) ∧
    Instr.svVerify ∈ [Instr.fsCsum, .fsCsumz, .svVerify] := by decide +kernel
theorem witness_EveryCommandEndsAfterTheListedAccesses :
    ((counted 255 base).idle ∧ (counted 255 base).cfg.legal) ∧ (base.idle ∧ decode 0xFFFFFFFF = .illegal .reservedBits) := by
  decide +kernel
theorem witness_TransientFilesOfSvWrite :
    (let s := counted 0 base; s.idle ∧ s.cfg.legal ∧ s.fs.wrOk = true ∧ s.fs.data.wf) ∧
    (let s := onFile fileV47 (counted 255 base); s.idle ∧ s.cfg.legal ∧ s.fs.wrOk = true ∧ s.fs.data.wf) := by
  decide +kernel

/-- A busy state whose file the environment has removed before the third header byte of SV.READ. -/
def robbed : State :=
  { base with seq := { Sequencer.rest with phase := .r1, fp := 2, bi := 2, buf := [0x87, 0x04], len := 30 } }

theorem witness_AccessesRunAgainstTheStoreAsItStands :
    (seqAccess robbed = some (.read 2) ∧ ¬(robbed.fs.present = true ∧ 2 < robbed.fs.len)) ∧
    (let s := { robbed with fs := (onFile fileV47 base).fs }
     seqAccess s = some (.read 2) ∧ s.fs.present = true ∧ 2 < s.fs.len) ∧
    (busy.fs.ok busy.cfg.fsCap ∧ seqAccess busy = some (.write 2 0) ∧ busy.fs.present = true ∧ 2 = busy.fs.len ∧
      2 < busy.cfg.fsCap) ∧
    (let s := { busy with fs := { busy.fs with len := 1 } }
     s.fs.ok s.cfg.fsCap ∧ seqAccess s = some (.write 2 0) ∧ ¬(2 < s.fs.len ∨ (2 = s.fs.len ∧ 2 < s.cfg.fsCap))) := by
  decide +kernel
theorem witness_CommandsEndWhateverTheEnvironmentDoes :
    robbed.Inv ∧ robbed.cfg.fsCap + robbed.cfg.fileLen slotCount + 6 ≤
      (Input.env .removeFile :: List.replicate 7000 Input.tick).count .tick ∧ robbed.seq.phase ≠ .idle ∧
    ∀ ev ∈ Input.env .removeFile :: List.replicate 7000 Input.tick, ev = .tick ∨ ∃ act, ev = .env act := by
  refine ⟨by decide +kernel, ?_, by decide, fun ev h => ?_⟩
  · rw [List.count_cons_of_ne (by decide), List.count_replicate_self]
    decide
  · rcases List.mem_cons.1 h with rfl | h
    · exact .inr ⟨_, rfl⟩
    · exact .inl (List.eq_of_mem_replicate h)

end Sys2Proof.Tests
end

section
/-! PROOFS. The environment changes the store alone (O47), no step changes the configuration (O50), and accesses run against
the store as it stands (O59). -/

namespace Sys2Proof.Machine

/-! ### How a command begins access by access -/

/-- Beginning a command, by cases: it is over at once, as the one-step command is, or it stands before its first access. -/
theorem beginInstr_cases (i : Instr) (s : State) :
    beginInstr i s = exec i s ∨
    (i = .svWrite ∧ s.fs.wrOk = true ∧ beginInstr i s = .next { s with seq := { Sequencer.rest with phase := .w1 } }) ∨
    (i = .svRead ∧ s.fs.present = true ∧ headerLen ≤ s.fs.len ∧
      beginInstr i s = .next { s with seq := { Sequencer.rest with phase := .r1, len := s.fs.len } }) ∨
    ∃ op, (i, op) ∈ [(Instr.fsCsum, PassOp.csum), (.fsCsumz, .csumz), (.svVerify, .verify)] ∧ s.fs.present = true ∧
      beginInstr i s = .next (startPass .v1 { s with seq := { Sequencer.rest with op := op } }) := by
  cases i with
  | fsCsum =>
    by_cases h : s.fs.present = false
    · exact .inl (by simp [beginInstr, beginPass, exec, execFsCsum, sumFile, h])
    · exact .inr (.inr (.inr ⟨.csum, by simp, by simpa using h, if_neg h⟩))
  | fsCsumz =>
    by_cases h : s.fs.present = false
    · exact .inl (by simp [beginInstr, beginPass, exec, execFsCsumz, sumFile, h])
    · exact .inr (.inr (.inr ⟨.csumz, by simp, by simpa using h, if_neg h⟩))
  | svVerify =>
    by_cases h : s.fs.present = false
    · exact .inl (by simp [beginInstr, beginPass, exec, execSvVerify, h])
    · exact .inr (.inr (.inr ⟨.verify, by simp, by simpa using h, if_neg h⟩))
  | svWrite =>
    by_cases h : s.fs.wrOk = false
    · exact .inl (by simp [beginInstr, beginSvWrite, exec, execSvWrite, h])
    · exact .inr (.inl ⟨rfl, by simpa using h, if_neg h⟩)
  | svRead =>
    by_cases h : s.fs.present = false
    · exact .inl (by simp [beginInstr, beginSvRead, exec, execSvRead, h])
    · by_cases hl : s.fs.len < headerLen
      · exact .inl (by simp [beginInstr, beginSvRead, exec, execSvRead, h, hl])
      · exact .inr (.inr (.inl ⟨rfl, by simpa using h, by omega, by simp [beginInstr, beginSvRead, h, hl]⟩))
  | adlRst => exact .inl rfl
  | adlByte d => exact .inl rfl
  | adlVal => exact .inl rfl
  | ckInit => exact .inl rfl
  | ckPush d => exact .inl rfl
  | ckEnd => exact .inl rfl
  | svAppend => exact .inl rfl
  | svNew n => exact .inl rfl
  | svInit n => exact .inl rfl
  | scGet idx => exact .inl rfl
  | scPut idx => exact .inl rfl

/-- Beginning a command always answers a next state, and keeps the configuration. -/
theorem beginInstr_next (i : Instr) (s : State) : ∃ t, beginInstr i s = .next t ∧ t.cfg = s.cfg := by
  rcases beginInstr_cases i s with h | ⟨-, -, h⟩ | ⟨-, -, -, h⟩ | ⟨op, -, -, h⟩ <;> rw [h]
  · obtain ⟨code, m, he, hc, -⟩ := exec_eq_finish i s
    exact ⟨_, he, hc⟩
  · exact ⟨_, rfl, rfl⟩
  · exact ⟨_, rfl, rfl⟩
  · exact ⟨_, rfl, rfl⟩

/-! ### The two views of a write to CMD -/

/-- A write to CMD always answers a next state, and keeps the configuration. -/
theorem issueCommand_next (w : Word) (s : State) : ∃ t, issueCommand w s = .next t ∧ t.cfg = s.cfg := by
  rcases issueCommand_cases w s with ⟨i, -, h⟩ | ⟨why, -, h⟩ <;> rw [h]
  · obtain ⟨code, m, he, hc, -⟩ := exec_eq_finish i s
    exact ⟨_, he, hc⟩
  · exact ⟨_, rfl, rfl⟩

/-- Beginning a word: a command begins, or it is IllegalCommand at once. -/
theorem beginCommand_cases (w : Word) (s : State) :
    (∃ i, decode w = .command i ∧ beginCommand w s = beginInstr i s) ∨
      (∃ why, decode w = .illegal why ∧ beginCommand w s = .next (finish .illegalCommand s)) := by
  unfold beginCommand
  rcases decode w with i | why
  · exact .inl ⟨i, rfl, rfl⟩
  · exact .inr ⟨why, rfl, rfl⟩

/-- A write to CMD seen access by access always answers a next state, and keeps the configuration. -/
theorem beginCommand_next (w : Word) (s : State) : ∃ t, beginCommand w s = .next t ∧ t.cfg = s.cfg := by
  rcases beginCommand_cases w s with ⟨i, -, h⟩ | ⟨why, -, h⟩ <;> rw [h]
  · exact beginInstr_next i s
  · exact ⟨_, rfl, rfl⟩

/-! ### Every step answers a next state and keeps the configuration -/

/-- An IDLE block answers every event, and keeps the configuration. -/
theorem takeWhenIdle_next (ev : Input) (s : State) : ∃ t, takeWhenIdle ev s = .next t ∧ t.cfg = s.cfg := by
  cases ev with
  | hostWrite reg v =>
    simp only [takeWhenIdle, hostWrite]
    split
    · exact issueCommand_next v s
    · exact ⟨_, rfl, (regWrite_keeps reg v s).2.1⟩
  | startCommand w => exact beginCommand_next w s
  | hostRead reg => exact ⟨_, rfl, rfl⟩
  | reset => exact ⟨_, rfl, rfl⟩
  | env act => exact ⟨_, rfl, rfl⟩
  | tick => exact ⟨_, rfl, rfl⟩

/-- The sequencer always goes on, and keeps the configuration. -/
theorem seqStep_next_cfg (s : State) : ∃ t, seqStep s = .next t ∧ t.cfg = s.cfg := by
  obtain ⟨t, h⟩ := seqStep_next s
  obtain ⟨-, -, -, hc, -⟩ := seqStep_keeps s t h
  exact ⟨t, h, hc⟩

/-- No step stops (`spec/00_scope.md` R15), and none changes the configuration (R14). -/
theorem step_next (s : State) : ∃ t, step s = .next t ∧ t.cfg = s.cfg := by
  unfold step
  split
  · unfold stepIdle
    split
    · exact ⟨s, rfl, rfl⟩
    · exact takeWhenIdle_next _ s.dropEvent
  · unfold stepBusy
    split
    · exact seqStep_next_cfg s
    · exact seqStep_next_cfg s
    · exact seqStep_next_cfg s
    · exact seqStep_next_cfg s
    · exact ⟨_, rfl, rfl⟩
    · exact ⟨_, rfl, rfl⟩
    · exact seqStep_next_cfg s.dropEvent

/-! ### Accesses against the store as it stands -/

/-- A step whose access the store permits. -/
theorem seqStep_of_permits {s : State} {acc : FsAccess} (ha : seqAccess s = some acc)
    (hp : s.fs.permits s.cfg.fsCap acc = true) :
    seqStep s = .next (seqTake (s.fs.answer acc) (s.setFs (s.fs.perform acc))) := by
  simp [seqStep, ha, hp]

/-- A step whose access the environment has put astray. -/
theorem seqStep_of_not_permits {s : State} {acc : FsAccess} (ha : seqAccess s = some acc)
    (hp : ¬s.fs.permits s.cfg.fsCap acc = true) :
    seqStep s = .next (seqTake (Config.freeByte s.draws) (makeAstray acc s)) := by
  simp [seqStep, ha, hp]

/-- A step that makes no access. -/
theorem seqStep_of_no_access {s : State} (ha : seqAccess s = none) : seqStep s = .next (seqDecide s) := by
  simp [seqStep, ha]

/-- What R17 requires of a read. -/
theorem permits_read (fs : FileStore) (cap off : Nat) :
    fs.permits cap (.read off) = true ↔ fs.present = true ∧ off < fs.len := by
  simp [FileStore.permits]

/-- What R17 requires of a byte write. -/
theorem permits_write (fs : FileStore) (cap off : Nat) (b : Byte) :
    fs.permits cap (.write off b) = true ↔ fs.present = true ∧ (off < fs.len ∨ (off = fs.len ∧ off < cap)) := by
  simp [FileStore.permits]

/-- Two stores of the same length with the same bytes below it hold the same file. -/
theorem bytes_congr (f g : FileStore) (hl : f.len = g.len) (h : ∀ a, a < g.len → f.byteAt a = g.byteAt a) :
    f.bytes = g.bytes := by
  simp only [FileStore.bytes, readBytes_eq_map, hl, Nat.zero_add]
  exact List.map_congr_left fun a ha => h a (List.mem_range.1 ha)

/-- A byte write put astray changes no contents of the file. -/
theorem performAstray_write_bytes (fs : FileStore) (cap : Nat) (free : Byte) (off : Nat) (b : Byte) (h : fs.ok cap)
    (hp : ¬fs.permits cap (.write off b) = true) : (fs.performAstray cap free (.write off b)).bytes = fs.bytes := by
  obtain ⟨-, habsent, hwf, -⟩ := h
  obtain ⟨-, -, hlen, hbyte⟩ := performAstray_write fs cap free off b hwf
  refine bytes_congr _ _ hlen fun a ha => hbyte a ?_
  rintro rfl
  rw [permits_write] at hp
  by_cases hpres : fs.present = true
  · exact hp ⟨hpres, .inl ha⟩
  · have := habsent (by simpa using hpres)
    omega

end Sys2Proof.Machine

open Sys2Proof Sys2Proof.Machine

/-- Settles O50: every step answers a state with the configuration kept. -/
theorem configurationNeverChanges : Obligations.ConfigurationNeverChanges := by
  unfold Obligations.ConfigurationNeverChanges
  intro s t h
  obtain ⟨u, hu, hc⟩ := step_next s
  rw [hu] at h
  cases h
  exact hc

/-- Settles O47: the event lands as `envStore` does, busy or IDLE; each action is then read off the store. -/
theorem environmentChangesTheStoreAlone : Obligations.EnvironmentChangesTheStoreAlone := by
  unfold Obligations.EnvironmentChangesTheStoreAlone
  intro s act rest hb
  refine ⟨envStore s.cfg.fsCap act s.fs, step_env s act rest hb, ?_, ?_, ?_, ?_, ?_⟩
  · rintro bytes rfl hcap hwf
    rw [envStore, if_pos hcap]
    exact ⟨by simp, bytes_writeBytes s.fs.createTrunc hwf bytes (Nat.zero_le _), by simp⟩
  · rintro rfl
    rfl
  · rintro n rfl hpres hcap
    simp [envStore, hpres, hcap]
  · rintro off b rfl hcap hwf
    rw [envStore, if_pos hcap]
    exact ⟨rfl, fun a => readByte_writeByte s.fs.data hwf.1 off a b⟩
  · rintro ok rfl
    rfl

/-- Settles O59: the step by the requirement of R17, for a read and for a byte write. -/
theorem accessesRunAgainstTheStoreAsItStands : Obligations.AccessesRunAgainstTheStoreAsItStands := by
  unfold Obligations.AccessesRunAgainstTheStoreAsItStands
  constructor
  · intro s off ha
    rw [← permits_read s.fs s.cfg.fsCap]
    exact ⟨fun hp => seqStep_of_permits ha hp, fun hp => seqStep_of_not_permits ha hp⟩
  · intro s off b hok ha
    rw [← permits_write s.fs s.cfg.fsCap off b]
    have hwf : s.fs.data.wf := hok.2.2.1
    by_cases hp : s.fs.permits s.cfg.fsCap (.write off b) = true
    · refine ⟨s.fs.writeByte off b, s.draws, b, seqStep_of_permits ha hp, rfl, rfl, ?_, ?_, fun hn => absurd hp hn⟩
      · intro a hne
        rw [byteAt_writeByte _ hwf, if_neg hne]
      · intro _
        exact ⟨rfl, by rw [byteAt_writeByte _ hwf, if_pos rfl], rfl⟩
    · obtain ⟨hpres, hwr, hlen, hbyte⟩ :=
        performAstray_write s.fs s.cfg.fsCap (Config.freeByte s.draws) off b hwf
      exact ⟨s.fs.performAstray s.cfg.fsCap (Config.freeByte s.draws) (.write off b), s.draws + 1, _,
        seqStep_of_not_permits ha hp, hpres, hwr, hbyte, fun h => absurd h hp,
        fun _ => ⟨hlen, performAstray_write_bytes _ _ _ _ _ hok hp⟩⟩

end

section
/-! PROOFS. A running command ends, whatever the environment does meanwhile (O60): the steps it has before it are
bounded, and each of its own steps leaves fewer. -/

namespace Sys2Proof.Machine

/-! ### The sequencer's pointers, phase by phase -/

/-- A record is 10 or 11 bytes long (`spec/00_scope.md` R7). -/
theorem recLen_cases (c : Config) : c.recLen = 10 ∨ c.recLen = 11 := by
  obtain ⟨w, cap⟩ := c
  cases w
  · exact .inl rfl
  · exact .inr rfl

theorem recLen_pos (c : Config) : 0 < c.recLen := by
  rcases recLen_cases c with h | h <;> omega

theorem fileLen_eq (c : Config) (n : Nat) : c.fileLen n = 8 + c.recLen * n := rfl

/-- The phases that are a checksum pass. -/
def Phase.isPass (p : Phase) : Prop := p = .w3 ∨ p = .r3 ∨ p = .v1

section
variable {c : Config} {n : Nat} {q : Sequencer}

theorem inRecord_iff : q.inRecord c n = true ↔ q.fp = 8 + c.recLen * q.ri + q.bi ∧ q.bi < c.recLen ∧ q.ri < n := by
  simp [Sequencer.inRecord, recordBase, headerLen, and_assoc]

theorem fits_w1 (h : q.phase = .w1) :
    q.fits c n = true ↔ q.fp < 4 ∧ q.ri = 0 ∧ q.bi = q.fp ∧ (q.cut = true ∨ q.fp = 0) := by
  simp [Sequencer.fits, h, show cksumLen = 4 from rfl, and_assoc]

theorem fits_w2 (h : q.phase = .w2) :
    q.fits c n = true ↔ (4 ≤ q.fp ∧ q.fp < 8 ∧ q.ri = 0 ∧ q.bi = q.fp) ∨ q.inRecord c n = true := by
  simp [Sequencer.fits, h, show cksumLen = 4 from rfl, show headerLen = 8 from rfl, and_assoc]

theorem fits_w4 (h : q.phase = .w4) : q.fits c n = true ↔ q.fp < 4 ∧ q.ri = 0 ∧ q.bi = q.fp := by
  simp [Sequencer.fits, h, show cksumLen = 4 from rfl, and_assoc]

theorem fits_r1 (h : q.phase = .r1) :
    q.fits c n = true ↔ q.fp < 8 ∧ q.buf.length = q.fp ∧ q.ri = 0 ∧ q.bi = q.fp := by
  simp [Sequencer.fits, h, show headerLen = 8 from rfl, and_assoc]

theorem fits_r2 (h : q.phase = .r2) : q.fits c n = true ↔ q.fp < 8 ∧ q.ri = 0 ∧ q.bi = q.fp := by
  simp [Sequencer.fits, h, show headerLen = 8 from rfl, and_assoc]

theorem fits_r4 (h : q.phase = .r4) :
    q.fits c n = true ↔ q.buf.length = q.bi ∧ (q.inRecord c q.hdr.count.toNat = true ∨
      (q.fp = 8 + c.recLen * q.hdr.count.toNat ∧ q.ri = q.hdr.count.toNat ∧ q.bi = 0)) := by
  simp [Sequencer.fits, h, fileLen_eq, and_assoc]

theorem fits_pass (h : q.phase.isPass) :
    q.fits c n = true ↔ q.fp ≤ q.len ∧ q.len ≤ c.fsCap ∧ q.ri = 0 ∧ q.bi = 0 := by
  rcases h with h | h | h <;> simp [Sequencer.fits, h, and_assoc]

theorem fits_idle (h : q.phase = .idle) : q.fits c n = true ↔ q = Sequencer.rest := by
  simp [Sequencer.fits, h]

/-- The next byte of a header moves the file offset by one and no record index or latch. -/
theorem nextInHeader_eq (q : Sequencer) :
    nextInHeader q = { q with fp := q.fp + 1, bi := if q.fp + 1 < 8 then q.bi + 1 else 0 } := by
  by_cases h : q.fp + 1 < 8
  · rw [nextInHeader_inside q h, if_pos h]
  · rw [nextInHeader_last q h, if_neg h]

/-- The next byte of a record. -/
theorem nextInRecord_inside (h : q.bi + 1 < c.recLen) :
    nextInRecord c q = { q with fp := q.fp + 1, bi := q.bi + 1 } := if_pos h

/-- After the last byte of a record the next one begins, at its byte 0. -/
theorem nextInRecord_last (h : ¬q.bi + 1 < c.recLen) :
    nextInRecord c q = { q with fp := q.fp + 1, bi := 0, ri := q.ri + 1 } := if_neg h

/-- The next byte of a record moves the file offset by one. -/
theorem nextInRecord_fp (c : Config) (q : Sequencer) : (nextInRecord c q).fp = q.fp + 1 := by
  unfold nextInRecord
  split <;> rfl

/-- The next byte of a record keeps the phase. -/
theorem nextInRecord_phase (c : Config) (q : Sequencer) : (nextInRecord c q).phase = q.phase := by
  unfold nextInRecord
  split <;> rfl

/-- Inside `n` records the next byte is in one of them too, or stands at their end. -/
theorem nextInRecord_inRecord (h : q.inRecord c n = true) :
    (nextInRecord c q).inRecord c n = true ∨ (nextInRecord c q).fp = 8 + c.recLen * n ∧
      (nextInRecord c q).ri = n ∧ (nextInRecord c q).bi = 0 := by
  obtain ⟨hfp, hbi, hri⟩ := inRecord_iff.1 h
  by_cases hlast : q.bi + 1 < c.recLen
  · rw [nextInRecord_inside hlast]
    exact .inl (inRecord_iff.2 ⟨by simp only; omega, hlast, hri⟩)
  · rw [nextInRecord_last hlast]
    have hnext : q.fp + 1 = 8 + c.recLen * (q.ri + 1) := by
      rw [Nat.mul_succ]
      omega
    by_cases hn : q.ri + 1 < n
    · exact .inl (inRecord_iff.2 ⟨hnext, recLen_pos c, hn⟩)
    · have : n = q.ri + 1 := by omega
      subst this
      exact .inr ⟨hnext, rfl, rfl⟩

/-- Inside `n` records the file offset is below the end of the last one. -/
theorem inRecord_lt (h : q.inRecord c n = true) : q.fp < 8 + c.recLen * n := by
  obtain ⟨hfp, hbi, hri⟩ := inRecord_iff.1 h
  have := Nat.mul_le_mul_left c.recLen (show q.ri + 1 ≤ n from hri)
  rw [Nat.mul_succ] at this
  omega

/-- Where the header ends, a file of `n` records stands at the first of them, or at its end if there is none. -/
theorem inRecord_first (hfp : q.fp = 8) (hri : q.ri = 0) (hbi : q.bi = 0) (hn : 0 < n) : q.inRecord c n = true :=
  inRecord_iff.2 ⟨by rw [hfp, hri, hbi]; rfl, by rw [hbi]; exact recLen_pos c, by rw [hri]; exact hn⟩

end

/-! ### What the sequencer does with the byte of an access: an equation per case -/

section
variable {s : State} (b : Byte)

theorem seqTake_w1_truncate (hp : s.seq.phase = .w1) (hc : s.seq.cut = false) :
    seqTake b s = { s with seq := { s.seq with cut := true } } := by
  simp [seqTake, hp, hc]

theorem seqTake_w1_inside (hp : s.seq.phase = .w1) (hc : s.seq.cut = true) (h : s.seq.fp + 1 < 4) :
    seqTake b s = { s with seq := { s.seq with fp := s.seq.fp + 1, bi := s.seq.bi + 1 } } := by
  simp [seqTake, hp, hc, show cksumLen = 4 from rfl, h, nextInHeader_inside s.seq (by omega)]

theorem seqTake_w1_last (hp : s.seq.phase = .w1) (hc : s.seq.cut = true) (h : s.seq.fp = 3) :
    seqTake b s = { s with seq := { s.seq with phase := .w2, fp := s.seq.fp + 1, bi := s.seq.bi + 1 } } := by
  simp [seqTake, hp, hc, show cksumLen = 4 from rfl, h, nextInHeader_inside s.seq (by omega)]

theorem seqTake_w2_last (hp : s.seq.phase = .w2) (h : s.seq.fp + 1 = s.cfg.fileLen s.save.hdr.count.toNat) :
    seqTake b s = startPass .w3 s := by
  simp [seqTake, hp, h]

theorem seqTake_w2_header (hp : s.seq.phase = .w2) (h : s.seq.fp + 1 ≠ s.cfg.fileLen s.save.hdr.count.toNat)
    (h8 : s.seq.fp < 8) :
    seqTake b s =
      { s with seq := { s.seq with fp := s.seq.fp + 1, bi := if s.seq.fp + 1 < 8 then s.seq.bi + 1 else 0 } } := by
  simp [seqTake, hp, h, show headerLen = 8 from rfl, h8, nextInHeader_eq]

theorem seqTake_w2_record (hp : s.seq.phase = .w2) (h : s.seq.fp + 1 ≠ s.cfg.fileLen s.save.hdr.count.toNat)
    (h8 : 8 ≤ s.seq.fp) : seqTake b s = { s with seq := nextInRecord s.cfg s.seq } := by
  simp [seqTake, hp, h, show headerLen = 8 from rfl, Nat.not_lt.2 h8]

/-- In a pass the sequencer takes the byte read into the engine. -/
theorem seqTake_pass (hp : s.seq.phase.isPass) : seqTake b s = takePassByte b s := by
  rcases hp with hp | hp | hp <;> simp [seqTake, hp]

theorem seqTake_w4_inside (hp : s.seq.phase = .w4) (h : s.seq.fp + 1 < 4) :
    seqTake b s = { s with seq := { s.seq with fp := s.seq.fp + 1, bi := s.seq.bi + 1 } } := by
  simp [seqTake, hp, show cksumLen = 4 from rfl, h, nextInHeader_inside s.seq (by omega)]

theorem seqTake_w4_last (hp : s.seq.phase = .w4) (h : ¬s.seq.fp + 1 < 4) :
    seqTake b s = finish .success
      ((s.setSave { s.save with hdr := { s.save.hdr with cksum := s.ce.x } }).setResult s.ce.x) := by
  simp [seqTake, hp, show cksumLen = 4 from rfl, h]

theorem seqTake_r1_inside (hp : s.seq.phase = .r1) (h : s.seq.fp + 1 < 8) :
    seqTake b s =
      { s with seq := { s.seq with fp := s.seq.fp + 1, bi := s.seq.bi + 1, buf := s.seq.buf ++ [b] } } := by
  simp [seqTake, hp, show headerLen = 8 from rfl, h, nextInHeader_inside s.seq h]

theorem seqTake_r1_last (hp : s.seq.phase = .r1) (h : ¬s.seq.fp + 1 < 8) :
    seqTake b s =
      { s with seq := { s.seq with phase := .r2, buf := [], hdr := headerOfBytes (s.seq.buf ++ [b]) } } := by
  simp [seqTake, hp, show headerLen = 8 from rfl, h]

theorem seqTake_r4_inside (hp : s.seq.phase = .r4) (h : s.seq.bi + 1 < s.cfg.recLen) :
    seqTake b s =
      { s with seq := { s.seq with fp := s.seq.fp + 1, bi := s.seq.bi + 1, buf := s.seq.buf ++ [b] } } := by
  simp [seqTake, hp, h, nextInRecord_inside h]

theorem seqTake_r4_last (hp : s.seq.phase = .r4) (h : ¬s.seq.bi + 1 < s.cfg.recLen) :
    seqTake b s =
      { s with save := s.save.putSlot s.seq.ri (scoreOfBytes s.cfg (s.seq.buf ++ [b])),
               seq := { s.seq with fp := s.seq.fp + 1, bi := 0, ri := s.seq.ri + 1, buf := [] } } := by
  simp [seqTake, hp, h, nextInRecord_last h]

/-- The next access of a pass: a read, while there are bytes of the length it has read. -/
theorem seqAccess_pass (hp : s.seq.phase.isPass) :
    seqAccess s = if s.seq.fp < s.seq.len then some (.read s.seq.fp) else none := by
  rcases hp with hp | hp | hp <;> simp [seqAccess, hp]

end

/-! ### How many steps a running command still has before it -/

/-- An upper bound of the steps of its own a running command still makes: the bytes it has yet to move in this phase and in
the phases after it, the truncation, and one step for each decision. A pass that has yet to read the file's length may find
it as long as the store is, and a header that has yet to be fetched may announce as many records as there are slots. -/
def State.ticksLeft (s : State) : Nat :=
  match s.seq.phase with
  | .idle => 0
  | .w1 => (if s.seq.cut then 0 else 1) + (s.cfg.fileLen s.save.hdr.count.toNat - s.seq.fp) + (s.cfg.fsCap + 5)
  | .w2 => s.cfg.fileLen s.save.hdr.count.toNat - s.seq.fp + (s.cfg.fsCap + 5)
  | .w3 => s.seq.len - s.seq.fp + 5
  | .w4 => 4 - s.seq.fp
  | .r1 => 8 - s.seq.fp + (s.cfg.fsCap + 2) + (s.cfg.recLen * slotCount + 1)
  | .r2 => s.cfg.fsCap + 2 + (s.cfg.recLen * slotCount + 1)
  | .r3 => s.seq.len - s.seq.fp + 1 + (s.cfg.recLen * slotCount + 1)
  | .r4 => s.cfg.fileLen s.seq.hdr.count.toNat - s.seq.fp + 1
  | .v1 => s.seq.len - s.seq.fp + 1

/-- The sequencer's pointers fit the phase it is in: the invariant's last part. -/
abbrev State.seqFits (s : State) : Prop := s.seq.fits s.cfg s.save.hdr.count.toNat = true

/-- `t` is a state of the same command, or its end, with fewer steps left than `s` has. -/
abbrev Advances (s t : State) : Prop := t.seqFits ∧ t.ticksLeft < s.ticksLeft

/-- The end of a command advances every running one. -/
theorem finish_advances (code : ResultCode) {s t : State} (h : 0 < s.ticksLeft) : Advances s (finish code t) :=
  ⟨(fits_idle rfl).2 rfl, h⟩

/-- A pass that starts now has no more bytes before it than the store has room for. -/
theorem startPass_fits {s : State} {p : Phase} (hp : p.isPass) (hl : s.fs.len ≤ s.cfg.fsCap) :
    (startPass p s).seqFits :=
  (fits_pass hp).2 ⟨Nat.zero_le _, hl, rfl, rfl⟩

section
variable {s : State}

theorem w1_advances (b : Byte) (hp : s.seq.phase = .w1) (hf : s.seqFits) : Advances s (seqTake b s) := by
  obtain ⟨hfp, hri, hbi, hcut⟩ := (fits_w1 hp).1 hf
  have hfile := fileLen_eq s.cfg s.save.hdr.count.toNat
  by_cases hc : s.seq.cut = false
  · rw [seqTake_w1_truncate b hp hc]
    exact ⟨(fits_w1 (by exact hp)).2 ⟨hfp, hri, hbi, .inl rfl⟩, by simp [State.ticksLeft, hp, hc]⟩
  · have hc : s.seq.cut = true := by simpa using hc
    by_cases h4 : s.seq.fp + 1 < 4
    · rw [seqTake_w1_inside b hp hc h4]
      refine ⟨(fits_w1 (by exact hp)).2 ⟨h4, hri, congrArg (· + 1) hbi, .inl hc⟩, ?_⟩
      simp only [State.ticksLeft, hp]
      omega
    · rw [seqTake_w1_last b hp hc (by omega)]
      refine ⟨(fits_w2 rfl).2 (.inl ⟨?_, ?_, hri, congrArg (· + 1) hbi⟩), ?_⟩
      · simp only; omega
      · simp only; omega
      · simp only [State.ticksLeft, hp]
        omega

theorem w2_advances (b : Byte) (hp : s.seq.phase = .w2) (hl : s.fs.len ≤ s.cfg.fsCap) (hf : s.seqFits) :
    Advances s (seqTake b s) := by
  have hfile := fileLen_eq s.cfg s.save.hdr.count.toNat
  have hpos := (fits_w2 hp).1 hf
  have hlt : s.seq.fp < s.cfg.fileLen s.save.hdr.count.toNat := by
    rcases hpos with ⟨-, h8, -⟩ | hr
    · omega
    · exact inRecord_lt hr
  by_cases hend : s.seq.fp + 1 = s.cfg.fileLen s.save.hdr.count.toNat
  · rw [seqTake_w2_last b hp hend]
    refine ⟨startPass_fits (.inl rfl) hl, ?_⟩
    simp only [State.ticksLeft, hp, startPass]
    omega
  rcases hpos with ⟨h4, h8, hri, hbi⟩ | hr
  · rw [seqTake_w2_header b hp hend h8]
    refine ⟨(fits_w2 (by exact hp)).2 ?_, by simp only [State.ticksLeft, hp]; omega⟩
    by_cases h7 : s.seq.fp + 1 < 8
    · refine .inl ⟨?_, h7, hri, by simp only [if_pos h7, hbi]⟩
      simp only
      omega
    · have hcount : 0 < s.save.hdr.count.toNat := by
        by_contra h0
        rw [show s.save.hdr.count.toNat = 0 by omega] at hend hfile
        omega
      exact .inr (inRecord_first (by simp only; omega) hri (by simp only [if_neg h7]) hcount)
  · have h8 : 8 ≤ s.seq.fp := by
      have := (inRecord_iff.1 hr).1
      omega
    rw [seqTake_w2_record b hp hend h8]
    have hnext := nextInRecord_inRecord hr
    rw [nextInRecord_fp] at hnext
    refine ⟨(fits_w2 ((nextInRecord_phase _ _).trans hp)).2 (.inr (hnext.resolve_right fun h => hend h.1)), ?_⟩
    simp only [State.ticksLeft, nextInRecord_phase, nextInRecord_fp, hp]
    omega

theorem w4_advances (b : Byte) (hp : s.seq.phase = .w4) (hf : s.seqFits) : Advances s (seqTake b s) := by
  obtain ⟨hfp, hri, hbi⟩ := (fits_w4 hp).1 hf
  by_cases h4 : s.seq.fp + 1 < 4
  · rw [seqTake_w4_inside b hp h4]
    refine ⟨(fits_w4 (by exact hp)).2 ⟨h4, hri, congrArg (· + 1) hbi⟩, ?_⟩
    simp only [State.ticksLeft, hp]
    omega
  · rw [seqTake_w4_last b hp h4]
    exact finish_advances _ (by simp only [State.ticksLeft, hp]; omega)

theorem r1_advances (b : Byte) (hp : s.seq.phase = .r1) (hf : s.seqFits) : Advances s (seqTake b s) := by
  obtain ⟨hfp, hbuf, hri, hbi⟩ := (fits_r1 hp).1 hf
  by_cases h8 : s.seq.fp + 1 < 8
  · rw [seqTake_r1_inside b hp h8]
    refine ⟨(fits_r1 (by exact hp)).2 ⟨h8, by simp [hbuf], hri, congrArg (· + 1) hbi⟩, ?_⟩
    simp only [State.ticksLeft, hp]
    omega
  · rw [seqTake_r1_last b hp h8]
    refine ⟨(fits_r2 rfl).2 ⟨hfp, hri, hbi⟩, ?_⟩
    simp only [State.ticksLeft, hp]
    omega

theorem r4_advances (b : Byte) (hp : s.seq.phase = .r4) (hlt : s.seq.ri < s.seq.hdr.count.toNat) (hf : s.seqFits) :
    Advances s (seqTake b s) := by
  obtain ⟨hbuf, hpos⟩ := (fits_r4 hp).1 hf
  have hr : s.seq.inRecord s.cfg s.seq.hdr.count.toNat = true :=
    hpos.resolve_right fun h => by omega
  have hend := inRecord_lt hr
  have hnext := nextInRecord_inRecord hr
  by_cases hb : s.seq.bi + 1 < s.cfg.recLen
  · rw [seqTake_r4_inside b hp hb]
    rw [nextInRecord_inside hb] at hnext
    refine ⟨(fits_r4 (by exact hp)).2 ⟨by simp [hbuf], hnext⟩, ?_⟩
    simp only [State.ticksLeft, hp, fileLen_eq]
    omega
  · rw [seqTake_r4_last b hp hb]
    rw [nextInRecord_last hb] at hnext
    refine ⟨(fits_r4 (by exact hp)).2 ⟨rfl, hnext⟩, ?_⟩
    simp only [State.ticksLeft, hp, fileLen_eq]
    omega

theorem pass_advances (b : Byte) (hp : s.seq.phase.isPass) (hlt : s.seq.fp < s.seq.len) (hf : s.seqFits) :
    Advances s (seqTake b s) := by
  obtain ⟨-, hcap, hri, hbi⟩ := (fits_pass hp).1 hf
  rw [seqTake_pass b hp]
  refine ⟨(fits_pass (by exact hp)).2 ⟨hlt, hcap, hri, hbi⟩, ?_⟩
  rcases hp with hp | hp | hp <;> simp only [State.ticksLeft, takePassByte, nextByte, hp] <;> omega

/-- Taking the byte of an access, in any phase, advances the command. -/
theorem seqTake_advances (b : Byte) (hl : s.fs.len ≤ s.cfg.fsCap) (hf : s.seqFits) (ha : seqAccess s ≠ none) :
    Advances s (seqTake b s) := by
  have pass (hp : s.seq.phase.isPass) : Advances s (seqTake b s) := by
    refine pass_advances b hp ?_ hf
    by_contra hlt
    exact ha (by rw [seqAccess_pass hp, if_neg hlt])
  cases hp : s.seq.phase with
  | idle => exact absurd (by simp [seqAccess, hp]) ha
  | w1 => exact w1_advances b hp hf
  | w2 => exact w2_advances b hp hl hf
  | w3 => exact pass (.inl hp)
  | w4 => exact w4_advances b hp hf
  | r1 => exact r1_advances b hp hf
  | r2 => exact absurd (by simp [seqAccess, hp]) ha
  | r3 => exact pass (.inr (.inl hp))
  | r4 =>
    refine r4_advances b hp ?_ hf
    by_contra hlt
    exact ha (by simp [seqAccess, hp, hlt])
  | v1 => exact pass (.inr (.inr hp))

/-- The commit of SV.READ starts at the first record, or at the end if the header announces none. -/
theorem commit_fits (q : Sequencer) (c : Config) (n : Nat) :
    ({ q with phase := .r4, fp := 8, ri := 0, bi := 0, buf := [] } : Sequencer).fits c n = true := by
  refine (fits_r4 rfl).2 ⟨rfl, ?_⟩
  rcases Nat.eq_zero_or_pos q.hdr.count.toNat with h0 | h0
  · exact .inr ⟨by simp [h0], h0.symm, rfl⟩
  · exact .inl (inRecord_first rfl rfl rfl h0)

/-- A decision of a running command, in any phase, advances it. -/
theorem seqDecide_advances (hl : s.fs.len ≤ s.cfg.fsCap) (hf : s.seqFits) (ha : seqAccess s = none)
    (hbusy : s.seq.phase ≠ .idle) : Advances s (seqDecide s) := by
  cases hp : s.seq.phase with
  | idle => exact absurd hp hbusy
  | w1 => simp only [seqAccess, hp] at ha; split at ha <;> cases ha
  | w2 => simp [seqAccess, hp] at ha
  | w4 => simp [seqAccess, hp] at ha
  | r1 => simp [seqAccess, hp] at ha
  | w3 =>
    obtain ⟨-, -, hri, -⟩ := (fits_pass (.inl hp)).1 hf
    simp only [seqDecide, hp]
    refine ⟨(fits_w4 rfl).2 ⟨Nat.zero_lt_succ _, hri, rfl⟩, ?_⟩
    simp only [State.ticksLeft, hp]
    omega
  | r2 =>
    simp only [seqDecide, hp]
    split_ifs
    · exact finish_advances _ (by simp only [State.ticksLeft, hp]; omega)
    · refine ⟨startPass_fits (.inr (.inl rfl)) hl, ?_⟩
      simp only [State.ticksLeft, hp, startPass]
      omega
  | r3 =>
    simp only [seqDecide, hp]
    by_cases ht : tampered s.ce.close.x s.seq.hdr.cksum = true
    · rw [if_pos ht]
      exact finish_advances _ (by simp only [State.ticksLeft, hp]; omega)
    · rw [if_neg ht]
      refine ⟨commit_fits s.seq _ _, ?_⟩
      have hcount : s.cfg.recLen * s.seq.hdr.count.toNat ≤ s.cfg.recLen * slotCount :=
        Nat.mul_le_mul_left _ (Nat.le_of_lt_succ s.seq.hdr.count.isLt)
      simp only [State.ticksLeft, hp, fileLen_eq, headerLen, setTamper_cfg, setResult_cfg, setEngine_cfg]
      omega
  | r4 =>
    simp only [seqDecide, hp]
    exact finish_advances _ (by simp only [State.ticksLeft, hp]; omega)
  | v1 =>
    simp only [seqDecide, hp]
    cases s.seq.op <;> exact finish_advances _ (by simp only [State.ticksLeft, hp]; omega)

/-! ### The invariant along a running command -/

/-- The sums are reduced after the byte of an access. -/
theorem seqTake_inRange (b : Byte) (h : s.ce.inRange) : (seqTake b s).ce.inRange := by
  cases hp : s.seq.phase <;> simp only [seqTake, hp]
  case idle => exact h
  case w1 => split_ifs <;> exact h
  case w2 =>
    split_ifs
    · exact init_inRange
    · exact h
    · exact h
  case w3 => exact push_inRange _ _
  case w4 => split_ifs <;> exact h
  case r1 => split_ifs <;> exact h
  case r2 => exact h
  case r3 => exact push_inRange _ _
  case r4 => split_ifs <;> exact h
  case v1 => exact push_inRange _ _

/-- The sums are reduced after a decision. -/
theorem seqDecide_inRange (h : s.ce.inRange) : (seqDecide s).ce.inRange := by
  have hclose := close_inRange s.ce h
  cases hp : s.seq.phase <;> simp only [seqDecide, hp]
  case idle => exact h
  case w1 => exact h
  case w2 => exact h
  case w3 => exact hclose
  case w4 => exact h
  case r1 => exact h
  case r2 =>
    split_ifs
    · exact h
    · exact init_inRange
  case r3 => split <;> exact hclose
  case r4 => exact h
  case v1 => cases s.seq.op <;> exact hclose

/-- A step of a running command keeps the invariant and leaves fewer steps before it, whatever the store holds. -/
theorem seqStep_advances {t : State} (hi : s.Inv) (hbusy : s.seq.phase ≠ .idle) (h : seqStep s = .next t) :
    t.Inv ∧ t.ticksLeft < s.ticksLeft := by
  obtain ⟨hcfg, hce, hfs, hf⟩ := hi
  have take (b : Byte) (m : State) (hc : m.cfg = s.cfg) (he : m.ce = s.ce) (hs : m.fs.ok s.cfg.fsCap)
      (hq : m.seqFits) (ha : seqAccess m ≠ none) (hticks : m.ticksLeft = s.ticksLeft) :
      (seqTake b m).Inv ∧ (seqTake b m).ticksLeft < s.ticksLeft := by
    obtain ⟨-, -, -, kc, kf⟩ := seqTake_keeps b m
    obtain ⟨hfit, hlt⟩ := seqTake_advances b (by rw [hc]; exact hs.1) hq ha
    rw [State.Inv, kc, kf, hc]
    rw [State.seqFits, kc, hc] at hfit
    exact ⟨⟨hcfg, seqTake_inRange b (he ▸ hce), hs, hfit⟩, hticks ▸ hlt⟩
  rcases seqStep_cases s t h with ⟨ha, rfl⟩ | ⟨acc, ha, hperm, rfl⟩ | ⟨acc, ha, -, rfl⟩
  · obtain ⟨-, -, -, kc, kf⟩ := seqDecide_keeps s
    obtain ⟨hfit, hlt⟩ := seqDecide_advances hfs.1 hf ha hbusy
    rw [State.Inv, kc, kf]
    rw [State.seqFits, kc] at hfit
    exact ⟨⟨hcfg, seqDecide_inRange hce, hfs, hfit⟩, hlt⟩
  · exact take _ (s.setFs (s.fs.perform acc)) rfl rfl (perform_ok _ _ _ hfs hperm) hf
      (fun h => Option.some_ne_none acc (ha.symm.trans h)) rfl
  · exact take _ (makeAstray acc s) rfl rfl (performAstray_ok _ _ _ _ hfs) hf
      (fun h => Option.some_ne_none acc (ha.symm.trans h)) rfl

/-- An action of the environment keeps the invariant, and the steps a running command has before it. -/
theorem applyEnv_inv (act : EnvAction) (hi : s.Inv) :
    (applyEnv act s).Inv ∧ (applyEnv act s).ticksLeft = s.ticksLeft := by
  obtain ⟨hcfg, hce, hfs, hf⟩ := hi
  exact ⟨⟨hcfg, hce, envStore_ok _ act _ hfs, hf⟩, rfl⟩

/-! ### A running command ends -/

/-- A block that meets the invariant and has no step left is IDLE. -/
theorem idle_of_ticksLeft_eq_zero (hi : s.Inv) (h : s.ticksLeft = 0) : s.idle := by
  obtain ⟨-, -, -, hf⟩ := hi
  cases hp : s.seq.phase with
  | idle => exact (fits_idle hp).1 hf
  | w4 =>
    have := ((fits_w4 hp).1 hf).1
    simp only [State.ticksLeft, hp] at h
    omega
  | w1 => simp [State.ticksLeft, hp] at h
  | w2 => simp [State.ticksLeft, hp] at h
  | w3 => simp [State.ticksLeft, hp] at h
  | r1 => simp [State.ticksLeft, hp] at h
  | r2 => simp [State.ticksLeft, hp] at h
  | r3 => simp [State.ticksLeft, hp] at h
  | r4 => simp [State.ticksLeft, hp] at h
  | v1 => simp [State.ticksLeft, hp] at h

/-- No command has more steps before it than the longest SV.WRITE into the largest store. -/
theorem ticksLeft_le (hi : s.Inv) : s.ticksLeft ≤ s.cfg.fsCap + s.cfg.fileLen slotCount + 6 := by
  obtain ⟨-, -, -, hf⟩ := hi
  have hcount (n : Byte) : s.cfg.fileLen n.toNat ≤ s.cfg.fileLen slotCount :=
    Nat.add_le_add_left (Nat.mul_le_mul_left _ (Nat.le_of_lt_succ n.isLt)) _
  have hsave := hcount s.save.hdr.count
  have hhdr := hcount s.seq.hdr.count
  have hfile := fileLen_eq s.cfg slotCount
  have pass (hp : s.seq.phase.isPass) : s.seq.len ≤ s.cfg.fsCap := ((fits_pass hp).1 hf).2.1
  cases hp : s.seq.phase <;> simp only [State.ticksLeft, hp]
  case w1 => split <;> omega
  case w3 => have := pass (.inl hp); omega
  case r3 => have := pass (.inr (.inl hp)); omega
  case v1 => have := pass (.inr (.inr hp)); omega
  all_goals omega

/-- A run whose first step leads to `t` goes on from there. -/
theorem runSteps_succ {t : State} (k : Nat) (h : step s = .next t) : runSteps (k + 1) s = runSteps k t := by
  simp only [runSteps, h]

/-- With as many ticks before it as the running command has steps left, and any actions of the environment between them,
the block is IDLE within those events. -/
theorem runSteps_idle (events rest : List Input) (hi : s.Inv) (hb : s.inbox = events ++ rest)
    (hev : ∀ ev ∈ events, ev = .tick ∨ ∃ act, ev = .env act) (hticks : s.ticksLeft ≤ events.count .tick) :
    ∃ k t, k ≤ events.length ∧ runSteps k s = .next t ∧ t.idle := by
  induction events generalizing s with
  | nil => exact ⟨0, s, le_refl _, rfl, idle_of_ticksLeft_eq_zero hi (Nat.le_zero.1 hticks)⟩
  | cons ev events ih =>
    by_cases hidle : s.seq.phase = .idle
    · exact ⟨0, s, Nat.zero_le _, rfl, (fits_idle hidle).1 hi.2.2.2⟩
    have hev' : ∀ ev ∈ events, ev = .tick ∨ ∃ act, ev = .env act := fun e he => hev e (List.mem_cons_of_mem _ he)
    have go {t : State} (hs : step s = .next t) (hi : t.Inv) (hb : t.inbox = events ++ rest)
        (hticks : t.ticksLeft ≤ events.count .tick) :
        ∃ k t, k ≤ (ev :: events).length ∧ runSteps k s = .next t ∧ t.idle := by
      obtain ⟨k, u, hk, hrun, hu⟩ := ih hi hb hev' hticks
      exact ⟨k + 1, u, Nat.succ_le_succ hk, (runSteps_succ k hs).trans hrun, hu⟩
    rcases hev ev (List.mem_cons_self ..) with rfl | ⟨act, rfl⟩
    · obtain ⟨t, ht⟩ := seqStep_next s.dropEvent
      obtain ⟨hinv, hlt⟩ := seqStep_advances (s := s.dropEvent) hi hidle ht
      obtain ⟨hbox, -⟩ := seqStep_keeps _ t ht
      refine go (t := t) ?_ hinv (by rw [hbox, dropEvent_inbox, hb]; rfl) ?_
      · rw [step, if_neg hidle, stepBusy, hb]
        exact ht
      · rw [List.count_cons_self] at hticks
        have : s.dropEvent.ticksLeft = s.ticksLeft := rfl
        omega
    · obtain ⟨hinv, heq⟩ := applyEnv_inv (s := { s with inbox := events ++ rest }) act hi
      rw [List.count_cons_of_ne (by simp)] at hticks
      exact go (step_env s act _ hb) hinv rfl (heq.le.trans hticks)

end

end Sys2Proof.Machine

open Sys2Proof Sys2Proof.Machine

/-- Settles O60: the steps left are bounded by the ticks, every tick leaves fewer, and the environment leaves as many. -/
theorem commandsEndWhateverTheEnvironmentDoes : Obligations.CommandsEndWhateverTheEnvironmentDoes := by
  unfold Obligations.CommandsEndWhateverTheEnvironmentDoes
  constructor
  · intro s
    obtain ⟨t, h, -⟩ := step_next s
    exact ⟨t, h⟩
  · intro s events rest hi hb hev hticks
    exact runSteps_idle events rest hi hb hev ((ticksLeft_le hi).trans hticks)

end

section
/-! PROOFS. The checksum pass and SV.WRITE, access by access: the states they go through, given by the file offset, and that
they end as `exec` says (O55). -/

namespace Sys2Proof.Machine

/-! ### Runs of one step, and of one step after another -/

/-- A run of one step whose access the store permits. -/
theorem seqRuns_access {s t : State} {acc : FsAccess} (ha : seqAccess s = some acc)
    (hp : s.fs.permits s.cfg.fsCap acc = true)
    (ht : seqTake (s.fs.answer acc) (s.setFs (s.fs.perform acc)) = t) : SeqRuns 1 s t [acc] := by
  have hbusy : s.seq.phase ≠ .idle := fun h => by simp [seqAccess, h] at ha
  have h := seqRuns_one hbusy ((seqStep_of_permits ha hp).trans (congrArg _ ht))
  rwa [ha] at h

/-- A run of one step that makes no access. -/
theorem seqRuns_decide {s t : State} (hbusy : s.seq.phase ≠ .idle) (ha : seqAccess s = none) (ht : seqDecide s = t) :
    SeqRuns 1 s t [] := by
  have h := seqRuns_one hbusy ((seqStep_of_no_access ha).trans (congrArg _ ht))
  rwa [ha] at h

/-- A run along states given by a file offset, one access from each to the next. -/
theorem seqRuns_range (f : Nat → State) (acc : Nat → FsAccess) (a n : Nat)
    (h : ∀ p, a ≤ p → p < a + n → SeqRuns 1 (f p) (f (p + 1)) [acc p]) :
    SeqRuns n (f a) (f (a + n)) ((List.range n).map fun i => acc (a + i)) := by
  induction n with
  | zero => exact seqRuns_zero _
  | succ n ih =>
    rw [List.range_succ, List.map_append]
    exact seqRuns_trans (ih fun p h1 h2 => h p h1 (by omega)) (h (a + n) (by omega) (by omega))

/-! ### A checksum pass -/

/-- A pass over the whole file, once it has taken the bytes below offset `p` (`spec/40_checksum.md` R117). -/
def passAt (z : Bool) (s : State) (p : Nat) : State :=
  { s with ce := (List.range p).foldl (fun e off => e.push (passByte z off (s.fs.byteAt off))) Engine.init,
           seq := { s.seq with fp := p } }

/-- A pass reads the whole file in ascending order, and each byte goes into the engine. -/
theorem startPass_runs (z : Bool) (ph : Phase) (hph : ph.isPass) (s : State) (hz : passZeroes (startPass ph s).seq = z)
    (hpres : s.fs.present = true) :
    SeqRuns s.fs.len (startPass ph s) (passAt z (startPass ph s) s.fs.len) (readsFrom 0 s.fs.len) := by
  have h := seqRuns_range (passAt z (startPass ph s)) .read 0 s.fs.len fun p _ hp => by
    rw [Nat.zero_add] at hp
    refine seqRuns_access ?_ ((permits_read _ _ _).2 ⟨hpres, hp⟩) ?_
    · rw [seqAccess_pass (by exact hph)]
      exact if_pos hp
    · rw [seqTake_pass _ (by exact hph), ← hz]
      simp only [passAt, List.range_succ, List.foldl_append]
      rfl
  rwa [Nat.zero_add] at h

/-- At the end of a pass there is no access left. -/
theorem seqAccess_passAt (z : Bool) (ph : Phase) (hph : ph.isPass) (s : State) :
    seqAccess (passAt z (startPass ph s) s.fs.len) = none := by
  rw [seqAccess_pass (by exact hph)]
  exact if_neg (Nat.lt_irrefl _)

/-- What a pass over the whole file leaves in the engine, once it is closed, is the file checksum. -/
theorem close_passAt (z : Bool) (ph : Phase) (s : State) :
    (passAt z (startPass ph s) s.fs.len).ce.close = fileChecksum z s.fs := rfl

/-- The end of the pass of SV.WRITE: the checksum field is patched next. -/
theorem seqDecide_w3 {s : State} (hp : s.seq.phase = .w3) :
    seqDecide s = { s with ce := s.ce.close, seq := { s.seq with phase := .w4, fp := 0, bi := 0 } } := by
  simp [seqDecide, hp]

/-- The end of a pass V1 that only sums. -/
theorem seqDecide_v1_sum {s : State} (hp : s.seq.phase = .v1) (ho : s.seq.op ≠ .verify) :
    seqDecide s = finish .success ((s.setEngine s.ce.close).setResult s.ce.close.x) := by
  cases h : s.seq.op
  case verify => exact absurd h ho
  all_goals simp [seqDecide, hp, h]

/-- The end of the pass of SV.VERIFY. -/
theorem seqDecide_v1_verify {s : State} (hp : s.seq.phase = .v1) (ho : s.seq.op = .verify) :
    seqDecide s = finish .success
      (((s.setEngine s.ce.close).setResult s.ce.close.x).setTamper (tampered s.ce.close.x s.arg)) := by
  simp [seqDecide, hp, ho]

/-- FS.CSUM, FS.CSUMZ and SV.VERIFY, access by access: the whole file is read, and the command ends as `exec` says. -/
theorem pass_command_runs (i : Instr) (op : PassOp)
    (hi : (i, op) ∈ [(Instr.fsCsum, PassOp.csum), (.fsCsumz, .csumz), (.svVerify, .verify)]) (s : State)
    (hpres : s.fs.present = true) :
    ∃ u, SeqRuns (s.fs.len + 1) (startPass .v1 { s with seq := { Sequencer.rest with op := op } }) u
      (readsFrom 0 s.fs.len) ∧ exec i s = .next u := by
  have hpass : Phase.v1.isPass := .inr (.inr rfl)
  obtain ⟨m, hm⟩ : ∃ m : State, m = { s with seq := { Sequencer.rest with op := op } } := ⟨_, rfl⟩
  have run := startPass_runs _ .v1 hpass m rfl (by rw [hm]; exact hpres)
  have ends := seqRuns_trans run (seqRuns_decide (by simp [passAt]) (seqAccess_passAt _ .v1 hpass m) rfl)
  rw [List.append_nil] at ends
  subst hm
  refine ⟨_, ends, ?_⟩
  simp only [List.mem_cons, Prod.mk.injEq, List.not_mem_nil, or_false] at hi
  rcases hi with ⟨rfl, rfl⟩ | ⟨rfl, rfl⟩ | ⟨rfl, rfl⟩
  · rw [seqDecide_v1_sum rfl (by simp [passAt]), close_passAt]
    simp [exec, execFsCsum, sumFile, hpres, succeed, finish, State.setResult, State.setEngine, passAt, passZeroes]
  · rw [seqDecide_v1_sum rfl (by simp [passAt]), close_passAt]
    simp [exec, execFsCsumz, sumFile, hpres, succeed, finish, State.setResult, State.setEngine, passAt, passZeroes]
  · rw [seqDecide_v1_verify rfl rfl, close_passAt]
    simp [exec, execSvVerify, hpres, succeed, finish, State.setResult, State.setEngine, State.setTamper, passAt,
      passZeroes]

/-! ### The position in the record part of a file -/

/-- The sequencer at file offset `p` of the record part: byte `(p - 8) % REC_LEN` of record `(p - 8) / REC_LEN`
(`spec/20_memory.md` R62). -/
def recordSeq (c : Config) (q : Sequencer) (p : Nat) : Sequencer :=
  { q with fp := p, ri := (p - 8) / c.recLen, bi := (p - 8) % c.recLen }

/-- One byte on inside a record. -/
theorem position_inside (c : Config) (p : Nat) (h8 : 8 ≤ p) (h : (p - 8) % c.recLen + 1 < c.recLen) :
    (p + 1 - 8) / c.recLen = (p - 8) / c.recLen ∧ (p + 1 - 8) % c.recLen = (p - 8) % c.recLen + 1 := by
  rcases recLen_cases c with hc | hc <;> rw [hc] at h ⊢ <;> omega

/-- One byte on from the last of a record. -/
theorem position_last (c : Config) (p : Nat) (h8 : 8 ≤ p) (h : ¬(p - 8) % c.recLen + 1 < c.recLen) :
    (p + 1 - 8) / c.recLen = (p - 8) / c.recLen + 1 ∧ (p + 1 - 8) % c.recLen = 0 ∧
      (p - 8) % c.recLen + 1 = c.recLen := by
  rcases recLen_cases c with hc | hc <;> rw [hc] at h ⊢ <;> omega

/-- The position counts bytes: the offset of the record and the byte in it make up the file offset. -/
theorem recordBase_add_position (c : Config) (p : Nat) (h8 : 8 ≤ p) :
    recordBase c ((p - 8) / c.recLen) + (p - 8) % c.recLen = p := by
  have := Nat.div_add_mod (p - 8) c.recLen
  simp only [recordBase, headerLen]
  omega

/-- Below the end of the file the record is one of the file's. -/
theorem position_lt (c : Config) (n p : Nat) (h8 : 8 ≤ p) (h : p < c.fileLen n) : (p - 8) / c.recLen < n := by
  rw [fileLen_eq] at h
  exact Nat.div_lt_of_lt_mul (by omega)

/-- The next byte of a record is the next position. -/
theorem nextInRecord_recordSeq (c : Config) (q : Sequencer) (p : Nat) (h8 : 8 ≤ p) :
    nextInRecord c (recordSeq c q p) = recordSeq c q (p + 1) := by
  by_cases h : (p - 8) % c.recLen + 1 < c.recLen
  · obtain ⟨hri, hbi⟩ := position_inside c p h8 h
    rw [nextInRecord_inside (by exact h)]
    simp only [recordSeq, hri, hbi]
  · obtain ⟨hri, hbi, -⟩ := position_last c p h8 h
    rw [nextInRecord_last (by exact h)]
    simp only [recordSeq, hri, hbi]

/-! ### SV.WRITE -/

/-- The sequencer before SV.WRITE writes the byte at offset `p` of Ser(SV): placeholder, header, records. -/
def writeSeq (c : Config) (p : Nat) : Sequencer :=
  if p < 4 then { Sequencer.rest with phase := .w1, cut := true, fp := p, bi := p }
  else if p < 8 then { Sequencer.rest with phase := .w2, cut := true, fp := p, bi := p }
  else recordSeq c { Sequencer.rest with phase := .w2, cut := true } p

theorem writeSeq_placeholder (c : Config) {p : Nat} (h : p < 4) :
    writeSeq c p = { Sequencer.rest with phase := .w1, cut := true, fp := p, bi := p } := if_pos h

theorem writeSeq_header (c : Config) {p : Nat} (h4 : ¬p < 4) (h8 : p < 8) :
    writeSeq c p = { Sequencer.rest with phase := .w2, cut := true, fp := p, bi := p } :=
  (if_neg h4).trans (if_pos h8)

theorem writeSeq_record (c : Config) {p : Nat} (h8 : ¬p < 8) :
    writeSeq c p = recordSeq c { Sequencer.rest with phase := .w2, cut := true } p :=
  (if_neg (by omega)).trans (if_neg h8)

/-- After a byte of Ser(SV) but the last, SV.WRITE stands at the next one. -/
theorem seqTake_writeSeq (b : Byte) (s : State) (p : Nat) (hq : s.seq = writeSeq s.cfg p)
    (hp : p + 1 < s.cfg.fileLen s.save.hdr.count.toNat) : seqTake b s = { s with seq := writeSeq s.cfg (p + 1) } := by
  by_cases h4 : p < 4
  · rw [writeSeq_placeholder _ h4] at hq
    by_cases h3 : p + 1 < 4
    · rw [seqTake_w1_inside b (by rw [hq]) (by rw [hq]) (by rw [hq]; exact h3), writeSeq_placeholder _ h3, hq]
    · rw [seqTake_w1_last b (by rw [hq]) (by rw [hq]) (by rw [hq]; simp only; omega),
        writeSeq_header _ h3 (by omega), hq]
  · by_cases h8 : p < 8
    · rw [writeSeq_header _ h4 h8] at hq
      rw [seqTake_w2_header b (by rw [hq]) (by rw [hq]; exact hp.ne) (by rw [hq]; exact h8), hq]
      by_cases h7 : p + 1 < 8
      · rw [writeSeq_header _ (by omega) h7]
        simp only [h7, if_true]
      · obtain rfl : p = 7 := by omega
        rw [writeSeq_record _ h7]
        simp [recordSeq, Sequencer.rest]
    · rw [writeSeq_record _ h8] at hq
      rw [seqTake_w2_record b (by rw [hq]; rfl) (by rw [hq]; exact hp.ne) (by rw [hq]; exact Nat.not_lt.1 h8), hq,
        nextInRecord_recordSeq _ _ _ (by omega), writeSeq_record _ (by omega)]

/-- SV.WRITE, once it has written the bytes below offset `p`: the file holds so much of Ser(SV)
(`spec/41_marshaller.md` R142). -/
def writingAt (s : State) (p : Nat) : State :=
  { s with fs := s.fs.createTrunc.writeBytes 0 ((ser s.cfg s.save).take p), seq := writeSeq s.cfg p }

/-- One more byte of a list written at its place. -/
theorem writeBytes_take_succ (fs : FileStore) (l : List Byte) (p : Nat) (h : p < l.length) :
    (fs.writeBytes 0 (l.take p)).writeByte p (l.getD p 0) = fs.writeBytes 0 (l.take (p + 1)) := by
  rw [List.take_succ_eq_append_getElem h, writeBytes_append, List.length_take_of_le h.le, Nat.zero_add,
    List.getD_eq_getElem _ _ h]
  rfl

/-- Ser(SV) has zeros in its checksum field. -/
theorem ser_getD_placeholder (c : Config) (sv : Save) (p : Nat) (h : p < 4) : (ser c sv).getD p 0 = 0 := by
  match p, h with
  | 0, _ => rfl
  | 1, _ => rfl
  | 2, _ => rfl
  | 3, _ => rfl

/-- Ser(SV) has the date and the count after its checksum field. -/
theorem ser_getD_header (c : Config) (sv : Save) (p : Nat) (h4 : ¬p < 4) (h8 : p < 8) :
    (ser c sv).getD p 0 = (dateCountBytes sv.hdr).getD (p - 4) 0 := by
  match p, h4, h8 with
  | 4, _, _ => rfl
  | 5, _, _ => rfl
  | 6, _, _ => rfl
  | 7, _, _ => rfl

/-- Ser(SV) has the records after its header. -/
theorem ser_getD_record (c : Config) (sv : Save) (p : Nat) (h8 : ¬p < 8) (hp : p < c.fileLen sv.hdr.count.toNat) :
    (ser c sv).getD p 0 = (scoreBytes c (sv.slot ((p - 8) / c.recLen))).getD ((p - 8) % c.recLen) 0 := by
  have hbi : (p - 8) % c.recLen < c.recLen := Nat.mod_lt _ (recLen_pos c)
  rw [← ser_drop_take c sv _ (position_lt c _ p (by omega) hp), List.getD_eq_getElem?_getD, List.getD_eq_getElem?_getD,
    List.getElem?_take_of_lt hbi, List.getElem?_drop, recordBase_add_position c p (by omega)]

/-- The byte SV.WRITE writes at an offset is the one of Ser(SV) there. -/
theorem seqAccess_writingAt (s : State) (p : Nat) (hp : p < s.cfg.fileLen s.save.hdr.count.toNat) :
    seqAccess (writingAt s p) = some (.write p ((ser s.cfg s.save).getD p 0)) := by
  by_cases h4 : p < 4
  · rw [ser_getD_placeholder _ _ p h4]
    simp only [seqAccess, writingAt, writeSeq_placeholder _ h4]
    rfl
  · by_cases h8 : p < 8
    · rw [ser_getD_header _ _ p h4 h8]
      simp only [seqAccess, writingAt, writeSeq_header _ h4 h8, bodyByte]
      rw [if_pos (by exact h8)]
      rfl
    · rw [ser_getD_record _ _ p h8 hp]
      simp only [seqAccess, writingAt, writeSeq_record _ h8, recordSeq, bodyByte]
      rw [if_neg (by exact h8)]

/-- The file SV.WRITE is writing is as long as what it has written. -/
theorem writingAt_len (s : State) (p : Nat) (hp : p ≤ s.cfg.fileLen s.save.hdr.count.toNat) :
    (writingAt s p).fs.len = p := by
  simp only [writingAt]
  rw [writeBytes_len _ _ _ (Nat.zero_le _), List.length_take_of_le (by rwa [ser_length])]
  simp

/-- A Save fits the file store of a legal configuration (`spec/00_scope.md` R8). -/
theorem fileLen_le_fsCap (c : Config) (h : c.legal) (n : Byte) : c.fileLen n.toNat ≤ c.fsCap :=
  (Nat.add_le_add_left (Nat.mul_le_mul_left _ (Nat.le_of_lt_succ n.isLt)) _).trans h

/-- Every byte write of Ser(SV) is permitted: it stands at the end of the file, below the capacity. -/
theorem permits_writingAt (s : State) (hlegal : s.cfg.legal) (p : Nat) (b : Byte)
    (hp : p < s.cfg.fileLen s.save.hdr.count.toNat) :
    (writingAt s p).fs.permits (writingAt s p).cfg.fsCap (.write p b) = true := by
  refine (permits_write _ _ _ _).2 ⟨by simp [writingAt], .inr ⟨(writingAt_len s p hp.le).symm, ?_⟩⟩
  exact hp.trans_le (fileLen_le_fsCap s.cfg hlegal _)

/-- The store after a byte write of Ser(SV). -/
theorem perform_writingAt (s : State) (p : Nat) (hp : p < s.cfg.fileLen s.save.hdr.count.toNat) :
    (writingAt s p).fs.perform (.write p ((ser s.cfg s.save).getD p 0)) =
      s.fs.createTrunc.writeBytes 0 ((ser s.cfg s.save).take (p + 1)) :=
  writeBytes_take_succ _ _ _ (by rwa [ser_length])

/-- From each offset of Ser(SV) but the last SV.WRITE goes on to the next. -/
theorem writingAt_succ (s : State) (hlegal : s.cfg.legal) (p : Nat)
    (hp : p + 1 < s.cfg.fileLen s.save.hdr.count.toNat) :
    SeqRuns 1 (writingAt s p) (writingAt s (p + 1)) [.write p ((ser s.cfg s.save).getD p 0)] := by
  refine seqRuns_access (seqAccess_writingAt s p (by omega)) (permits_writingAt s hlegal p _ (by omega)) ?_
  rw [perform_writingAt s p (by omega)]
  exact seqTake_writeSeq _ ((writingAt s p).setFs _) p rfl hp

/-- The store once SV.WRITE has written Ser(SV) (`spec/41_marshaller.md` R145). -/
def serStore (s : State) : FileStore := s.fs.createTrunc.writeBytes 0 (ser s.cfg s.save)

theorem serStore_len (s : State) : (serStore s).len = s.cfg.fileLen s.save.hdr.count.toNat := by
  rw [serStore, writeBytes_len _ _ _ (Nat.zero_le _), ser_length]
  simp

/-- SV.WRITE before its checksum pass. -/
def writtenState (s : State) : State := { s with fs := serStore s, seq := { Sequencer.rest with cut := true } }

theorem writtenState_fs (s : State) : (writtenState s).fs = serStore s := by
  simp only [writtenState]

/-- Phases W1 and W2: the truncation, then Ser(SV) byte by byte, then the pass begins. -/
theorem svWrite_body_runs (s : State) (hlegal : s.cfg.legal) :
    SeqRuns (1 + s.cfg.fileLen s.save.hdr.count.toNat) { s with seq := { Sequencer.rest with phase := .w1 } }
      (startPass .w3 (writtenState s))
      (.truncate :: (List.range (s.cfg.fileLen s.save.hdr.count.toNat)).map
        fun i => .write i ((ser s.cfg s.save).getD i 0)) := by
  have hlen := ser_length s.cfg s.save
  obtain ⟨k, hk⟩ : ∃ k, s.cfg.fileLen s.save.hdr.count.toNat = k + 1 :=
    Nat.exists_eq_succ_of_ne_zero (by rw [fileLen_eq]; omega)
  have truncate : SeqRuns 1 { s with seq := { Sequencer.rest with phase := .w1 } } (writingAt s 0) [.truncate] :=
    seqRuns_access rfl rfl rfl
  have body := seqRuns_range (writingAt s) (fun p => .write p ((ser s.cfg s.save).getD p 0)) 0 k fun p _ hp =>
    writingAt_succ s hlegal p (by omega)
  have last : SeqRuns 1 (writingAt s k) (startPass .w3 (writtenState s)) [.write k ((ser s.cfg s.save).getD k 0)] := by
    refine seqRuns_access (seqAccess_writingAt s k (by omega)) (permits_writingAt s hlegal k _ (by omega)) ?_
    have hfull : (ser s.cfg s.save).take (k + 1) = ser s.cfg s.save := List.take_of_length_le (by omega)
    rw [perform_writingAt s k (by omega), hfull]
    obtain ⟨ri, bi, hq⟩ : ∃ ri bi, writeSeq s.cfg k =
        { Sequencer.rest with phase := .w2, cut := true, fp := k, ri := ri, bi := bi } := by
      by_cases h8 : k < 8
      · exact ⟨_, _, writeSeq_header _ (by rw [fileLen_eq] at hk; omega) h8⟩
      · exact ⟨_, _, writeSeq_record _ h8⟩
    rw [seqTake_w2_last _ (by simp [writingAt, hq]) (by simp [writingAt, hq, hk])]
    simp [startPass, State.setFs, writingAt, hq, writtenState, serStore, Sequencer.rest]
  rw [Nat.zero_add] at body
  have run := seqRuns_trans truncate (seqRuns_trans body last)
  rw [hk, List.range_succ, List.map_append]
  simpa using run

/-- SV.WRITE before it patches byte `p` of the checksum field, where the pass has left the engine `e`. -/
def patchingAt (s : State) (e : Engine) (p : Nat) : State :=
  { s with fs := (serStore s).writeBytes 0 ((leBytes e.x).take p), ce := e,
           seq := { Sequencer.rest with phase := .w4, cut := true, len := (serStore s).len, fp := p, bi := p } }

/-- The end of an SV.WRITE whose pass has left the engine `e`. -/
def sealedState (s : State) (e : Engine) : State :=
  finish .success ((((s.setFs ((serStore s).writeBytes 0 (leBytes e.x))).setEngine e).setSave
    { s.save with hdr := { s.save.hdr with cksum := e.x } }).setResult e.x)

/-- Phase W4: the four bytes of the checksum go into the checksum field, and the command succeeds. -/
theorem svWrite_patch_runs (s : State) (e : Engine) :
    SeqRuns 4 (patchingAt s e 0) (sealedState s e) ((List.range 4).map fun i => .write i ((leBytes e.x).getD i 0)) := by
  have hpermits (p : Nat) (b : Byte) (hp : p < 4) :
      (patchingAt s e p).fs.permits (patchingAt s e p).cfg.fsCap (.write p b) = true := by
    refine (permits_write _ _ _ _).2 ⟨by simp [patchingAt, serStore], .inl ?_⟩
    simp only [patchingAt]
    rw [writeBytes_len _ _ _ (Nat.zero_le _), serStore_len, fileLen_eq]
    omega
  have hperform (p : Nat) (hp : p < 4) : (patchingAt s e p).fs.perform (.write p ((leBytes e.x).getD p 0)) =
      (serStore s).writeBytes 0 ((leBytes e.x).take (p + 1)) :=
    writeBytes_take_succ _ _ _ hp
  have bytes := seqRuns_range (patchingAt s e) (fun p => .write p ((leBytes e.x).getD p 0)) 0 3 fun p _ hp => by
    refine seqRuns_access rfl (hpermits p _ (by omega)) ?_
    rw [hperform p (by omega), seqTake_w4_inside _ rfl (by simp only [setFs_seq, patchingAt]; omega)]
    simp [patchingAt, State.setFs]
  have last : SeqRuns 1 (patchingAt s e 3) (sealedState s e) [.write 3 ((leBytes e.x).getD 3 0)] := by
    refine seqRuns_access rfl (hpermits 3 _ (by omega)) ?_
    rw [hperform 3 (by omega), seqTake_w4_last _ rfl (by simp [patchingAt])]
    simp [sealedState, patchingAt, finish, State.setResult, State.setSave, State.setEngine, State.setFs, leBytes]
  rw [List.range_succ, List.map_append]
  simpa using seqRuns_trans bytes last

/-- SV.WRITE, access by access, ends as `exec` says. -/
theorem svWrite_runs (s : State) (hlegal : s.cfg.legal) (hwr : s.fs.wrOk = true) :
    ∃ u, exec .svWrite s = .next u ∧
      SeqRuns (1 + s.cfg.fileLen s.save.hdr.count.toNat + (s.cfg.fileLen s.save.hdr.count.toNat + (1 + 4)))
        { s with seq := { Sequencer.rest with phase := .w1 } } u
        ((.truncate :: (List.range (s.cfg.fileLen s.save.hdr.count.toNat)).map
            fun i => .write i ((ser s.cfg s.save).getD i 0)) ++
          (readsFrom 0 (s.cfg.fileLen s.save.hdr.count.toNat) ++
            (List.range 4).map fun i => .write i ((leBytes (fileChecksum false (serStore s)).x).getD i 0))) := by
  have pass := startPass_runs false .w3 (.inl rfl) (writtenState s) rfl (by simp [writtenState, serStore])
  have decision : SeqRuns 1 (passAt false (startPass .w3 (writtenState s)) (writtenState s).fs.len)
      (patchingAt s (fileChecksum false (writtenState s).fs) 0) [] := by
    refine seqRuns_decide (by simp [passAt]) (seqAccess_passAt false .w3 (.inl rfl) (writtenState s)) ?_
    rw [seqDecide_w3 (by simp [passAt]), close_passAt]
    simp [passAt, startPass, writtenState, patchingAt, FileStore.writeBytes, Sequencer.rest]
  rw [writtenState_fs] at pass decision
  have run := seqRuns_trans (svWrite_body_runs s hlegal)
    (seqRuns_trans pass (seqRuns_trans decision (svWrite_patch_runs s (fileChecksum false (serStore s)))))
  rw [serStore_len] at run
  refine ⟨_, ?_, run⟩
  simp only [exec, execSvWrite, hwr, writeBody_eq]
  rfl

end Sys2Proof.Machine
end

section
/-! PROOFS. SV.READ, access by access, and that the two views of a command agree (O55). -/

namespace Sys2Proof.Machine

/-! ### SV.READ -/

/-- One more byte of a run of reads, at its end. -/
theorem readBytes_succ (fs : FileStore) (o n : Nat) : fs.readBytes o (n + 1) = fs.readBytes o n ++ [fs.byteAt (o + n)] := by
  rw [readBytes_eq_map, readBytes_eq_map, List.range_succ, List.map_append]
  rfl

/-- SV.READ, once it has fetched the header bytes below offset `p` (`spec/41_marshaller.md` R143). -/
def fetchingAt (s : State) (p : Nat) : State :=
  { s with seq := { Sequencer.rest with phase := .r1, len := s.fs.len, fp := p, bi := p, buf := s.fs.readBytes 0 p } }

/-- SV.READ with the header fetched, before its length check. -/
def fetchedState (s : State) : State :=
  { s with seq := { Sequencer.rest with phase := .r2, len := s.fs.len, fp := 7, bi := 7,
                                        hdr := headerOfBytes (s.fs.readBytes 0 headerLen) } }

/-- Phase R1: the eight header bytes are read in ascending order. -/
theorem svRead_header_runs (s : State) (hpres : s.fs.present = true) (hlen : headerLen ≤ s.fs.len) :
    SeqRuns 8 (fetchingAt s 0) (fetchedState s) (readsFrom 0 8) := by
  have hpermits (p : Nat) (hp : p < 8) : (fetchingAt s p).fs.permits (fetchingAt s p).cfg.fsCap (.read p) = true :=
    (permits_read _ _ _).2 ⟨hpres, hp.trans_le hlen⟩
  have bytes := seqRuns_range (fetchingAt s) .read 0 7 fun p _ hp => by
    refine seqRuns_access rfl (hpermits p (by omega)) ?_
    rw [seqTake_r1_inside _ rfl (by simp only [setFs_seq, fetchingAt]; omega)]
    simp [fetchingAt, State.setFs, readBytes_succ, FileStore.answer, FileStore.perform]
  have last : SeqRuns 1 (fetchingAt s 7) (fetchedState s) [.read 7] := by
    refine seqRuns_access rfl (hpermits 7 (by omega)) ?_
    rw [seqTake_r1_last _ rfl (by simp [fetchingAt])]
    simp [fetchingAt, fetchedState, State.setFs, readBytes_succ _ 0 7, FileStore.answer, FileStore.perform, headerLen,
      Sequencer.rest]
  exact seqRuns_trans bytes last

/-- The length check of SV.READ fails: ParseError. -/
theorem seqDecide_r2_short {s : State} (hp : s.seq.phase = .r2) (h : s.seq.len < s.cfg.fileLen s.seq.hdr.count.toNat) :
    seqDecide s = finish .parseError s := by
  simp [seqDecide, hp, h]

/-- The length check of SV.READ holds: the pass begins. -/
theorem seqDecide_r2_whole {s : State} (hp : s.seq.phase = .r2) (h : ¬s.seq.len < s.cfg.fileLen s.seq.hdr.count.toNat) :
    seqDecide s = startPass .r3 s := by
  simp [seqDecide, hp, h]

/-- The state SV.READ has after its pass, wherever it goes from there. -/
def checkedState (s : State) : State :=
  ((s.setEngine s.ce.close).setResult s.ce.close.x).setTamper (tampered s.ce.close.x s.seq.hdr.cksum)

/-- The checksum of the file is not the stored one: TamperError. -/
theorem seqDecide_r3_tampered {s : State} (hp : s.seq.phase = .r3) (h : tampered s.ce.close.x s.seq.hdr.cksum = true) :
    seqDecide s = finish .tamperError (checkedState s) := by
  simp [seqDecide, hp, h, checkedState]

/-- The checksum of the file is the stored one: the commit begins. -/
theorem seqDecide_r3_sealed {s : State} (hp : s.seq.phase = .r3) (h : tampered s.ce.close.x s.seq.hdr.cksum = false) :
    seqDecide s =
      { checkedState s with save := { s.save with hdr := s.seq.hdr },
                            seq := { s.seq with phase := .r4, fp := 8, ri := 0, bi := 0, buf := [] } } := by
  simp [seqDecide, hp, h, checkedState, headerLen]

/-- The end of the commit. -/
theorem seqDecide_r4 {s : State} (hp : s.seq.phase = .r4) : seqDecide s = finish .success s := by
  simp [seqDecide, hp]

/-- The commit of SV.READ with the header `h`, once it has read the record bytes below offset `p`: whole records stand in
their slots, the bytes of a record begun are latched. -/
def committingAt (s : State) (h : Header) (p : Nat) : State :=
  { s with
    save := loadRecords s.cfg s.fs ((p - 8) / s.cfg.recLen) { s.save with hdr := h }
    seq := recordSeq s.cfg
      { Sequencer.rest with phase := .r4, len := s.fs.len, hdr := h,
                            buf := s.fs.readBytes (recordBase s.cfg ((p - 8) / s.cfg.recLen)) ((p - 8) % s.cfg.recLen) } p }

/-- One more record committed. -/
theorem loadRecords_succ (c : Config) (fs : FileStore) (n : Nat) (sv : Save) :
    loadRecords c fs (n + 1) sv =
      (loadRecords c fs n sv).putSlot n (scoreOfBytes c (fs.readBytes (recordBase c n) c.recLen)) := by
  simp [loadRecords, List.range_succ]

/-- From each offset of the records the commit goes on to the next. -/
theorem committingAt_succ (s : State) (h : Header) (hpres : s.fs.present = true) (p : Nat) (h8 : 8 ≤ p)
    (hp : p < s.cfg.fileLen h.count.toNat) (hlen : s.cfg.fileLen h.count.toNat ≤ s.fs.len) :
    SeqRuns 1 (committingAt s h p) (committingAt s h (p + 1)) [.read p] := by
  have hri := position_lt s.cfg _ p h8 hp
  have hbase := recordBase_add_position s.cfg p h8
  refine seqRuns_access ?_ ((permits_read _ _ _).2 ⟨hpres, hp.trans_le hlen⟩) ?_
  · exact if_pos hri
  · by_cases hlast : (p - 8) % s.cfg.recLen + 1 < s.cfg.recLen
    · obtain ⟨hdiv, hmod⟩ := position_inside s.cfg p h8 hlast
      have hbuf := readBytes_succ s.fs (recordBase s.cfg ((p - 8) / s.cfg.recLen)) ((p - 8) % s.cfg.recLen)
      rw [hbase] at hbuf
      rw [seqTake_r4_inside _ rfl (by exact hlast)]
      simp only [committingAt, recordSeq, State.setFs, FileStore.answer, FileStore.perform, hdiv, hmod, hbuf]
    · obtain ⟨hdiv, hmod, hfull⟩ := position_last s.cfg p h8 hlast
      have hrecord := readBytes_succ s.fs (recordBase s.cfg ((p - 8) / s.cfg.recLen)) ((p - 8) % s.cfg.recLen)
      rw [hfull, hbase] at hrecord
      rw [seqTake_r4_last _ rfl (by exact hlast)]
      simp only [committingAt, recordSeq, State.setFs, FileStore.answer, FileStore.perform, hdiv, hmod, loadRecords_succ,
        hrecord, FileStore.readBytes]

/-- Phase R4: the records are read in ascending order and put into their slots, and the command succeeds. -/
theorem svRead_commit_runs (s : State) (h : Header) (hpres : s.fs.present = true)
    (hlen : s.cfg.fileLen h.count.toNat ≤ s.fs.len) :
    SeqRuns (s.cfg.recLen * h.count.toNat + 1) (committingAt s h 8)
      (finish .success (s.setSave (loadRecords s.cfg s.fs h.count.toNat { s.save with hdr := h })))
      (readsFrom 8 (s.cfg.recLen * h.count.toNat)) := by
  have hfile := fileLen_eq s.cfg h.count.toNat
  have records := seqRuns_range (committingAt s h) .read 8 (s.cfg.recLen * h.count.toNat) fun p h8 hp =>
    committingAt_succ s h hpres p h8 (by omega) hlen
  have hend : (8 + s.cfg.recLen * h.count.toNat - 8) / s.cfg.recLen = h.count.toNat := by
    rw [Nat.add_sub_cancel_left, Nat.mul_div_cancel_left _ (recLen_pos _)]
  have done : SeqRuns 1 (committingAt s h (8 + s.cfg.recLen * h.count.toNat))
      (finish .success (s.setSave (loadRecords s.cfg s.fs h.count.toNat { s.save with hdr := h }))) [] := by
    refine seqRuns_decide (by simp [committingAt, recordSeq]) ?_ ?_
    · exact if_neg (by simp only [committingAt, recordSeq, hend, Nat.lt_irrefl, not_false_eq_true])
    · rw [seqDecide_r4 rfl]
      simp only [committingAt, finish, State.setSave, hend]
  have run := seqRuns_trans records done
  rwa [List.append_nil] at run

/-- The file is too short for the records its header announces: ParseError after the header, as `exec` says. -/
theorem svRead_runs_short (s : State) (hpres : s.fs.present = true) (hlen : headerLen ≤ s.fs.len)
    (hshort : s.fs.len < s.cfg.fileLen (headerOfBytes (s.fs.readBytes 0 headerLen)).count.toNat) :
    SeqRuns (8 + 1) (fetchingAt s 0) (finish .parseError s) (readsFrom 0 8) ∧
      exec .svRead s = .next (finish .parseError s) := by
  constructor
  · have run := seqRuns_trans (svRead_header_runs s hpres hlen) (seqRuns_decide (t := finish .parseError s)
      (by simp [fetchedState]) rfl ((seqDecide_r2_short rfl hshort).trans rfl))
    rwa [List.append_nil] at run
  · simp [exec, execSvRead, hpres, Nat.not_lt.2 hlen, hshort, raise_eq]

/-- The header of the file as SV.READ fetches it. -/
def fileHeader (s : State) : Header := headerOfBytes (s.fs.readBytes 0 headerLen)

/-- What the pass of SV.READ writes of the host's registers and the engine. -/
def verifiedState (s : State) : State :=
  ((s.setEngine (fileChecksum true s.fs)).setResult (fileChecksum true s.fs).x).setTamper
    (tampered (fileChecksum true s.fs).x (fileHeader s).cksum)

/-- SV.READ of a whole file as one step: the comparison with the stored checksum decides. -/
theorem exec_svRead_whole (s : State) (hpres : s.fs.present = true) (hlen : headerLen ≤ s.fs.len)
    (hwhole : s.cfg.fileLen (fileHeader s).count.toNat ≤ s.fs.len) :
    exec .svRead s =
      if tampered (fileChecksum true s.fs).x (fileHeader s).cksum then .next (finish .tamperError (verifiedState s))
      else .next (finish .success ((verifiedState s).setSave
        (loadRecords s.cfg s.fs (fileHeader s).count.toNat { s.save with hdr := fileHeader s }))) := by
  rw [fileHeader] at hwhole
  simp only [exec, execSvRead, hpres, if_neg (Nat.not_lt.2 hlen), if_neg (Nat.not_lt.2 hwhole)]
  rfl

/-- SV.READ, access by access, at the end of its pass. -/
def passedState (s : State) : State := passAt true (startPass .r3 (fetchedState s)) s.fs.len

theorem passedState_close (s : State) : (passedState s).ce.close = fileChecksum true s.fs :=
  close_passAt true .r3 (fetchedState s)

theorem passedState_seq (s : State) :
    (passedState s).seq =
      { Sequencer.rest with phase := .r3, len := s.fs.len, hdr := fileHeader s, fp := s.fs.len } := rfl

theorem seqAccess_passedState (s : State) : seqAccess (passedState s) = none :=
  seqAccess_passAt true .r3 (.inr (.inl rfl)) (fetchedState s)

/-- The comparison at the end of the pass is the one `exec` makes. -/
theorem passedState_tampered (s : State) :
    tampered (passedState s).ce.close.x (passedState s).seq.hdr.cksum =
      tampered (fileChecksum true s.fs).x (fileHeader s).cksum := by
  rw [passedState_close, passedState_seq]

/-- At the end of its pass SV.READ, access by access, has written what the one-step command writes by then. -/
theorem checkedState_passedState (s : State) :
    checkedState (passedState s) = { verifiedState s with seq := (passedState s).seq } := by
  rw [checkedState, passedState_close, passedState_seq]
  simp [passedState, passAt, startPass, fetchedState, verifiedState, fileHeader, State.setEngine, State.setResult,
    State.setTamper, Sequencer.rest]

/-- SV.READ of a whole file up to the end of its pass: the header and then the whole file are read. -/
theorem svRead_pass_runs (s : State) (hpres : s.fs.present = true) (hlen : headerLen ≤ s.fs.len)
    (hwhole : s.cfg.fileLen (fileHeader s).count.toNat ≤ s.fs.len) :
    SeqRuns (8 + (1 + s.fs.len)) (fetchingAt s 0) (passedState s)
      (readsFrom 0 8 ++ readsFrom 0 s.fs.len) :=
  seqRuns_trans (svRead_header_runs s hpres hlen)
    (seqRuns_trans (seqRuns_decide (by simp [fetchedState]) rfl (seqDecide_r2_whole rfl (Nat.not_lt.2 hwhole)))
      (startPass_runs true .r3 (.inr (.inl rfl)) (fetchedState s) rfl hpres))

section
variable (s : State) (hpres : s.fs.present = true) (hlen : headerLen ≤ s.fs.len)
  (hwhole : s.cfg.fileLen (fileHeader s).count.toNat ≤ s.fs.len)
include hpres hlen hwhole

/-- A whole file whose checksum is not the stored one: TamperError after the pass, as `exec` says. -/
theorem svRead_runs_tampered (ht : tampered (fileChecksum true s.fs).x (fileHeader s).cksum = true) :
    SeqRuns (8 + (1 + s.fs.len) + 1) (fetchingAt s 0) (finish .tamperError (verifiedState s))
        (readsFrom 0 8 ++ readsFrom 0 s.fs.len) ∧
      exec .svRead s = .next (finish .tamperError (verifiedState s)) := by
  constructor
  · have raised : SeqRuns 1 (passedState s)
        (finish .tamperError (verifiedState s)) [] := by
      refine seqRuns_decide (by simp [passedState_seq]) (seqAccess_passedState s) ?_
      rw [seqDecide_r3_tampered rfl ((passedState_tampered s).trans ht), checkedState_passedState]
      rfl
    have run := seqRuns_trans (svRead_pass_runs s hpres hlen hwhole) raised
    rwa [List.append_nil] at run
  · rw [exec_svRead_whole s hpres hlen hwhole, if_pos ht]

/-- A whole file whose checksum is the stored one: the records are committed after the pass, as `exec` says. -/
theorem svRead_runs_sealed (ht : tampered (fileChecksum true s.fs).x (fileHeader s).cksum = false) :
    ∃ u, SeqRuns (8 + (1 + s.fs.len) + (1 + (s.cfg.recLen * (fileHeader s).count.toNat + 1))) (fetchingAt s 0) u
        (readsFrom 0 8 ++ readsFrom 0 s.fs.len ++ readsFrom 8 (s.cfg.recLen * (fileHeader s).count.toNat)) ∧
      exec .svRead s = .next u := by
  have committed : SeqRuns 1 (passedState s)
      (committingAt (verifiedState s) (fileHeader s) 8) [] := by
    refine seqRuns_decide (by simp [passedState_seq]) (seqAccess_passedState s) ?_
    rw [seqDecide_r3_sealed rfl ((passedState_tampered s).trans ht), checkedState_passedState, passedState_seq]
    simp [passedState, passAt, startPass, fetchedState, committingAt, verifiedState, fileHeader, recordSeq, loadRecords,
      FileStore.readBytes, Sequencer.rest]
  have run := seqRuns_trans (svRead_pass_runs s hpres hlen hwhole)
    (seqRuns_trans committed (svRead_commit_runs (verifiedState s) (fileHeader s) hpres hwhole))
  refine ⟨_, run, ?_⟩
  rw [exec_svRead_whole s hpres hlen hwhole, if_neg (by simp [ht])]
  rfl

end

/-- SV.READ of a present file with a header, access by access, ends as `exec` says. -/
theorem svRead_runs (s : State) (hpres : s.fs.present = true) (hlen : headerLen ≤ s.fs.len) :
    ∃ k u tr, SeqRuns k (fetchingAt s 0) u tr ∧ exec .svRead s = .next u := by
  by_cases hshort : s.fs.len < s.cfg.fileLen (fileHeader s).count.toNat
  · exact ⟨_, _, _, svRead_runs_short s hpres hlen hshort⟩
  · cases ht : tampered (fileChecksum true s.fs).x (fileHeader s).cksum
    · obtain ⟨u, hu⟩ := svRead_runs_sealed s hpres hlen (Nat.not_lt.1 hshort) ht
      exact ⟨_, u, _, hu⟩
    · exact ⟨_, _, _, svRead_runs_tampered s hpres hlen (Nat.not_lt.1 hshort) ht⟩

/-! ### The two views agree -/

/-- Every command of a legal configuration, begun access by access and run with nothing in between, ends as `exec` says. -/
theorem beginInstr_runs (i : Instr) (s : State) (hlegal : s.cfg.legal) :
    ∃ k t, beginInstr i s = .next t ∧ seqRun k t = exec i s := by
  rcases beginInstr_cases i s with h | ⟨rfl, hwr, h⟩ | ⟨rfl, hpres, hlen, h⟩ | ⟨op, hi, hpres, h⟩
  · obtain ⟨code, m, he, -⟩ := exec_eq_finish i s
    exact ⟨0, _, h.trans he, he.symm⟩
  · obtain ⟨u, he, hrun, -⟩ := svWrite_runs s hlegal hwr
    exact ⟨_, _, h, hrun.trans he.symm⟩
  · obtain ⟨k, u, tr, ⟨hrun, -⟩, he⟩ := svRead_runs s hpres hlen
    exact ⟨k, _, h, hrun.trans he.symm⟩
  · obtain ⟨u, ⟨hrun, -⟩, he⟩ := pass_command_runs i op hi s hpres
    exact ⟨_, _, h, hrun.trans he.symm⟩

end Sys2Proof.Machine

open Sys2Proof Sys2Proof.Machine

/-- Settles O55: an illegal word ends at once in both views; a command by its phases, run one after the other. -/
theorem accessByAccessRunHasTheWholeEffect : Obligations.AccessByAccessRunHasTheWholeEffect := by
  unfold Obligations.AccessByAccessRunHasTheWholeEffect
  intro s w _ hlegal
  unfold beginCommand issueCommand
  cases decode w with
  | command i => exact beginInstr_runs i s hlegal
  | illegal why => exact ⟨0, finish .illegalCommand s, rfl, rfl⟩

end

section
/-! PROOFS. What a command can answer, once for all commands: its effect, case by case. Every statement about who writes what
is then a split over the effects. -/

namespace Sys2Proof.Machine

/-- A command that fails before it has written anything, with the code it raises (`spec/60_exceptions.md` R191, R193). -/
inductive Fails (s : State) : Instr → ResultCode → Prop
  | noFile {i : Instr} (hi : i ∈ [Instr.fsCsum, .fsCsumz, .svRead, .svVerify]) (h : s.fs.present = false) :
      Fails s i .ioError
  | notWritable (h : s.fs.wrOk = false) : Fails s .svWrite .ioError
  | shortFile (hpres : s.fs.present = true)
      (h : s.fs.len < headerLen ∨ s.fs.len < s.cfg.fileLen (fileHeader s).count.toNat) : Fails s .svRead .parseError
  | bufferFull (h : s.save.hdr.count = 255#8) : Fails s .svAppend .capacityError
  | outOfBounds {i : Instr} (idx : Byte) (hi : i = .scGet idx ∨ i = .scPut idx) (h : inBounds idx s = false) :
      Fails s i .boundsError

/-- The file SV.READ needs to reach verification: present, with a header, and as long as the header says (R143). -/
abbrev State.holdsWholeFile (s : State) : Prop :=
  s.fs.present = true ∧ headerLen ≤ s.fs.len ∧ s.cfg.fileLen (fileHeader s).count.toNat ≤ s.fs.len

/-- The save buffer after SV.READ has committed the file (R143, step 4). -/
def loadedSave (s : State) : Save :=
  loadRecords s.cfg s.fs (fileHeader s).count.toNat { s.save with hdr := fileHeader s }

/-- The save buffer after SV.APPEND (R171). -/
def appendedSave (s : State) : Save :=
  { s.save.putSlot s.save.hdr.count.toNat (stagingScore s) with
    hdr := { s.save.hdr with count := s.save.hdr.count + 1 } }

/-- The states a command can end in: one case per command and outcome. -/
inductive Effect (s : State) : Instr → State → Prop
  | failed {i : Instr} {code : ResultCode} (h : Fails s i code) : Effect s i (finish code s)
  | adlRst : Effect s .adlRst (finish .success (s.setEngine { s.ce with a := 1, b := 0 }))
  | adlByte (d : Byte) : Effect s (.adlByte d) (finish .success (s.setEngine (s.ce.addByte d)))
  | adlVal : Effect s .adlVal (finish .success (s.setResult (packSums s.ce.a s.ce.b)))
  | ckInit : Effect s .ckInit (finish .success (s.setEngine Engine.init))
  | ckPush (d : Byte) : Effect s (.ckPush d) (finish .success (s.setEngine (s.ce.push d)))
  | ckEnd : Effect s .ckEnd (finish .success ((s.setEngine s.ce.close).setResult s.ce.close.x))
  | fsCsum (hpres : s.fs.present = true) : Effect s .fsCsum
      (finish .success ((s.setEngine (fileChecksum false s.fs)).setResult (fileChecksum false s.fs).x))
  | fsCsumz (hpres : s.fs.present = true) : Effect s .fsCsumz
      (finish .success ((s.setEngine (fileChecksum true s.fs)).setResult (fileChecksum true s.fs).x))
  | svWrite (hwr : s.fs.wrOk = true) : Effect s .svWrite (sealedState s (fileChecksum false (serStore s)))
  | svReadTampered (hfile : s.holdsWholeFile)
      (ht : tampered (fileChecksum true s.fs).x (fileHeader s).cksum = true) :
      Effect s .svRead (finish .tamperError (verifiedState s))
  | svReadSealed (hfile : s.holdsWholeFile)
      (ht : tampered (fileChecksum true s.fs).x (fileHeader s).cksum = false) :
      Effect s .svRead (finish .success ((verifiedState s).setSave (loadedSave s)))
  | svVerify (hpres : s.fs.present = true) : Effect s .svVerify
      (finish .success (((s.setEngine (fileChecksum true s.fs)).setResult (fileChecksum true s.fs).x).setTamper
        (tampered (fileChecksum true s.fs).x s.arg)))
  | svAppend (h : s.save.hdr.count ≠ 255#8) : Effect s .svAppend (finish .success (s.setSave (appendedSave s)))
  | svNew (n : Byte) : Effect s (.svNew n) (finish .success (newSave n 0 0 0 s))
  | svInit (n : Byte) :
      Effect s (.svInit n) (finish .success (newSave n (dayOf s.now) (monthOf s.now) (yearOf s.now) s))
  | scGet (idx : Byte) (h : inBounds idx s = true) :
      Effect s (.scGet idx) (finish .success (loadStaging (s.save.slot (immNat idx)) s))
  | scPut (idx : Byte) (h : inBounds idx s = true) :
      Effect s (.scPut idx) (finish .success (s.setSave (s.save.putSlot (immNat idx) (stagingScore s))))

/-- A command that fails answers the state it was given, with the error's code. -/
theorem Fails.exec_eq {s : State} {i : Instr} {code : ResultCode} (h : Fails s i code) :
    exec i s = .next (finish code s) := by
  cases h with
  | noFile hi h =>
    simp only [List.mem_cons, List.not_mem_nil, or_false] at hi
    rcases hi with rfl | rfl | rfl | rfl
    · exact if_pos h
    · exact if_pos h
    · exact if_pos h
    · exact if_pos h
  | notWritable h => exact if_pos h
  | shortFile hpres h =>
    rw [exec, execSvRead, if_neg (by simp [hpres])]
    by_cases h8 : s.fs.len < headerLen
    · exact if_pos h8
    · exact (if_neg h8).trans (if_pos (h.resolve_left h8))
  | bufferFull h => exact if_pos h
  | outOfBounds idx hi h =>
    rcases hi with rfl | rfl
    · exact if_neg (by simp [h])
    · exact if_neg (by simp [h])

/-- Every effect is what the command answers. -/
theorem Effect.exec_eq {s t : State} {i : Instr} (h : Effect s i t) : exec i s = .next t := by
  cases h with
  | failed h => exact h.exec_eq
  | fsCsum hpres => exact if_neg (by simp [hpres])
  | fsCsumz hpres => exact if_neg (by simp [hpres])
  | svVerify hpres => exact if_neg (by simp [hpres])
  | svWrite hwr =>
    rw [exec, execSvWrite, if_neg (by simp [hwr]), writeBody_eq]
    rfl
  | svReadTampered hfile ht =>
    obtain ⟨hpres, hlen, hwhole⟩ := hfile
    rw [exec_svRead_whole s hpres hlen hwhole, if_pos ht]
  | svReadSealed hfile ht =>
    obtain ⟨hpres, hlen, hwhole⟩ := hfile
    rw [exec_svRead_whole s hpres hlen hwhole, if_neg (by simp [ht]), loadedSave]
  | svAppend h => exact if_neg h
  | scGet idx h => exact if_pos h
  | scPut idx h => exact if_pos h
  | _ => rfl

/-- Every command has an effect. -/
theorem exists_effect (i : Instr) (s : State) : ∃ t, Effect s i t := by
  cases i with
  | adlRst => exact ⟨_, .adlRst⟩
  | adlByte d => exact ⟨_, .adlByte d⟩
  | adlVal => exact ⟨_, .adlVal⟩
  | ckInit => exact ⟨_, .ckInit⟩
  | ckPush d => exact ⟨_, .ckPush d⟩
  | ckEnd => exact ⟨_, .ckEnd⟩
  | fsCsum =>
    cases hpres : s.fs.present
    · exact ⟨_, .failed (.noFile (by simp) hpres)⟩
    · exact ⟨_, .fsCsum hpres⟩
  | fsCsumz =>
    cases hpres : s.fs.present
    · exact ⟨_, .failed (.noFile (by simp) hpres)⟩
    · exact ⟨_, .fsCsumz hpres⟩
  | svVerify =>
    cases hpres : s.fs.present
    · exact ⟨_, .failed (.noFile (by simp) hpres)⟩
    · exact ⟨_, .svVerify hpres⟩
  | svWrite =>
    cases hwr : s.fs.wrOk
    · exact ⟨_, .failed (.notWritable hwr)⟩
    · exact ⟨_, .svWrite hwr⟩
  | svRead =>
    cases hpres : s.fs.present
    · exact ⟨_, .failed (.noFile (by simp) hpres)⟩
    by_cases hshort : s.fs.len < headerLen ∨ s.fs.len < s.cfg.fileLen (fileHeader s).count.toNat
    · exact ⟨_, .failed (.shortFile hpres hshort)⟩
    have hfile : s.holdsWholeFile := ⟨hpres, by omega, by omega⟩
    cases ht : tampered (fileChecksum true s.fs).x (fileHeader s).cksum
    · exact ⟨_, .svReadSealed hfile ht⟩
    · exact ⟨_, .svReadTampered hfile ht⟩
  | svAppend =>
    by_cases h : s.save.hdr.count = 255#8
    · exact ⟨_, .failed (.bufferFull h)⟩
    · exact ⟨_, .svAppend h⟩
  | svNew n => exact ⟨_, .svNew n⟩
  | svInit n => exact ⟨_, .svInit n⟩
  | scGet idx =>
    cases h : inBounds idx s
    · exact ⟨_, .failed (.outOfBounds idx (.inl rfl) h)⟩
    · exact ⟨_, .scGet idx h⟩
  | scPut idx =>
    cases h : inBounds idx s
    · exact ⟨_, .failed (.outOfBounds idx (.inr rfl) h)⟩
    · exact ⟨_, .scPut idx h⟩

/-- What a command answers is its effect, and nothing else. -/
theorem exec_eq_next_iff {i : Instr} {s t : State} : exec i s = .next t ↔ Effect s i t := by
  refine ⟨fun h => ?_, Effect.exec_eq⟩
  obtain ⟨u, hu⟩ := exists_effect i s
  have := hu.exec_eq.symm.trans h
  cases this
  exact hu

/-- A failure's code is neither success nor TamperError. -/
theorem Fails.code_ne {s : State} {i : Instr} {code : ResultCode} (h : Fails s i code) :
    code ≠ .success ∧ code ≠ .tamperError := by
  cases h <;> simp

end Sys2Proof.Machine
end

section
/-! PROOFS. The invariant of the machine: reset meets it (O53), every step keeps it (O52), the sums stay reduced (O51), and
the sequencer's pointers fit their widths (O54). -/

namespace Sys2Proof.Machine

/-! ### A command as one step -/

section
variable {s t : State} {i : Instr}

/-- Reduced sums are reduced after a command. -/
theorem Effect.inRange (h : Effect s i t) (hce : s.ce.inRange) : t.ce.inRange := by
  cases h with
  | adlRst => exact ⟨by simp, by simp⟩
  | adlByte d => exact addByte_inRange s.ce d
  | ckInit => exact init_inRange
  | ckPush d => exact push_inRange s.ce d
  | ckEnd => exact close_inRange s.ce hce
  | fsCsum => exact fileChecksum_inRange _ _
  | fsCsumz => exact fileChecksum_inRange _ _
  | svWrite => exact fileChecksum_inRange _ _
  | svReadTampered => exact fileChecksum_inRange _ _
  | svReadSealed => exact fileChecksum_inRange _ _
  | svVerify => exact fileChecksum_inRange _ _
  | _ => exact hce

/-- Only a successful SV.WRITE changes the file store (`spec/20_memory.md` R60). -/
theorem Effect.fs (h : Effect s i t) :
    t.fs = s.fs ∨ (i = .svWrite ∧ s.fs.wrOk = true ∧
      t.fs = (serStore s).writeBytes 0 (leBytes (fileChecksum false (serStore s)).x)) := by
  cases h with
  | svWrite hwr => exact .inr ⟨rfl, hwr, rfl⟩
  | _ => exact .inl rfl

/-- A run of writes that begins inside a present file and ends below the capacity keeps the store's invariants. -/
theorem writeBytes_ok {cap : Nat} {fs : FileStore} (h : fs.ok cap) (hpres : fs.present = true) (off : Nat)
    (bs : List Byte) (hoff : off ≤ fs.len) (hcap : off + bs.length ≤ cap) : (fs.writeBytes off bs).ok cap := by
  obtain ⟨hl, -, hw, hc⟩ := h
  refine ⟨?_, fun ha => ?_, writeBytes_wf fs hw off bs, writeBytes_lt fs cap hc off bs hcap⟩
  · rw [writeBytes_len fs off bs hoff]
    omega
  · rw [writeBytes_present, hpres] at ha
    cases ha

/-- Ser(SV) fits every store of a legal configuration (`spec/70_reset_and_hazards.md` R223). -/
theorem serStore_ok (hlegal : s.cfg.legal) (hfs : s.fs.ok s.cfg.fsCap) : (serStore s).ok s.cfg.fsCap := by
  have hfit := fileLen_le_fsCap s.cfg hlegal s.save.hdr.count
  refine writeBytes_ok (perform_ok s.fs _ .truncate hfs rfl) rfl 0 _ (Nat.zero_le _) ?_
  rwa [Nat.zero_add, ser_length]

/-- A command keeps the store's invariants. -/
theorem Effect.fs_ok (h : Effect s i t) (hlegal : s.cfg.legal) (hfs : s.fs.ok s.cfg.fsCap) : t.fs.ok s.cfg.fsCap := by
  rcases h.fs with heq | ⟨-, -, heq⟩ <;> rw [heq]
  · exact hfs
  · have hfit := fileLen_le_fsCap s.cfg hlegal s.save.hdr.count
    refine writeBytes_ok (serStore_ok hlegal hfs) (writeBytes_present ..) 0 _ (Nat.zero_le _) ?_
    rw [fileLen_eq] at hfit
    rw [leBytes_length]
    omega

/-- A block at rest meets the invariant if the rest of its state does. -/
theorem inv_of_idle (hlegal : t.cfg.legal) (hce : t.ce.inRange) (hfs : t.fs.ok t.cfg.fsCap) (hidle : t.idle) : t.Inv := by
  refine ⟨hlegal, hce, hfs, (fits_idle ?_).2 hidle⟩
  rw [hidle]
  rfl

/-- A command keeps the invariant. -/
theorem exec_inv (hi : s.Inv) (h : exec i s = .next t) : t.Inv := by
  obtain ⟨hlegal, hce, hfs, -⟩ := hi
  obtain ⟨hc, -, -, -, -, hidle⟩ := exec_keeps i s t h
  have he := exec_eq_next_iff.1 h
  refine inv_of_idle (hc ▸ hlegal) (he.inRange hce) ?_ hidle
  rw [hc]
  exact he.fs_ok hlegal hfs

/-! ### The other steps -/

/-- The sums are reduced where a command begins access by access: it is over at once, or it has not touched them, or its pass
has set them. -/
theorem beginInstr_inRange (hce : s.ce.inRange) (h : beginInstr i s = .next t) : t.ce.inRange := by
  rcases beginInstr_cases i s with he | ⟨-, -, he⟩ | ⟨-, -, -, he⟩ | ⟨op, -, -, he⟩ <;> rw [he] at h
  · exact (exec_eq_next_iff.1 h).inRange hce
  · cases h
    exact hce
  · cases h
    exact hce
  · cases h
    exact init_inRange

/-- Where a command begins access by access its pointers fit its first phase. -/
theorem beginInstr_inv (hi : s.Inv) (h : beginInstr i s = .next t) : t.Inv := by
  have hsums := beginInstr_inRange hi.2.1 h
  rcases beginInstr_cases i s with he | ⟨-, -, he⟩ | ⟨-, -, -, he⟩ | ⟨op, -, -, he⟩ <;> rw [he] at h
  · exact exec_inv hi h
  all_goals
    obtain ⟨hlegal, -, hfs, -⟩ := hi
    cases h
    refine ⟨hlegal, hsums, hfs, ?_⟩
  · exact (fits_w1 rfl).2 ⟨Nat.zero_lt_succ _, rfl, rfl, .inr rfl⟩
  · exact (fits_r1 rfl).2 ⟨Nat.zero_lt_succ _, rfl, rfl, rfl⟩
  · exact startPass_fits (s := { s with seq := { Sequencer.rest with op := op } }) (.inr (.inr rfl)) hfs.1

/-- An illegal word keeps the invariant: it writes STATUS.ERR alone, and the sequencer rests. -/
theorem finish_inv (hi : s.Inv) (code : ResultCode) : (finish code s).Inv := by
  obtain ⟨hlegal, hce, hfs, -⟩ := hi
  exact inv_of_idle hlegal hce hfs rfl

/-- A reset keeps the invariant, whatever the block is doing. -/
theorem resetBlock_inv (hi : s.Inv) : (resetBlock s).Inv := by
  obtain ⟨hlegal, -, hfs, -⟩ := hi
  exact inv_of_idle hlegal init_inRange hfs rfl

/-- A register write keeps the invariant: it touches nothing the invariant speaks of. -/
theorem regWrite_inv (hi : s.Inv) (reg : BitVec 6) (v : Word) : (regWrite reg v s).Inv := by
  obtain ⟨hfs, hcfg, hce, hseq, -, hcount⟩ := regWrite_keeps reg v s
  rwa [State.Inv, hfs, hcfg, hce, hseq, hcount]

/-- A step of a running command keeps the sums reduced. -/
theorem seqStep_inRange (hce : s.ce.inRange) (h : seqStep s = .next t) : t.ce.inRange := by
  rcases seqStep_cases s t h with ⟨-, rfl⟩ | ⟨acc, -, -, rfl⟩ | ⟨acc, -, -, rfl⟩
  · exact seqDecide_inRange hce
  · exact seqTake_inRange (s := s.setFs (s.fs.perform acc)) _ hce
  · exact seqTake_inRange (s := makeAstray acc s) _ hce

end

/-! ### From the parts of a step to the step -/

/-- A property of states that each part of a step keeps: a command in either view, an illegal word, a register access, a reset,
an action of the environment, a step of a running command, and the queue. -/
structure KeptByParts (P : State → Prop) : Prop where
  queue : ∀ s rest, P s → P { s with inbox := rest }
  command : ∀ i s t, P s → exec i s = .next t → P t
  commandBegun : ∀ i s t, P s → beginInstr i s = .next t → P t
  illegalWord : ∀ s, P s → P (finish .illegalCommand s)
  registerWrite : ∀ reg v s, P s → P (regWrite reg v s)
  registerRead : ∀ reg s, P s → P (hostRead reg s)
  reset : ∀ s, P s → P (resetBlock s)
  environment : ∀ act s, P s → P (applyEnv act s)
  running : ∀ s t, P s → s.seq.phase ≠ .idle → seqStep s = .next t → P t

section
variable {P : State → Prop} (hk : KeptByParts P) {s t : State}
include hk

/-- What the parts of a step keep, an event that an IDLE block takes keeps. -/
theorem KeptByParts.takeWhenIdle {ev : Input} (hs : P s) (h : takeWhenIdle ev s = .next t) : P t := by
  rcases takeWhenIdle_cases ev s t h with
    ⟨w, -, hw⟩ | ⟨reg, v, -, -, rfl⟩ | ⟨reg, -, rfl⟩ | ⟨w, -, hw⟩ | ⟨-, rfl⟩ | ⟨act, -, rfl⟩ | ⟨-, rfl⟩
  · rcases issueCommand_cases w s with ⟨i, -, he⟩ | ⟨why, -, he⟩ <;> rw [he] at hw
    · exact hk.command i s t hs hw
    · cases hw
      exact hk.illegalWord s hs
  · exact hk.registerWrite reg v s hs
  · exact hk.registerRead reg s hs
  · rcases beginCommand_cases w s with ⟨i, -, he⟩ | ⟨why, -, he⟩ <;> rw [he] at hw
    · exact hk.commandBegun i s t hs hw
    · cases hw
      exact hk.illegalWord s hs
  · exact hk.reset s hs
  · exact hk.environment act s hs
  · exact hs

/-- What the parts of a step keep, every step keeps. -/
theorem KeptByParts.step (hs : P s) (h : step s = .next t) : P t := by
  rcases step_cases s t h with ⟨-, -, rfl⟩ | ⟨-, ev, rest, -, he⟩ | ⟨-, rest, -, rfl⟩ | ⟨-, act, rest, -, rfl⟩ |
    ⟨hbusy, rest, -, he⟩ | ⟨hbusy, he⟩
  · exact hs
  · exact hk.takeWhenIdle (hk.queue s rest hs) he
  · exact hk.reset _ (hk.queue s rest hs)
  · exact hk.environment act _ (hk.queue s rest hs)
  · exact hk.running { s with inbox := rest } t (hk.queue s rest hs) hbusy he
  · exact hk.running s t hs hbusy he

end

/-- The invariant of the machine is kept by every part of a step. -/
theorem inv_keptByParts : KeptByParts State.Inv where
  queue _ _ hi := hi
  command _ _ _ hi h := exec_inv hi h
  commandBegun _ _ _ hi h := beginInstr_inv hi h
  illegalWord _ hi := finish_inv hi _
  registerWrite reg v _ hi := regWrite_inv hi reg v
  registerRead _ _ hi := hi
  reset _ hi := resetBlock_inv hi
  environment act _ hi := (applyEnv_inv act hi).1
  running _ _ hi hbusy h := (seqStep_advances hi hbusy h).1

/-- That the sums are reduced is kept by every part of a step. -/
theorem inRange_keptByParts : KeptByParts fun s => s.ce.inRange where
  queue _ _ hce := hce
  command _ _ _ hce h := (exec_eq_next_iff.1 h).inRange hce
  commandBegun _ _ _ hce h := beginInstr_inRange hce h
  illegalWord _ hce := hce
  registerWrite reg v s hce := by
    obtain ⟨-, -, heq, -⟩ := regWrite_keeps reg v s
    rwa [heq]
  registerRead _ _ hce := hce
  reset _ _ := init_inRange
  environment _ _ hce := hce
  running _ _ hce _ h := seqStep_inRange hce h

/-! ### The widths of the sequencer's pointers -/

section
variable {c : Config} {n : Byte} {q : Sequencer}

/-- Inside the records of a save file the pointers fit their widths, and the file offset is below the store's capacity. -/
theorem inRecord_bounds (hlegal : c.legal) (h : q.inRecord c n.toNat = true) :
    q.ri < 256 ∧ q.bi < 16 ∧ q.fp < c.fsCap := by
  obtain ⟨-, hbi, hri⟩ := inRecord_iff.1 h
  have hn := n.isLt
  have hfit := fileLen_le_fsCap c hlegal n
  have hfp := inRecord_lt h
  rw [fileLen_eq] at hfit
  rcases recLen_cases c with hlen | hlen <;> omega

/-- Pointers that fit their phase fit their widths (`spec/10_state.md` R50). -/
theorem fits_bounds (hlegal : c.legal) (h : q.fits c n.toNat = true) : q.ri < 256 ∧ q.bi < 16 ∧ q.fp ≤ c.fsCap := by
  have hheader : 8 ≤ c.fsCap := (Nat.le_add_right _ _).trans hlegal
  have pass (hp : q.phase.isPass) : q.ri < 256 ∧ q.bi < 16 ∧ q.fp ≤ c.fsCap := by
    obtain ⟨hfp, hlen, hri, hbi⟩ := (fits_pass hp).1 h
    omega
  cases hp : q.phase with
  | idle =>
    rw [(fits_idle hp).1 h]
    exact ⟨by decide, by decide, Nat.zero_le _⟩
  | w1 =>
    obtain ⟨hfp, hri, hbi, -⟩ := (fits_w1 hp).1 h
    omega
  | w2 =>
    rcases (fits_w2 hp).1 h with ⟨-, hfp, hri, hbi⟩ | hr
    · omega
    · obtain ⟨hri, hbi, hfp⟩ := inRecord_bounds hlegal hr
      exact ⟨hri, hbi, hfp.le⟩
  | w3 => exact pass (.inl hp)
  | w4 =>
    obtain ⟨hfp, hri, hbi⟩ := (fits_w4 hp).1 h
    omega
  | r1 =>
    obtain ⟨hfp, -, hri, hbi⟩ := (fits_r1 hp).1 h
    omega
  | r2 =>
    obtain ⟨hfp, hri, hbi⟩ := (fits_r2 hp).1 h
    omega
  | r3 => exact pass (.inr (.inl hp))
  | r4 =>
    obtain ⟨-, hr | ⟨hfp, hri, hbi⟩⟩ := (fits_r4 hp).1 h
    · obtain ⟨hri, hbi, hfp⟩ := inRecord_bounds hlegal hr
      exact ⟨hri, hbi, hfp.le⟩
    · have hfit := fileLen_le_fsCap c hlegal q.hdr.count
      have hcount := q.hdr.count.isLt
      rw [fileLen_eq] at hfit
      omega
  | v1 => exact pass (.inr (.inr hp))

end

end Sys2Proof.Machine

open Sys2Proof Sys2Proof.Machine

/-- Settles O52: each part of a step keeps the invariant, a running command by its phases. -/
theorem stepKeepsTheMachineInvariant : Obligations.StepKeepsTheMachineInvariant := by
  unfold Obligations.StepKeepsTheMachineInvariant
  intro s t hi h
  exact inv_keptByParts.step hi h

/-- Settles O53: the reset state is at rest, its file is absent, and 255 records fit the spec's own store. -/
theorem resetMeetsTheMachineInvariant : Obligations.ResetMeetsTheMachineInvariant :=
  inv_of_idle (by decide) init_inRange ⟨Nat.zero_le _, fun _ => rfl, by decide, nofun⟩ rfl

/-- Settles O51: each part of a step keeps the sums reduced; N is at most 127 by its width. -/
theorem sumsStayReduced : Obligations.SumsStayReduced := by
  unfold Obligations.SumsStayReduced
  refine ⟨fun s t ha hb h => ?_, rfl, rfl, rfl⟩
  obtain ⟨ha', hb'⟩ := inRange_keptByParts.step (s := s) ⟨ha, hb⟩ h
  exact ⟨ha', hb', Nat.le_of_lt_succ t.ce.n.isLt⟩

/-- Settles O54: the pointers fit their phase, and each phase bounds them. -/
theorem sequencerPointersFitTheirWidths : Obligations.SequencerPointersFitTheirWidths := by
  unfold Obligations.SequencerPointersFitTheirWidths
  rintro s ⟨hlegal, -, -, hfits⟩
  obtain ⟨hri, hbi, hfp⟩ := fits_bounds hlegal hfits
  exact ⟨hri, hbi, hfp, fun hcap => by omega⟩
end

section
/-! PROOFS. Who writes what, read off the effects: TAMPER (for O31), RESULT (O32), the operand registers (O33), the Checksum
Engine (O34), the count (O35), the file store (O49); and that a running command holds the port (O48). -/

namespace Sys2Proof.Machine

theorem tampered_iff {recomputed stored : Word} : tampered recomputed stored = true ↔ recomputed ≠ stored := by
  simp [tampered]

/-! ### The registers SV.WRITE leaves alone -/

section
variable (s : State) (e : Engine)

@[simp] theorem sealedState_tamper : (sealedState s e).tamper = s.tamper := by simp [sealedState]
@[simp] theorem sealedState_save :
    (sealedState s e).save = { s.save with hdr := { s.save.hdr with cksum := e.x } } := by simp [sealedState]
@[simp] theorem sealedState_scDate : (sealedState s e).scDate = s.scDate := by simp [sealedState]
@[simp] theorem sealedState_scValue : (sealedState s e).scValue = s.scValue := by simp [sealedState]
@[simp] theorem sealedState_scInit : (sealedState s e).scInit = s.scInit := by simp [sealedState]

end

/-! ### The registers a register write leaves alone -/

/-- What a register write leaves of the fields that reads show: all but the written register's own. -/
theorem regWrite_fields (reg : BitVec 6) (v : Word) (s : State) :
    ((regWrite reg v s).err = s.err ∧ (regWrite reg v s).tamper = s.tamper ∧ (regWrite reg v s).result = s.result) ∧
    (3#6 ≠ reg → (regWrite reg v s).arg = s.arg) ∧ (4#6 ≠ reg → (regWrite reg v s).now = s.now) ∧
    (5#6 ≠ reg → (regWrite reg v s).save.hdr.cksum = s.save.hdr.cksum) ∧
    (6#6 ≠ reg → svHdrWord (regWrite reg v s).save.hdr = svHdrWord s.save.hdr) ∧
    (7#6 ≠ reg → (regWrite reg v s).scDate = s.scDate) ∧ (8#6 ≠ reg → (regWrite reg v s).scValue = s.scValue) ∧
    (9#6 ≠ reg → (regWrite reg v s).scInit = s.scInit) := by
  unfold regWrite
  split <;> simp [svHdrWord]

/-! ### The effects, register by register -/

section
variable {s t : State} {i : Instr}

/-- The header SV.READ fetches is that of the file's bytes. -/
theorem fileHeader_eq (h : headerLen ≤ s.fs.len) : fileHeader s = headerOfBytes s.fs.bytes :=
  (headerOfBytes_readBytes s.fs h).1

/-- The count SV.READ fetches is the file's byte 7 (`spec/20_memory.md` R62). -/
theorem fileHeader_count (h : headerLen ≤ s.fs.len) : (fileHeader s).count = s.fs.byteAt 7 := by
  rw [fileHeader_eq h]
  exact (headerOfBytes_readBytes s.fs h).2

/-- The commit of SV.READ takes the file's header. -/
theorem loadedSave_hdr (s : State) : (loadedSave s).hdr = fileHeader s :=
  loadRecords_hdr s.cfg s.fs _ _

/-- A command that ends with an error other than TamperError writes STATUS.ERR and the sequencer alone (R193). -/
theorem Effect.exists_finish_of_err (h : Effect s i t) (hs : t.err ≠ .success) (ht : t.err ≠ .tamperError) :
    ∃ code, t = finish code s := by
  cases h with
  | failed => exact ⟨_, rfl⟩
  | svReadTampered => exact absurd rfl ht
  | _ => exact absurd rfl hs

/-- The commands that verify are the only ones that write TAMPER (R30). -/
theorem Effect.tamper_of_other (h : Effect s i t) (hv : i ≠ .svVerify) (hr : i ≠ .svRead) : t.tamper = s.tamper := by
  cases h with
  | svReadTampered => exact absurd rfl hr
  | svReadSealed => exact absurd rfl hr
  | svVerify => exact absurd rfl hv
  | svWrite => exact sealedState_tamper _ _
  | _ => rfl

/-- SV.VERIFY that succeeds has compared RESULT with ARG. -/
theorem Effect.tamper_svVerify (h : Effect s .svVerify t) (hs : t.err = .success) :
    t.tamper = true ↔ t.result ≠ s.arg := by
  cases h with
  | failed h => exact absurd hs h.code_ne.1
  | svVerify => exact tampered_iff

/-- SV.READ that reaches verification has compared RESULT with the file's checksum field. -/
theorem Effect.tamper_svRead (h : Effect s .svRead t) (hs : t.err = .success ∨ t.err = .tamperError) :
    t.tamper = true ↔ t.result ≠ (headerOfBytes s.fs.bytes).cksum := by
  cases h with
  | failed h => exact absurd hs (not_or.2 h.code_ne)
  | svReadTampered hfile =>
    rw [← fileHeader_eq hfile.2.1]
    exact tampered_iff
  | svReadSealed hfile =>
    rw [← fileHeader_eq hfile.2.1]
    exact tampered_iff

/-- How a command leaves the count: as it was, or as SV.NEW, SV.INIT, SV.APPEND or a successful SV.READ sets it (R45). -/
theorem Effect.count (h : Effect s i t) :
    t.save.hdr.count = s.save.hdr.count ∨
    (∃ n, (i = .svNew n ∨ i = .svInit n) ∧ t.save.hdr.count = n) ∨
    (i = .svAppend ∧ s.save.hdr.count ≠ 255#8 ∧ t.save.hdr.count = s.save.hdr.count + 1) ∨
    (i = .svRead ∧ t.err = .success ∧ t.save.hdr.count = s.fs.byteAt 7) := by
  cases h with
  | svNew n => exact .inr (.inl ⟨n, .inl rfl, rfl⟩)
  | svInit n => exact .inr (.inl ⟨n, .inr rfl, rfl⟩)
  | svAppend hfull => exact .inr (.inr (.inl ⟨rfl, hfull, rfl⟩))
  | svReadSealed hfile =>
    refine .inr (.inr (.inr ⟨rfl, rfl, ?_⟩))
    rw [finish_save, setSave_save, loadedSave_hdr, fileHeader_count hfile.2.1]
  | svWrite => exact .inl (by simp)
  | _ => exact .inl rfl

/-- Below 255 the count goes up by one without wrapping. -/
theorem toNat_succ_of_ne_255 {n : Byte} (h : n ≠ 255#8) : n.toNat < 255 ∧ (n + 1).toNat = n.toNat + 1 := by
  bv_omega

/-- Beginning a command access by access leaves the file store alone: only SV.WRITE writes it, and its accesses come later. -/
theorem beginInstr_fs (h : beginInstr i s = .next t) : t.fs = s.fs := by
  rcases beginInstr_cases i s with he | ⟨-, -, he⟩ | ⟨-, -, -, he⟩ | ⟨op, -, -, he⟩
  · rcases (exec_eq_next_iff.1 (he.symm.trans h)).fs with hfs | ⟨rfl, hwr, -⟩
    · exact hfs
    · rw [beginInstr, beginSvWrite, if_neg (by simp [hwr])] at h
      cases h
      rfl
  all_goals
    rw [he] at h
    cases h
    rfl

/-- An event that an IDLE block takes changes the store only if it is the environment's, or an SV.WRITE into a writable
store. -/
theorem takeWhenIdle_fs {ev : Input} (h : takeWhenIdle ev s = .next t) (hne : t.fs ≠ s.fs) :
    (∃ act, ev = .env act) ∨ (s.fs.wrOk = true ∧ ∃ w, ev = .hostWrite cmdReg w ∧ decode w = .command .svWrite) := by
  rcases takeWhenIdle_cases ev s t h with
    ⟨w, rfl, hw⟩ | ⟨reg, v, -, -, rfl⟩ | ⟨reg, -, rfl⟩ | ⟨w, -, hw⟩ | ⟨-, rfl⟩ | ⟨act, rfl, rfl⟩ | ⟨-, rfl⟩
  · rcases issueCommand_cases w s with ⟨i, hdec, he⟩ | ⟨why, -, he⟩ <;> rw [he] at hw
    · obtain ⟨rfl, hwr, -⟩ := (exec_eq_next_iff.1 hw).fs.resolve_left hne
      exact .inr ⟨hwr, w, rfl, hdec⟩
    · cases hw
      exact absurd rfl hne
  · exact absurd (regWrite_keeps reg v s).1 hne
  · exact absurd rfl hne
  · rcases beginCommand_cases w s with ⟨i, -, he⟩ | ⟨why, -, he⟩ <;> rw [he] at hw
    · exact absurd (beginInstr_fs hw) hne
    · cases hw
      exact absurd rfl hne
  · exact absurd rfl hne
  · exact .inl ⟨act, rfl⟩
  · exact absurd rfl hne

end

end Sys2Proof.Machine

open Sys2Proof Sys2Proof.Machine

/-- Settles O32: the producers set aside, every effect keeps RESULT, and so does every failure. -/
theorem resultIsWrittenByItsProducersAlone : Obligations.ResultIsWrittenByItsProducersAlone := by
  unfold Obligations.ResultIsWrittenByItsProducersAlone
  intro i s t h
  have he := exec_eq_next_iff.1 h
  constructor
  · intro hi
    cases he with
    | adlVal => simp at hi
    | ckEnd => simp at hi
    | fsCsum => simp at hi
    | fsCsumz => simp at hi
    | svWrite => simp at hi
    | svReadTampered => simp at hi
    | svReadSealed => simp at hi
    | svVerify => simp at hi
    | _ => rfl
  · intro hs ht
    obtain ⟨code, rfl⟩ := he.exists_finish_of_err hs ht
    rfl

/-- Settles O33: no effect writes ARG or NOW, and only that of SC.GET writes the staging registers. -/
theorem operandRegistersBelongToTheHost : Obligations.OperandRegistersBelongToTheHost := by
  unfold Obligations.OperandRegistersBelongToTheHost
  intro i s t h
  obtain ⟨-, harg, hnow, -⟩ := exec_keeps i s t h
  refine ⟨harg, hnow, fun hget => ?_⟩
  cases exec_eq_next_iff.1 h with
  | scGet idx => exact absurd rfl (hget idx)
  | svWrite => simp
  | _ => exact ⟨rfl, rfl, rfl⟩

/-- Settles O34: the engine's part in each effect. -/
theorem engineIsWrittenByChecksumWorkAlone : Obligations.EngineIsWrittenByChecksumWorkAlone := by
  unfold Obligations.EngineIsWrittenByChecksumWorkAlone
  intro i s t h
  have he := exec_eq_next_iff.1 h
  refine ⟨fun hi => ?_, fun hi => ?_, fun hs ht => ?_⟩
  · cases he with
    | failed => rfl
    | adlVal => rfl
    | svAppend => rfl
    | svNew n => rfl
    | svInit n => rfl
    | scGet idx => rfl
    | scPut idx => rfl
    | _ => simp at hi
  · cases he with
    | failed => exact ⟨rfl, rfl⟩
    | adlRst => exact ⟨rfl, rfl⟩
    | adlByte d => exact ⟨rfl, rfl⟩
    | _ => simp at hi
  · obtain ⟨code, rfl⟩ := he.exists_finish_of_err hs ht
    rfl

/-- Settles O35: the count as each effect leaves it; the bound of SV.APPEND keeps it from wrapping. -/
theorem countNeverWraps : Obligations.CountNeverWraps := by
  unfold Obligations.CountNeverWraps
  refine ⟨fun i s t h hne => ?_, fun s reg v => ?_⟩
  · rcases (exec_eq_next_iff.1 h).count with hkept | hnew | ⟨hi, hfull, hc⟩ | hread
    · exact absurd hkept hne
    · exact .inl hnew
    · obtain ⟨hlt, hsucc⟩ := toNat_succ_of_ne_255 hfull
      exact .inr (.inl ⟨hi, hlt, by rw [hc, hsucc]⟩)
    · exact .inr (.inr hread)
  · obtain ⟨-, -, -, -, -, hcount⟩ := regWrite_keeps reg v s
    exact hcount

/-- Settles O49: the step by cases; of the commands only SV.WRITE changes the store, of the phases only the writing ones. -/
theorem onlySvWriteAndTheEnvironmentChangeTheStore : Obligations.OnlySvWriteAndTheEnvironmentChangeTheStore := by
  unfold Obligations.OnlySvWriteAndTheEnvironmentChangeTheStore
  intro s t h hne
  rcases step_cases s t h with ⟨-, -, rfl⟩ | ⟨hidle, ev, rest, hb, he⟩ | ⟨-, rest, -, rfl⟩ | ⟨-, act, rest, hb, rfl⟩ |
    ⟨-, rest, -, he⟩ | ⟨-, he⟩
  · exact absurd rfl hne
  · rcases takeWhenIdle_fs he hne with ⟨act, rfl⟩ | ⟨hwr, w, rfl, hdec⟩
    · exact .inl ⟨act, rest, hb⟩
    · exact .inr (.inl ⟨hidle, hwr, w, rest, hb, hdec⟩)
  · exact absurd rfl hne
  · exact .inl ⟨act, rest, hb⟩
  · obtain ⟨-, -, -, -, hwrites⟩ := seqStep_keeps { s with inbox := rest } t he
    exact .inr (.inr (hwrites hne))
  · obtain ⟨-, -, -, -, hwrites⟩ := seqStep_keeps s t he
    exact .inr (.inr (hwrites hne))

/-- Settles O48: a host access is no reset, no tick and not the environment's, and a step of the sequencer keeps the queue. -/
theorem busyPortHoldsHostAccesses : Obligations.BusyPortHoldsHostAccesses := by
  unfold Obligations.BusyPortHoldsHostAccesses
  intro s ev rest hbusy hb hev
  have hstep : step s = seqStep s := by
    refine step_busy_of_waiting s hbusy fun ev' rest' hb' => ?_
    obtain ⟨rfl, -⟩ := List.cons.inj (hb.symm.trans hb')
    rcases hev with ⟨reg, v, rfl⟩ | ⟨reg, rfl⟩ | ⟨w, rfl⟩ <;> simp
  refine ⟨hstep, fun t h => ?_⟩
  obtain ⟨hinbox, hrdata, harg, -, -⟩ := seqStep_keeps s t (hstep.symm.trans h)
  exact ⟨hinbox, hrdata, harg⟩
end

section
/-! PROOFS. What no command reads: TAMPER (O31), the slots at the count and above (O36), the stored checksum (O38) and the
sequencer (O41). One lemma follows every effect from two states that differ in all but the last of these. -/

namespace Sys2Proof.Machine

/-! ### Saves that commands cannot tell apart -/

/-- `v` is the Save `u` as far as commands read it: the headers differ in the checksum field at most, and the slots below the
count are the same, and so are those in `K`, which the caller chooses. -/
structure Save.LikeOn (K : Nat → Prop) (u v : Save) : Prop where
  hdr : v.hdr = { u.hdr with cksum := v.hdr.cksum }
  slots : ∀ j, j < u.hdr.count.toNat ∨ K j → v.slot j = u.slot j

section
variable {K : Nat → Prop} {u v : Save}

/-- Saves that are alike serialise alike: Ser(SV) has no checksum and no slot past the count (`spec/20_memory.md` R65). -/
theorem Save.LikeOn.ser_eq (h : u.LikeOn K v) (c : Config) : ser c v = ser c u := by
  have hcount : v.hdr.count = u.hdr.count := by rw [h.hdr]
  have hdate : dateCountBytes v.hdr = dateCountBytes u.hdr := by rw [h.hdr]; rfl
  have hrecords : recordsBytes c v = recordsBytes c u := by
    simp only [recordsBytes, hcount]
    refine List.flatMap_congr fun i hi => ?_
    rw [h.slots i (.inl (List.mem_range.1 hi))]
  rw [ser, ser, hdate, hrecords]

/-- A slot written with the same Score in both Saves leaves them alike, whatever the count becomes, as long as no slot but the
written one comes below it. -/
theorem Save.LikeOn.putSlot (h : u.LikeOn K v) (i : Nat) (hi : i < slotCount) (sc : Score) (a b : Header)
    (hdr : b = { a with cksum := b.cksum }) (hcount : ∀ j, j < a.count.toNat → j = i ∨ j < u.hdr.count.toNat) :
    Save.LikeOn K { u.putSlot i sc with hdr := a } { v.putSlot i sc with hdr := b } where
  hdr := hdr
  slots j hj := by
    show (v.putSlot i sc).slot j = (u.putSlot i sc).slot j
    rw [slot_putSlot v i j sc hi, slot_putSlot u i j sc hi]
    by_cases hji : j = i
    · rw [if_pos hji, if_pos hji]
    · rw [if_neg hji, if_neg hji]
      exact h.slots j (hj.imp_left fun hlt => (hcount j hlt).resolve_left hji)

/-- Saves that are alike in every slot differ in the checksum field at most. -/
theorem Save.LikeOn.eq_of_all (h : u.LikeOn (fun _ => True) v) :
    v = { u with hdr := { u.hdr with cksum := v.hdr.cksum } } :=
  save_eq_of_slots v _ h.hdr fun j _ => h.slots j (.inr trivial)

/-- Saves that are alike and have the same checksum field have the same header. -/
theorem Save.LikeOn.hdr_eq (h : u.LikeOn K v) (hc : v.hdr.cksum = u.hdr.cksum) : v.hdr = u.hdr :=
  h.hdr.trans (by rw [hc])

/-- SV.NEW and SV.INIT draw the slots below the new count alike. -/
theorem Save.LikeOn.redraw (h : u.LikeOn K v) (n : Byte) (k : Nat) (a : Header) (hn : a.count = n) :
    Save.LikeOn K { hdr := a, slots := redrawSlots (immNat n) k u.slots }
      { hdr := a, slots := redrawSlots (immNat n) k v.slots } where
  hdr := rfl
  slots j hj := by
    have hle : immNat n ≤ slotCount := Nat.le_of_lt_succ n.isLt
    rw [slot_redrawSlots _ k v a j hle, slot_redrawSlots _ k u a j hle]
    by_cases hjn : j < immNat n
    · rw [if_pos hjn, if_pos hjn]
    · rw [if_neg hjn, if_neg hjn]
      refine h.slots j (.inr (hj.resolve_left ?_))
      rwa [hn]

/-- The commit of a file's records leaves Saves alike that have taken the file's header. -/
theorem Save.LikeOn.loadRecords (h : u.LikeOn K v) (c : Config) (fs : FileStore) (hdr : Header) :
    Save.LikeOn K (loadRecords c fs hdr.count.toNat { u with hdr := hdr })
      (loadRecords c fs hdr.count.toNat { v with hdr := hdr }) where
  hdr := by rw [loadRecords_hdr, loadRecords_hdr]
  slots j hj := by
    have hle : hdr.count.toNat ≤ 255 := Nat.le_of_lt_succ hdr.count.isLt
    rw [loadRecords_hdr] at hj
    rw [slot_loadRecords c fs _ hle, slot_loadRecords c fs _ hle]
    by_cases hlt : j < hdr.count.toNat
    · rw [if_pos hlt, if_pos hlt]
    · rw [if_neg hlt, if_neg hlt]
      exact h.slots j (.inr (hj.resolve_left hlt))

end

/-! ### The same command from two states that commands cannot tell apart -/

/-- `s` with TAMPER, the stored checksum and the slots replaced. -/
def State.withUnread (s : State) (b : Bool) (cksum : Word) (slots : Vector Score 255) : State :=
  { s with tamper := b, save := { hdr := { s.save.hdr with cksum := cksum }, slots := slots } }

/-- A register a command has written alike in both runs, or left alone in both. -/
abbrev WrittenOrKept {α : Type} (before before' after after' : α) : Prop :=
  after' = after ∨ (after = before ∧ after' = before')

theorem WrittenOrKept.eq {α : Type} {before before' after after' : α} (h : WrittenOrKept before before' after after')
    (hb : before' = before) : after' = after := by
  rcases h with h | ⟨h, h'⟩
  · exact h
  · rw [h, h', hb]

/-- What two runs of a command, from `s` to `t` and from `s'` to `t'`, have in common when `s'` differs from `s` in TAMPER, the
stored checksum and slots outside `K` alone. -/
structure SameRun (K : Nat → Prop) (s s' t t' : State) : Prop where
  frame : t' = { t with tamper := t'.tamper, save := t'.save }
  save : t.save.LikeOn K t'.save
  tamper : WrittenOrKept s.tamper s'.tamper t.tamper t'.tamper
  cksum : WrittenOrKept s.save.hdr.cksum s'.save.hdr.cksum t.save.hdr.cksum t'.save.hdr.cksum

section
variable {K : Nat → Prop} {s t : State} {i : Instr} {b : Bool} {cksum : Word} {slots : Vector Score 255}

/-- A command fails or not whatever it does not read holds. -/
theorem Fails.withUnread {code : ResultCode} (h : Fails s i code) : Fails (s.withUnread b cksum slots) i code := by
  cases h with
  | noFile hi h => exact .noFile hi h
  | notWritable h => exact .notWritable h
  | shortFile hpres h => exact .shortFile hpres h
  | bufferFull h => exact .bufferFull h
  | outOfBounds idx hi h => exact .outOfBounds idx hi h

/-- The slot that SC.GET or SC.PUT names in bounds is a slot of the buffer, below the count. -/
theorem inBounds_iff {idx : Byte} : inBounds idx s = true ↔ immNat idx < s.save.hdr.count.toNat := by
  simp [inBounds]

/-- Every effect is the same, except in what commands do not read. -/
theorem Effect.withUnread (hlike : s.save.LikeOn K (s.withUnread b cksum slots).save) (h : Effect s i t) :
    ∃ t', Effect (s.withUnread b cksum slots) i t' ∧ SameRun K s (s.withUnread b cksum slots) t t' := by
  have kept {α : Type} {x y : α} : WrittenOrKept x y x y := .inr ⟨rfl, rfl⟩
  have written {α : Type} {x x' y : α} : WrittenOrKept x x' y y := .inl rfl
  cases h with
  | failed h => exact ⟨_, .failed h.withUnread, rfl, hlike, kept, kept⟩
  | adlRst => exact ⟨_, .adlRst, rfl, hlike, kept, kept⟩
  | adlByte d => exact ⟨_, .adlByte d, rfl, hlike, kept, kept⟩
  | adlVal => exact ⟨_, .adlVal, rfl, hlike, kept, kept⟩
  | ckInit => exact ⟨_, .ckInit, rfl, hlike, kept, kept⟩
  | ckPush d => exact ⟨_, .ckPush d, rfl, hlike, kept, kept⟩
  | ckEnd => exact ⟨_, .ckEnd, rfl, hlike, kept, kept⟩
  | fsCsum hpres => exact ⟨_, .fsCsum hpres, rfl, hlike, kept, kept⟩
  | fsCsumz hpres => exact ⟨_, .fsCsumz hpres, rfl, hlike, kept, kept⟩
  | svReadTampered hfile ht => exact ⟨_, .svReadTampered hfile ht, rfl, hlike, written, kept⟩
  | svVerify hpres => exact ⟨_, .svVerify hpres, rfl, hlike, written, kept⟩
  | scGet idx hin =>
    refine ⟨_, .scGet idx hin, ?_, hlike, kept, kept⟩
    rw [hlike.slots _ (.inl (inBounds_iff.1 hin))]
    rfl
  | svWrite hwr =>
    have hser : serStore (s.withUnread b cksum slots) = serStore s := by
      rw [serStore, serStore]
      exact congrArg _ (hlike.ser_eq s.cfg)
    refine ⟨_, .svWrite hwr, ?_⟩
    rw [hser]
    generalize fileChecksum false (serStore s) = e
    refine ⟨?_, ?_, .inr ⟨by simp, by simp⟩, .inl (by simp)⟩
    · simp only [sealedState, hser]
      rfl
    · rw [sealedState_save, sealedState_save]
      exact ⟨rfl, hlike.slots⟩
  | svReadSealed hfile ht =>
    have hload : Save.LikeOn K (loadedSave s) (loadedSave (s.withUnread b cksum slots)) :=
      hlike.loadRecords s.cfg s.fs (fileHeader s)
    refine ⟨_, .svReadSealed hfile ht, rfl, hload, written, .inl ?_⟩
    simp only [finish_save, setSave_save, loadedSave_hdr]
    rfl
  | svAppend hfull =>
    obtain ⟨hlt, hsucc⟩ := toNat_succ_of_ne_255 hfull
    have happend : Save.LikeOn K (appendedSave s) (appendedSave (s.withUnread b cksum slots)) :=
      hlike.putSlot s.save.hdr.count.toNat hlt (stagingScore s) _ _ rfl fun j hj => by
        simp only [hsucc] at hj
        omega
    exact ⟨_, .svAppend hfull, rfl, happend, kept, kept⟩
  | svNew n => exact ⟨_, .svNew n, rfl, hlike.redraw n s.draws _ rfl, kept, written⟩
  | svInit n => exact ⟨_, .svInit n, rfl, hlike.redraw n s.draws _ rfl, kept, written⟩
  | scPut idx hin =>
    have hslot : immNat idx < slotCount :=
      Nat.lt_of_lt_of_le (inBounds_iff.1 hin) (Nat.le_of_lt_succ s.save.hdr.count.isLt)
    exact ⟨_, .scPut idx hin, rfl,
      hlike.putSlot (immNat idx) hslot (stagingScore s) s.save.hdr _ rfl fun j hj => .inr hj, kept, kept⟩

/-- A command run from two states that differ only in what commands do not read. -/
theorem exec_withUnread (hlike : s.save.LikeOn K (s.withUnread b cksum slots).save) (h : exec i s = .next t) :
    ∃ t', exec i (s.withUnread b cksum slots) = .next t' ∧ SameRun K s (s.withUnread b cksum slots) t t' := by
  obtain ⟨t', he, hrun⟩ := (exec_eq_next_iff.1 h).withUnread hlike
  exact ⟨t', he.exec_eq, hrun⟩

/-- Two runs that end with the same TAMPER end in the same state but for the save buffer. -/
theorem SameRun.eq_of_tamper {s' t' : State} (h : SameRun K s s' t t') (ht : t'.tamper = t.tamper) :
    t' = { t with save := t'.save } :=
  h.frame.trans (by rw [ht])

end

end Sys2Proof.Machine

open Sys2Proof Sys2Proof.Machine

/-- Settles O41: each meaning ends in `finish`, which sets the sequencer to rest, and looks at it nowhere else. -/
theorem commandsForgetTheSequencer : Obligations.CommandsForgetTheSequencer := by
  unfold Obligations.CommandsForgetTheSequencer
  intro i s q
  cases i <;> rfl

/-- Settles O31: the effects that write TAMPER are those that verify; and a run from the other value of TAMPER has the same
effect. -/
theorem tamperIsWrittenByVerificationAlone : Obligations.TamperIsWrittenByVerificationAlone := by
  unfold Obligations.TamperIsWrittenByVerificationAlone
  refine ⟨fun i s t h => ?_, fun i s t b h => ?_, fun s reg v => ?_, rfl⟩
  · have he := exec_eq_next_iff.1 h
    refine ⟨he.tamper_of_other, fun _ herr => ?_, ?_, ?_⟩
    · have hne : t.err ≠ .success ∧ t.err ≠ .tamperError := by rcases herr with herr | herr <;> simp [herr]
      obtain ⟨code, rfl⟩ := he.exists_finish_of_err hne.1 hne.2
      rfl
    · rintro rfl hs
      exact he.tamper_svVerify hs
    · rintro rfl hs
      exact he.tamper_svRead hs
  · have hlike : s.save.LikeOn (fun _ => True) s.save := ⟨rfl, fun _ _ => rfl⟩
    obtain ⟨t', he, hrun⟩ := exec_withUnread (b := b) (cksum := s.save.hdr.cksum) (slots := s.save.slots) hlike h
    refine ⟨t', he, ?_⟩
    have hsave := hrun.save.eq_of_all
    rw [hrun.cksum.eq rfl] at hsave
    rw [hrun.frame, hsave]
  · obtain ⟨⟨-, htamper, -⟩, -⟩ := regWrite_fields reg v s
    exact htamper

/-- Settles O36: no effect reads a slot at the count or above, and each leaves the slots below the new count alike. -/
theorem slotsPastTheCountAreNeverRead : Obligations.SlotsPastTheCountAreNeverRead := by
  unfold Obligations.SlotsPastTheCountAreNeverRead
  intro i s t slots hslots h
  have hlike : s.save.LikeOn (fun _ => False) (s.withUnread s.tamper s.save.hdr.cksum slots).save :=
    ⟨rfl, fun j hj => hslots j (hj.resolve_right id)⟩
  obtain ⟨t', he, hrun⟩ := exec_withUnread hlike h
  have hframe := hrun.eq_of_tamper (hrun.tamper.eq rfl)
  refine ⟨t', he, ?_, hrun.save.hdr_eq (hrun.cksum.eq rfl), fun j hj => hrun.save.slots j (.inl hj)⟩
  rw [hframe]

/-- Settles O38: no effect reads the checksum field, and each writes it alike or leaves it alone. -/
theorem storedChecksumIsNoInput : Obligations.StoredChecksumIsNoInput := by
  unfold Obligations.StoredChecksumIsNoInput
  intro i s t v h
  have hlike : s.save.LikeOn (fun _ => True) (s.withUnread s.tamper v s.save.slots).save := ⟨rfl, fun _ _ => rfl⟩
  obtain ⟨t', he, hrun⟩ := exec_withUnread hlike h
  have hframe := hrun.eq_of_tamper (hrun.tamper.eq rfl)
  refine ⟨t', he, ?_, hrun.cksum⟩
  rw [hframe, hrun.save.eq_of_all]
end

section
/-! PROOFS. The host port, bit by bit: what registers show (O42), what a register write shows (O43), accesses that are ignored
(O44), the write to CMD (O5), and the registers after a reset (O46). -/

namespace Sys2Proof.Machine

/-! ### Fields of a word -/

section
variable {i : Nat} (hi : i < 32)
include hi

/-- The bits of a word packed from four bytes. -/
theorem getLsbD_le32 (b0 b1 b2 b3 : Byte) : (le32 b0 b1 b2 b3).getLsbD i =
    if i < 8 then b0.getLsbD i else if i < 16 then b1.getLsbD (i - 8)
    else if i < 24 then b2.getLsbD (i - 16) else b3.getLsbD (i - 24) := by
  simp only [le32, BitVec.getLsbD_append, Nat.sub_sub]
  by_cases h1 : i < 8
  · simp [h1]
  by_cases h2 : i < 16
  · simp [h1, h2, show i - 8 < 8 by omega]
  by_cases h3 : i < 24
  · simp [h1, h2, h3, show ¬i - 8 < 8 by omega, show i - 16 < 8 by omega]
  · simp [h1, h2, h3, show ¬i - 8 < 8 by omega, show ¬i - 16 < 8 by omega]

/-- The bits of the two sums packed in one word (`spec/10_state.md` R39). -/
theorem getLsbD_packSums (a b : BitVec 16) :
    (packSums a b).getLsbD i = if i < 16 then a.getLsbD i else b.getLsbD (i - 16) := by
  simp only [packSums, BitVec.getLsbD_or, BitVec.getLsbD_shiftLeft, BitVec.getLsbD_setWidth]
  by_cases h : i < 16
  · simp [h, hi]
  · simp [h, hi, show i - 16 < 32 by omega, BitVec.getLsbD_of_ge a i (by omega)]

/-- A flag at bit `k` of a word. -/
theorem getLsbD_flag (f : Bool) (k : Nat) :
    (if f then BitVec.twoPow 32 k else 0#32).getLsbD i = (f && decide (i = k)) := by
  cases f <;> simp [hi]

/-- The bits of STATUS (R28). -/
theorem getLsbD_statusWord (s : State) :
    (statusWord s).getLsbD i = ((s.tamper && decide (i = 8)) || s.err.code.getLsbD i) := by
  have hflag := getLsbD_flag hi s.tamper 8
  rw [statusWord, BitVec.getLsbD_or, show (0x100#32) = BitVec.twoPow 32 8 from rfl, hflag, BitVec.getLsbD_setWidth]
  simp [hi]

/-- The bits of FS_STAT (R40). -/
theorem getLsbD_fsStatWord (fs : FileStore) : (fsStatWord fs).getLsbD i =
    ((decide (16 ≤ i) && (fsLenField fs.len).getLsbD (i - 16)) || (fs.wrOk && decide (i = 1)) ||
      (fs.present && decide (i = 0))) := by
  rw [fsStatWord, BitVec.getLsbD_or, BitVec.getLsbD_or, show (2#32) = BitVec.twoPow 32 1 from rfl,
    show (1#32) = BitVec.twoPow 32 0 from rfl, getLsbD_flag hi, getLsbD_flag hi, BitVec.getLsbD_shiftLeft,
    BitVec.getLsbD_setWidth]
  by_cases h : 16 ≤ i
  · simp [h, hi, show ¬i < 16 by omega, show i - 16 < 32 by omega]
  · simp [h, show i < 16 by omega]

/-- The bits a masked date keeps: 23 to 0. -/
theorem getLsbD_dateMask (v : Word) : (v &&& 0x00FFFFFF#32).getLsbD i = (v.getLsbD i && decide (i < 24)) := by
  have hmask : ∀ j < 32, (0x00FFFFFF#32).getLsbD j = decide (j < 24) := by decide
  rw [BitVec.getLsbD_and, hmask i hi]

/-- The bits a masked count keeps: 31 to 24. -/
theorem getLsbD_countMask (v : Word) : (v &&& 0xFF000000#32).getLsbD i = (v.getLsbD i && decide (24 ≤ i)) := by
  have hmask : ∀ j < 32, (0xFF000000#32).getLsbD j = decide (24 ≤ j) := by decide
  rw [BitVec.getLsbD_and, hmask i hi]

end

/-- The bytes of a word packed from four. -/
theorem extract_le32 (b0 b1 b2 b3 : Byte) :
    (le32 b0 b1 b2 b3).extractLsb' 0 8 = b0 ∧ (le32 b0 b1 b2 b3).extractLsb' 8 8 = b1 ∧
      (le32 b0 b1 b2 b3).extractLsb' 16 8 = b2 ∧ (le32 b0 b1 b2 b3).extractLsb' 24 8 = b3 := by
  refine ⟨?_, ?_, ?_, ?_⟩
  all_goals
    refine BitVec.eq_of_getLsbD_eq fun j hj => ?_
    rw [BitVec.getLsbD_extractLsb', getLsbD_le32 (by omega)]
  · simp [hj]
  · simp [hj, show 8 + j < 16 by omega]
  · simp [hj, show ¬16 + j < 8 by omega, show 16 + j < 24 by omega]
  · simp [hj, show ¬24 + j < 8 by omega, show ¬24 + j < 16 by omega]

/-- The halves of a word packed from two sums. -/
theorem extract_packSums (a b : BitVec 16) :
    (packSums a b).extractLsb' 0 16 = a ∧ (packSums a b).extractLsb' 16 16 = b := by
  constructor
  all_goals
    refine BitVec.eq_of_getLsbD_eq fun j hj => ?_
    rw [BitVec.getLsbD_extractLsb', getLsbD_packSums (by omega)]
  · simp [hj]
  · simp [hj]

/-- A 24-bit field shown in a word: its bits 23:0, and zero above (R33, R36). -/
theorem extract_setWidth_24 (d : BitVec 24) :
    (d.setWidth 32).extractLsb' 0 24 = d ∧ (d.setWidth 32).extractLsb' 24 8 = 0 := by
  constructor
  all_goals
    refine BitVec.eq_of_getLsbD_eq fun j hj => ?_
    rw [BitVec.getLsbD_extractLsb', BitVec.getLsbD_setWidth]
  · simp [hj, show j < 32 by omega]
  · simp

/-- The fields of STATUS (R28). -/
theorem extract_statusWord (s : State) :
    (statusWord s).extractLsb' 0 8 = s.err.code ∧ (statusWord s).getLsbD 8 = s.tamper ∧
      (statusWord s).extractLsb' 9 23 = 0 := by
  refine ⟨BitVec.eq_of_getLsbD_eq fun j hj => ?_, ?_, BitVec.eq_of_getLsbD_eq fun j hj => ?_⟩
  · rw [BitVec.getLsbD_extractLsb', getLsbD_statusWord (by omega)]
    simp [hj, show j ≠ 8 by omega]
  · rw [getLsbD_statusWord (by omega)]
    simp
  · rw [BitVec.getLsbD_extractLsb', getLsbD_statusWord (by omega)]
    simp [show 9 + j ≠ 8 by omega, BitVec.getLsbD_of_ge s.err.code (9 + j) (by omega)]

/-- The fields of FS_STAT (R40). -/
theorem extract_fsStatWord (fs : FileStore) :
    (fsStatWord fs).getLsbD 0 = fs.present ∧ (fsStatWord fs).getLsbD 1 = fs.wrOk ∧
      (fsStatWord fs).extractLsb' 2 14 = 0 ∧ (fsStatWord fs).extractLsb' 16 13 = fsLenField fs.len ∧
      (fsStatWord fs).extractLsb' 29 3 = 0 := by
  refine ⟨by rw [getLsbD_fsStatWord (by omega)]; simp, by rw [getLsbD_fsStatWord (by omega)]; simp, ?_, ?_, ?_⟩
  all_goals
    refine BitVec.eq_of_getLsbD_eq fun j hj => ?_
    rw [BitVec.getLsbD_extractLsb', getLsbD_fsStatWord (by omega)]
  · simp [hj, show ¬16 ≤ 2 + j by omega, show 2 + j ≠ 1 by omega]
  · simp [hj, show 16 + j ≠ 1 by omega]
  · simp [hj, show 29 + j ≠ 1 by omega, BitVec.getLsbD_of_ge (fsLenField fs.len) (29 + j - 16) (by omega)]

/-- Two words with the same date bits have the same fields below bit 24. -/
theorem extract_congr_of_dateMask {v w : Word} (h : v &&& 0x00FFFFFF#32 = w &&& 0x00FFFFFF#32) {k n : Nat}
    (hkn : k + n ≤ 24) : v.extractLsb' k n = w.extractLsb' k n := by
  refine BitVec.eq_of_getLsbD_eq fun j hj => ?_
  have hbit := congrArg (BitVec.getLsbD · (k + j)) h
  simp only [getLsbD_dateMask (show k + j < 32 by omega), show k + j < 24 by omega, decide_true, Bool.and_true] at hbit
  simp [hj, hbit]

/-- A word's low 24 bits, shown in a word, are the word with its reserved bits cleared. -/
theorem setWidth_extract_24 (v : Word) : (v.extractLsb' 0 24).setWidth 32 = v &&& 0x00FFFFFF#32 := by
  refine BitVec.eq_of_getLsbD_eq fun j hj => ?_
  rw [BitVec.getLsbD_setWidth, BitVec.getLsbD_extractLsb', getLsbD_dateMask hj, Nat.zero_add]
  simp [hj, Bool.and_comm]

/-- SV_HDR after a write: the date from the written word, the count as it was (R35). -/
theorem svHdrWord_write (h : Header) (v : Word) :
    svHdrWord { h with day := v.extractLsb' 0 8, month := v.extractLsb' 8 8, year := v.extractLsb' 16 8 } =
      (v &&& 0x00FFFFFF#32) ||| (svHdrWord h &&& 0xFF000000#32) := by
  refine BitVec.eq_of_getLsbD_eq fun j hj => ?_
  rw [BitVec.getLsbD_or, getLsbD_dateMask hj, getLsbD_countMask hj, svHdrWord, svHdrWord, getLsbD_le32 hj,
    getLsbD_le32 hj]
  simp only [BitVec.getLsbD_extractLsb']
  by_cases h1 : j < 8
  · simp [h1, show j < 24 by omega, show ¬24 ≤ j by omega]
  by_cases h2 : j < 16
  · simp [h1, h2, show j < 24 by omega, show ¬24 ≤ j by omega, show j - 8 < 8 by omega, show 8 + (j - 8) = j by omega]
  by_cases h3 : j < 24
  · simp [h1, h2, h3, show ¬24 ≤ j by omega, show j - 16 < 8 by omega, show 16 + (j - 16) = j by omega]
  · simp [h1, h2, h3, show 24 ≤ j by omega]

/-! ### Register accesses -/

section
variable {s : State} {reg r : BitVec 6} {v : Word}

/-- A write to a register other than CMD is a plain register write (R26). -/
theorem hostWrite_of_ne (h : reg ≠ cmdReg) : hostWrite reg v s = .next (regWrite reg v s) := if_neg h

/-- A register write shows in no other register: a read of another one is of a field the write leaves alone. -/
theorem regRead_regWrite_of_ne (h : r ≠ reg) : regRead r (regWrite reg v s) = regRead r s := by
  obtain ⟨hfs, -, hce, -⟩ := regWrite_keeps reg v s
  obtain ⟨⟨herr, htamper, hresult⟩, harg, hnow, hcksum, hhdr, hdate, hvalue, hinit⟩ := regWrite_fields reg v s
  unfold regRead
  split
  case h_1 => rw [statusWord, statusWord, htamper, herr]
  case h_2 => exact hresult
  case h_3 => exact harg h
  case h_4 => rw [hnow h]
  case h_5 => exact hcksum h
  case h_6 => exact hhdr h
  case h_7 => rw [hdate h]
  case h_8 => exact hvalue h
  case h_9 => exact hinit h
  case h_10 => rw [hce]
  case h_11 => rw [hce]
  case h_12 => rw [hce]
  case h_13 => rw [hfs]
  case h_14 => rfl

/-- A write to a register that holds nothing the host may write is ignored (R26, R41). -/
theorem regWrite_ignored (h : reg ∉ ([3, 4, 5, 6, 7, 8, 9] : List (BitVec 6))) : regWrite reg v s = s := by
  unfold regWrite
  split
  case h_8 => rfl
  all_goals simp at h

/-- An unmapped register reads 0 (R41). -/
theorem regRead_unmapped (h : 14 ≤ reg.toNat) : regRead reg s = 0#32 := by
  unfold regRead
  split
  case h_14 => rfl
  all_goals exact absurd h (by decide)

/-- Two writes that differ in reserved bits alone do the same to NOW, SV_HDR and SC_DATE (R33, R35, R36). -/
theorem regWrite_congr_of_dateMask {w : Word} (hreg : reg ∈ ([4, 6, 7] : List (BitVec 6)))
    (h : v &&& 0x00FFFFFF#32 = w &&& 0x00FFFFFF#32) : regWrite reg v s = regWrite reg w s := by
  simp only [List.mem_cons, List.not_mem_nil, or_false] at hreg
  rcases hreg with rfl | rfl | rfl
  · show regWrite 4#6 v s = regWrite 4#6 w s
    simp only [regWrite, extract_congr_of_dateMask h (show 0 + 24 ≤ 24 by omega)]
  · show regWrite 6#6 v s = regWrite 6#6 w s
    simp only [regWrite, extract_congr_of_dateMask h (show 0 + 8 ≤ 24 by omega),
      extract_congr_of_dateMask h (show 8 + 8 ≤ 24 by omega), extract_congr_of_dateMask h (show 16 + 8 ≤ 24 by omega)]
  · show regWrite 7#6 v s = regWrite 7#6 w s
    simp only [regWrite, extract_congr_of_dateMask h (show 0 + 24 ≤ 24 by omega)]

/-- STATUS reads 0 when the last command succeeded and TAMPER is clear. -/
theorem statusWord_clear (herr : s.err = .success) (htamper : s.tamper = false) : statusWord s = 0#32 := by
  rw [statusWord, herr, htamper]
  decide

end

end Sys2Proof.Machine

open Sys2Proof Sys2Proof.Machine

/-- Settles O42: each register's word, field by field. -/
theorem registersShowTheirFields : Obligations.RegistersShowTheirFields := by
  unfold Obligations.RegistersShowTheirFields
  intro s
  obtain ⟨hpresent, hwrOk, hzero, hlen, hzero'⟩ := extract_fsStatWord s.fs
  obtain ⟨hnow, hnow'⟩ := extract_setWidth_24 s.now
  obtain ⟨hdate, hdate'⟩ := extract_setWidth_24 s.scDate
  obtain ⟨ha, hb⟩ := extract_packSums s.ce.a s.ce.b
  refine ⟨extract_statusWord s, ⟨rfl, rfl, rfl, rfl, rfl, rfl⟩, ⟨hnow, hnow', hdate, hdate'⟩,
    extract_le32 _ _ _ _, ⟨ha, hb, ?_⟩, hpresent, hwrOk, hzero, hzero', fun hlt => ?_⟩
  · exact BitVec.toNat_setWidth_of_le (by omega)
  · rw [show regRead 13#6 s = fsStatWord s.fs from rfl, hlen, fsLenField, if_pos hlt, BitVec.toNat_ofNat]
    exact Nat.mod_eq_of_lt hlt

/-- Settles O43: the written register by its access code; every other reads fields the write leaves alone. -/
theorem registerWritesShowInThatRegisterAlone : Obligations.RegisterWritesShowInThatRegisterAlone := by
  unfold Obligations.RegisterWritesShowInThatRegisterAlone
  intro s reg v hreg
  obtain ⟨hfs, -, -, hseq, hslots, -⟩ := regWrite_keeps reg v s
  refine ⟨_, hostWrite_of_ne hreg, fun r hr => regRead_regWrite_of_ne hr, fun hmem => ?_, fun hmem => ?_, ?_,
    fun hmem => by rw [regWrite_ignored hmem], hslots, hfs, hseq⟩
  · simp only [List.mem_cons, List.not_mem_nil, or_false] at hmem
    rcases hmem with rfl | rfl | rfl | rfl <;> rfl
  · simp only [List.mem_cons, List.not_mem_nil, or_false] at hmem
    rcases hmem with rfl | rfl <;> exact setWidth_extract_24 v
  · rintro rfl
    exact svHdrWord_write s.save.hdr v

/-- Settles O44: unmapped and read-only registers hold nothing a write could change, and reserved bits are not looked at. -/
theorem strayAccessesAreIgnored : Obligations.StrayAccessesAreIgnored := by
  unfold Obligations.StrayAccessesAreIgnored
  refine ⟨fun s reg h => ⟨regRead_unmapped h, fun v => ?_⟩, fun s reg v hmem => ?_, fun s reg v w hmem h => ?_,
    fun s reg => ⟨_, rfl, rfl⟩⟩
  · have hne : reg ≠ cmdReg := by
      rintro rfl
      exact absurd h (by decide)
    rw [hostWrite_of_ne hne, regWrite_ignored]
    intro hmem
    simp only [List.mem_cons, List.not_mem_nil, or_false] at hmem
    rcases hmem with rfl | rfl | rfl | rfl | rfl | rfl | rfl <;> exact absurd h (by decide)
  · simp only [List.mem_cons, List.not_mem_nil, or_false] at hmem
    rcases hmem with rfl | rfl | rfl | rfl | rfl | rfl <;> rfl
  · have hne : reg ≠ cmdReg := by
      rintro rfl
      exact absurd hmem (by decide)
    rw [hostWrite_of_ne hne, hostWrite_of_ne hne, regWrite_congr_of_dateMask hmem h]

/-- Settles O5: the event is taken, and the word decodes to the command. -/
theorem stepRunsTheDecodedCommand : Obligations.StepRunsTheDecodedCommand := by
  unfold Obligations.StepRunsTheDecodedCommand
  refine ⟨fun s w rest i hidle hb hdec _ => ?_, fun s => rfl⟩
  rw [step_idle_cons s _ rest hidle hb, takeWhenIdle, hostWrite, if_pos rfl, issueCommand, hdec]

/-- Settles O46: a reset lands in any phase; its slots are draws, every register is at its reset value, and the store stays. -/
theorem resetGivesTheResetState : Obligations.ResetGivesTheResetState := by
  unfold Obligations.ResetGivesTheResetState
  constructor
  · intro s rest hb
    exact ⟨_, step_reset s rest hb, rfl, statusWord_clear rfl rfl, rfl, rfl, rfl, rfl, rfl, rfl, rfl,
      fun j hj => slot_drawnSlots s.draws Header.zero j hj, rfl, rfl, rfl, rfl, rfl, rfl⟩
  · exact ⟨rfl, statusWord_clear rfl rfl, rfl, rfl, rfl, rfl, rfl, rfl, rfl, fun j hj => ⟨_, slot_drawnSlots 0 Header.zero j hj⟩,
      rfl, rfl, rfl, rfl⟩
end

section
/-! PROOFS. The file format (`spec/20_memory.md`): the fields of the image of a Save (O17), Parse of Image (O22), the
commands that only read (O21) or make no access at all (O30), and that one changed byte is always detected (O24). -/

namespace Sys2Proof.Machine

/-! ### The fields of a record and of the image -/

/-- The first three bytes of a record are the date (R63). -/
theorem scoreBytes_getD_date (c : Config) (sc : Score) :
    (scoreBytes c sc).getD 0 0 = sc.day ∧ (scoreBytes c sc).getD 1 0 = sc.month ∧
      (scoreBytes c sc).getD 2 0 = sc.year :=
  ⟨rfl, rfl, rfl⟩

/-- The value stands in a record's bytes 3 to 6, least significant byte first (R63, R65). -/
theorem scoreBytes_getD_value (c : Config) (sc : Score) (k : Nat) (hk : k < 4) :
    (scoreBytes c sc).getD (3 + k) 0 = sc.value.extractLsb' (8 * k) 8 := by
  match k, hk with
  | 0, _ => rfl
  | 1, _ => rfl
  | 2, _ => rfl
  | 3, _ => rfl

/-- Three initials bytes stand in every record, the fourth one where the width is 4 (R63). -/
theorem scoreBytes_getD_initials (c : Config) (sc : Score) :
    (scoreBytes c sc).getD 7 0 = sc.ini0 ∧ (scoreBytes c sc).getD 8 0 = sc.ini1 ∧
      (scoreBytes c sc).getD 9 0 = sc.ini2 ∧ (c.initialsW = .four → (scoreBytes c sc).getD 10 0 = sc.ini3) := by
  obtain ⟨w, cap⟩ := c
  cases w
  · exact ⟨rfl, rfl, rfl, fun h => nomatch h⟩
  · exact ⟨rfl, rfl, rfl, fun _ => rfl⟩

/-- The length of a record by the width of its initials (`spec/00_scope.md` R7). -/
theorem recLen_eq (c : Config) : (c.initialsW = .four → c.recLen = 11) ∧ (c.initialsW = .three → c.recLen = 10) :=
  ⟨fun h => by rw [Config.recLen, h]; rfl, fun h => by rw [Config.recLen, h]; rfl⟩

/-- The checksum field of the image (R62, R65). -/
theorem image_getD_cksum (c : Config) (sv : Save) (k : Nat) (hk : k < 4) :
    (image c sv).getD k 0 = (fileSum (ser c sv)).extractLsb' (8 * k) 8 := by
  rw [image, List.getD_append _ _ _ _ (by simpa using hk), leBytes_getD _ k hk]

/-- The date and the count follow the checksum field (R62). -/
theorem image_getD_dateCount (c : Config) (sv : Save) :
    (image c sv).getD 4 0 = sv.hdr.day ∧ (image c sv).getD 5 0 = sv.hdr.month ∧
      (image c sv).getD 6 0 = sv.hdr.year ∧ (image c sv).getD 7 0 = sv.hdr.count :=
  ⟨rfl, rfl, rfl, rfl⟩

/-- Byte `k` of record `i` of the image. -/
theorem image_getD_record (c : Config) (sv : Save) {i k : Nat} (hi : i < sv.hdr.count.toNat) (hk : k < c.recLen) :
    (image c sv).getD (8 + c.recLen * i + k) 0 = (scoreBytes c (sv.slot i)).getD k 0 := by
  rw [← image_drop_take c sv i hi, List.getD_eq_getElem?_getD, List.getD_eq_getElem?_getD,
    List.getElem?_take_of_lt hk, List.getElem?_drop]
  rfl

/-! ### Parse -/

/-- Parse, by cases: the file is too short for its header or for its records, or its header comes back. -/
theorem parse_cases (c : Config) (bytes : List Byte) :
    (parse c bytes = none ∧
      (bytes.length < headerLen ∨ bytes.length < c.fileLen (headerOfBytes bytes).count.toNat)) ∨
    (headerLen ≤ bytes.length ∧ c.fileLen (headerOfBytes bytes).count.toNat ≤ bytes.length ∧
      ∃ scores, parse c bytes = some (headerOfBytes bytes, scores)) := by
  by_cases h8 : bytes.length < headerLen
  · exact .inl ⟨if_pos h8, .inl h8⟩
  · by_cases hshort : bytes.length < c.fileLen (headerOfBytes bytes).count.toNat
    · exact .inl ⟨(if_neg h8).trans (if_pos hshort), .inr hshort⟩
    · exact .inr ⟨Nat.not_lt.1 h8, Nat.not_lt.1 hshort, _, (if_neg h8).trans (if_neg hshort)⟩

/-- What Parse answers is the file's header, and the file is long enough for its header and its records. -/
theorem parse_eq_some {c : Config} {bytes : List Byte} {h : Header} {scores : List Score}
    (hparse : parse c bytes = some (h, scores)) :
    headerOfBytes bytes = h ∧ headerLen ≤ bytes.length ∧ c.fileLen (headerOfBytes bytes).count.toNat ≤ bytes.length := by
  rcases parse_cases c bytes with ⟨hnone, -⟩ | ⟨h8, hwhole, scores', hsome⟩
  · cases hnone.symm.trans hparse
  · cases hsome.symm.trans hparse
    exact ⟨rfl, h8, hwhole⟩

/-- The image's header is the Save's, with the checksum of the serialised Save. -/
theorem headerOfBytes_image (c : Config) (sv : Save) :
    headerOfBytes (image c sv) = { sv.hdr with cksum := fileSum (ser c sv) } := by
  have hck : (headerOfBytes (image c sv)).cksum = fileSum (ser c sv) := le32_leBytes _
  rw [← hck]
  rfl

/-- Parse of Image gives the header and the scores below the count (R82). -/
theorem parse_image (c : Config) (sv : Save) :
    parse c (image c sv) = some ({ sv.hdr with cksum := fileSum (ser c sv) },
      (List.range sv.hdr.count.toNat).map fun i => (sv.slot i).asReadBack c) := by
  have h8 : ¬(image c sv).length < headerLen := by rw [image_length, Config.fileLen]; omega
  have hwhole : ¬(image c sv).length < c.fileLen sv.hdr.count.toNat := by rw [image_length]; omega
  rw [parse, if_neg h8, headerOfBytes_image]
  simp only [if_neg hwhole, Option.some.injEq, Prod.mk.injEq, true_and]
  refine List.map_congr_left fun i hi => ?_
  rw [image_drop_take c sv i (List.mem_range.1 hi), scoreOfBytes_scoreBytes]

/-- With its checksum field zeroed the image is the serialised Save again. -/
theorem zeroHead_image (c : Config) (sv : Save) : zeroHead (image c sv) = ser c sv := by
  have hlen : min cksumLen (image c sv).length = 4 := by
    rw [image_length, Config.fileLen, headerLen, cksumLen]
    omega
  rw [zeroHead, hlen]
  rfl

/-! ### Reading twice -/

/-- Loading the same records again changes nothing. -/
theorem loadRecords_loadRecords (c : Config) (fs : FileStore) (n : Byte) (sv : Save) :
    loadRecords c fs n.toNat (loadRecords c fs n.toNat sv) = loadRecords c fs n.toNat sv := by
  have hn : n.toNat ≤ 255 := Nat.le_of_lt_succ n.isLt
  refine save_eq_of_slots _ _ (loadRecords_hdr ..) fun j _ => ?_
  rw [slot_loadRecords c fs _ hn, slot_loadRecords c fs _ hn]
  split <;> rfl

/-- The state after a successful SV.READ. -/
def readState (s : State) : State := finish .success ((verifiedState s).setSave (loadedSave s))

/-- SV.READ succeeds only with the whole file read and its checksum right (R143). -/
theorem Effect.svRead_success {s t : State} (h : Effect s .svRead t) (ht : t.err = .success) :
    s.holdsWholeFile ∧ tampered (fileChecksum true s.fs).x (fileHeader s).cksum = false ∧ t = readState s := by
  cases h with
  | failed h => exact absurd ht h.code_ne.1
  | svReadTampered => exact absurd ht (by simp)
  | svReadSealed hfile hsum => exact ⟨hfile, hsum, rfl⟩

/-- The file read once is there to be read again, with the same Save. -/
theorem loadedSave_readState (s : State) : loadedSave (readState s) = loadedSave s := by
  have hhdr : ({ loadedSave s with hdr := fileHeader s } : Save) = loadedSave s := by rw [← loadedSave_hdr]
  calc loadedSave (readState s)
      = loadRecords s.cfg s.fs (fileHeader s).count.toNat { loadedSave s with hdr := fileHeader s } := rfl
    _ = loadedSave s := by rw [hhdr]; exact loadRecords_loadRecords ..

/-- SV.READ after a successful SV.READ succeeds. -/
theorem exec_svRead_readState {s : State} (hfile : s.holdsWholeFile)
    (hsum : tampered (fileChecksum true s.fs).x (fileHeader s).cksum = false) :
    exec .svRead (readState s) = .next (readState (readState s)) :=
  Effect.exec_eq (.svReadSealed (s := readState s) hfile hsum)

/-! ### One changed byte -/

/-- Another byte of a list is not changed by `set`. -/
theorem getD_set_of_ne (bytes : List Byte) {k j : Nat} (b : Byte) (h : k ≠ j) :
    (bytes.set k b).getD j 0 = bytes.getD j 0 := by
  rw [List.getD_eq_getElem?_getD, List.getElem?_set_ne h, List.getD_eq_getElem?_getD]

/-- The changed byte of a list. -/
theorem getD_set_self (bytes : List Byte) {k : Nat} (b : Byte) (h : k < bytes.length) :
    (bytes.set k b).getD k 0 = b := by
  rw [List.getD_eq_getElem?_getD, List.getElem?_set_self h, Option.getD_some]

/-- The sum `A` after a byte sequence: all the bytes added, modulo 65521 (`spec/40_checksum.md` R120). -/
theorem sumsFrom_fst_toNat (ab : BitVec 16 × BitVec 16) (bytes : List Byte) (h : ab.1.toNat < adlerModulus) :
    (sumsFrom ab bytes).1.toNat = (ab.1.toNat + (bytes.map BitVec.toNat).sum) % adlerModulus := by
  induction bytes generalizing ab with
  | nil => exact (Nat.mod_eq_of_lt h).symm
  | cons d rest ih =>
    have hstep := adlStep_fst_toNat ab.1 ab.2 d
    have hlt : (adlStep ab.1 ab.2 d).1.toNat < adlerModulus := hstep ▸ Nat.mod_lt _ (by decide)
    calc (sumsFrom ab (d :: rest)).1.toNat
        = ((adlStep ab.1 ab.2 d).1.toNat + (rest.map BitVec.toNat).sum) % adlerModulus := ih _ hlt
      _ = _ := by rw [hstep, Nat.mod_add_mod, List.map_cons, List.sum_cons, Nat.add_assoc]

/-- Changing one byte changes the sum of the bytes by the difference. -/
theorem sum_set_add (bytes : List Byte) {k : Nat} (b : Byte) (h : k < bytes.length) :
    ((bytes.set k b).map BitVec.toNat).sum + (bytes.getD k 0).toNat = (bytes.map BitVec.toNat).sum + b.toNat := by
  induction bytes generalizing k with
  | nil => exact absurd h (Nat.not_lt_zero k)
  | cons d rest ih =>
    cases k with
    | zero => simp only [List.set_cons_zero, List.map_cons, List.sum_cons, List.getD_cons_zero]; omega
    | succ k =>
      have := ih (Nat.lt_of_succ_lt_succ h)
      simp only [List.set_cons_succ, List.map_cons, List.sum_cons, List.getD_cons_succ]
      omega

/-- Adl32 detects every change of one byte: the byte's difference is below the modulus, so `A` differs. -/
theorem adl32_set_ne (bytes : List Byte) {k : Nat} {b : Byte} (h : k < bytes.length) (hb : b ≠ bytes.getD k 0) :
    adl32 (bytes.set k b) ≠ adl32 bytes := by
  intro heq
  rw [adl32_eq, adl32_eq] at heq
  have ha := congrArg (BitVec.extractLsb' 0 16) heq
  rw [(extract_packSums _ _).1, (extract_packSums _ _).1] at ha
  have hmod := congrArg BitVec.toNat ha
  rw [sumsFrom_fst_toNat _ _ (by decide), sumsFrom_fst_toNat _ _ (by decide), adlerModulus] at hmod
  have hsum := sum_set_add bytes b h
  have hlt := b.isLt
  have hlt' := (bytes.getD k 0).isLt
  exact hb (BitVec.eq_of_toNat_eq (by omega))

/-- The pieces' checksums can be combined from any seed. -/
theorem foldl_xor_seed (ps : List (List Byte)) (x y : Word) :
    ps.foldl (fun x p => x ^^^ adl32 p) (x ^^^ y) = ps.foldl (fun x p => x ^^^ adl32 p) x ^^^ y := by
  induction ps generalizing x with
  | nil => rfl
  | cons p ps ih => rw [List.foldl_cons, List.foldl_cons, ← ih, BitVec.xor_assoc, BitVec.xor_comm y, ← BitVec.xor_assoc]

/-- FileSum with a full piece in front. -/
theorem fileSum_append (p rest : List Byte) (h : p.length = chunkLen) :
    fileSum (p ++ rest) = fileSum rest ^^^ adl32 p := by
  rw [fileSum, pieces_append p rest h, List.foldl_cons, foldl_xor_seed]
  rfl

/-- FileSum of a sequence that is one piece. -/
theorem fileSum_of_le (bytes : List Byte) (h0 : bytes ≠ []) (h : bytes.length ≤ chunkLen) :
    fileSum bytes = 1#32 ^^^ adl32 bytes := by
  rw [fileSum, pieces_of_le bytes h0 h]
  rfl

/-- FileSum detects every change of one byte: exactly one piece differs, and so does its checksum (R83). -/
theorem fileSum_set_ne (bytes : List Byte) {k : Nat} {b : Byte} (h : k < bytes.length) (hb : b ≠ bytes.getD k 0) :
    fileSum (bytes.set k b) ≠ fileSum bytes := by
  induction hl : bytes.length using Nat.strong_induction_on generalizing bytes k with
  | _ n ih =>
  by_cases hle : bytes.length ≤ chunkLen
  · have h0 : bytes ≠ [] := List.ne_nil_of_length_pos (by omega)
    rw [fileSum_of_le bytes h0 hle, fileSum_of_le _ (by simpa using h0) (by simpa using hle)]
    exact fun heq => adl32_set_ne bytes h hb ((BitVec.xor_right_inj _).1 heq)
  · obtain ⟨p, rest, hp, rfl⟩ : ∃ p rest, p.length = chunkLen ∧ bytes = p ++ rest :=
      ⟨bytes.take chunkLen, bytes.drop chunkLen, by rw [List.length_take]; omega, by simp⟩
    rw [fileSum_append p rest hp]
    by_cases hk : k < p.length
    · rw [List.getD_append _ _ _ _ hk] at hb
      rw [List.set_append_left _ _ hk, fileSum_append _ _ (by simpa using hp)]
      exact fun heq => adl32_set_ne p hk hb ((BitVec.xor_right_inj _).1 heq)
    · rw [List.getD_append_right _ _ _ _ (Nat.not_lt.1 hk)] at hb
      rw [List.set_append_right _ _ (Nat.not_lt.1 hk), fileSum_append p _ hp]
      rw [List.length_append] at h hl
      have hpos : 0 < p.length := by rw [hp]; decide
      exact fun heq => ih rest.length (by omega) rest (by omega) hb rfl ((BitVec.xor_left_inj _).1 heq)

/-- A change in the checksum field does not show in the bytes a pass takes. -/
theorem zeroHead_set_of_lt (bytes : List Byte) {k : Nat} (b : Byte) (h : k < cksumLen) :
    zeroHead (bytes.set k b) = zeroHead bytes := by
  rw [zeroHead, zeroHead, List.length_set, List.drop_set_of_lt h]

/-- A change after the checksum field is the same change of the bytes a pass takes. -/
theorem zeroHead_set_of_le (bytes : List Byte) {k : Nat} (b : Byte) (h4 : cksumLen ≤ k) (h : k < bytes.length) :
    zeroHead (bytes.set k b) = (zeroHead bytes).set k b := by
  have hmin : min cksumLen bytes.length = cksumLen := Nat.min_eq_left (by omega)
  rw [zeroHead, zeroHead, List.length_set, hmin, List.drop_set, if_neg (by omega),
    List.set_append_right _ _ (by simpa using h4), List.length_replicate]

/-- After the checksum field a pass takes the bytes of the file. -/
theorem zeroHead_getD (bytes : List Byte) {k : Nat} (h4 : cksumLen ≤ k) (h : k < bytes.length) :
    (zeroHead bytes).getD k 0 = bytes.getD k 0 := by
  have hmin : min cksumLen bytes.length = cksumLen := Nat.min_eq_left (by omega)
  rw [zeroHead, hmin, List.getD_append_right _ _ _ _ (by simpa using h4), List.length_replicate,
    List.getD_eq_getElem?_getD, List.getElem?_drop, Nat.add_sub_cancel' h4, List.getD_eq_getElem?_getD]

theorem zeroHead_length (bytes : List Byte) : (zeroHead bytes).length = bytes.length := by
  rw [zeroHead, List.length_append, List.length_replicate, List.length_drop]
  omega

/-- The bytes of the checksum field that a file's header holds (R62). -/
theorem headerOfBytes_cksum_extract (bytes : List Byte) {k : Nat} (h : k < cksumLen) :
    (headerOfBytes bytes).cksum.extractLsb' (8 * k) 8 = bytes.getD k 0 := by
  obtain ⟨h0, h1, h2, h3⟩ := extract_le32 (bytes.getD 0 0) (bytes.getD 1 0) (bytes.getD 2 0) (bytes.getD 3 0)
  match k, h with
  | 0, _ => exact h0
  | 1, _ => exact h1
  | 2, _ => exact h2
  | 3, _ => exact h3

/-- A change after the checksum field does not show in it. -/
theorem headerOfBytes_set_cksum (bytes : List Byte) {k : Nat} (b : Byte) (h4 : cksumLen ≤ k) :
    (headerOfBytes (bytes.set k b)).cksum = (headerOfBytes bytes).cksum := by
  have hne : ∀ j, j < cksumLen → (bytes.set k b).getD j 0 = bytes.getD j 0 :=
    fun j hj => getD_set_of_ne bytes b (by omega)
  simp only [headerOfBytes, hne 0 (by decide), hne 1 (by decide), hne 2 (by decide), hne 3 (by decide)]

/-- A file whose checksum is right has a wrong one after a change of one byte: in the field the stored checksum changes,
after it the computed one (R83). -/
theorem cksum_ne_of_set {file : List Byte} {k : Nat} {b : Byte}
    (hsum : fileSum (zeroHead file) = (headerOfBytes file).cksum) (hk : k < file.length) (hb : b ≠ file.getD k 0) :
    fileSum (zeroHead (file.set k b)) ≠ (headerOfBytes (file.set k b)).cksum := by
  by_cases h4 : k < cksumLen
  · rw [zeroHead_set_of_lt file b h4, hsum]
    intro heq
    have := congrArg (BitVec.extractLsb' (8 * k) 8) heq
    rw [headerOfBytes_cksum_extract _ h4, headerOfBytes_cksum_extract _ h4, getD_set_self file b hk] at this
    exact hb this.symm
  · have h4 := Nat.not_lt.1 h4
    rw [zeroHead_set_of_le file b h4 hk, headerOfBytes_set_cksum file b h4, ← hsum]
    exact fileSum_set_ne (zeroHead file) (by rwa [zeroHead_length]) (by rwa [zeroHead_getD file h4 hk])

/-- Parse of a whole file with one changed byte fails only where the count byte was raised (R83). -/
theorem parse_set_eq_none {c : Config} {file : List Byte} {h : Header} {scores : List Score} {k : Nat} {b : Byte}
    (hparse : parse c file = some (h, scores)) (hk : k < file.length) (hnone : parse c (file.set k b) = none) :
    k = 7 ∧ (file.getD 7 0).toNat < b.toNat := by
  obtain ⟨-, h8, hwhole⟩ := parse_eq_some hparse
  rcases parse_cases c (file.set k b) with ⟨-, hshort⟩ | ⟨-, -, scores', hsome⟩
  · rw [List.length_set] at hshort
    have hlt := Nat.lt_of_le_of_lt hwhole (hshort.resolve_left (Nat.not_lt.2 h8))
    have hcount : (file.getD 7 0).toNat < ((file.set k b).getD 7 0).toNat :=
      Nat.lt_of_mul_lt_mul_left (Nat.lt_of_add_lt_add_left hlt)
    obtain rfl : k = 7 := by
      by_contra h7
      rw [getD_set_of_ne file b h7] at hcount
      exact Nat.lt_irrefl _ hcount
    rw [getD_set_self file b hk] at hcount
    exact ⟨rfl, hcount⟩
  · cases hnone.symm.trans hsome

/-! ### What SV.READ makes of a file -/

/-- The pass of SV.READ computes FileSum of the file with its checksum field zeroed (`spec/40_checksum.md` R117). -/
theorem fileChecksum_true (fs : FileStore) : fileChecksum true fs = Engine.done (fileSum (zeroHead fs.bytes)) := by
  rw [fileChecksum_eq_foldl, map_passByte_true, close_foldl_push_init]

/-- A file that SV.READ finds too short is one that Parse does not take. -/
theorem parse_of_short {s : State}
    (hshort : s.fs.len < headerLen ∨ s.fs.len < s.cfg.fileLen (fileHeader s).count.toNat) :
    parse s.cfg s.fs.bytes = none := by
  rcases parse_cases s.cfg s.fs.bytes with ⟨hnone, -⟩ | ⟨h8, hwhole, -⟩
  · exact hnone
  · rw [bytes_length] at h8 hwhole
    rw [← fileHeader_eq h8] at hwhole
    omega

/-- SV.READ of a present file whose checksums differ leaves the save buffer as it was and raises TamperError, or ParseError
where Parse fails (`spec/41_marshaller.md` R143). -/
theorem Effect.svRead_of_cksum_ne {s t : State} (he : Effect s .svRead t) (hpres : s.fs.present = true)
    (hbad : fileSum (zeroHead s.fs.bytes) ≠ (headerOfBytes s.fs.bytes).cksum) :
    t.save = s.save ∧ (t.err = .tamperError ∨ (parse s.cfg s.fs.bytes = none ∧ t.err = .parseError)) := by
  cases he with
  | failed hf =>
    cases hf with
    | noFile _ habsent => exact absurd (hpres.symm.trans habsent) (by decide)
    | shortFile _ hshort => exact ⟨rfl, .inr ⟨parse_of_short hshort, rfl⟩⟩
    | outOfBounds _ hi => exact absurd hi (by simp)
  | svReadTampered => exact ⟨rfl, .inl rfl⟩
  | svReadSealed hfile hsum =>
    have htampered : tampered (fileChecksum true s.fs).x (fileHeader s).cksum = true := by
      rw [fileChecksum_true, fileHeader_eq hfile.2.1]
      exact tampered_iff.2 hbad
    exact absurd (htampered.symm.trans hsum) (by decide)

end Sys2Proof.Machine

open Sys2Proof Sys2Proof.Machine

/-- Settles O22: the image's header and records come back, and its zeroed form is the serialised Save. -/
theorem parseOfImageGivesTheSaveBack : Obligations.ParseOfImageGivesTheSaveBack := by
  unfold Obligations.ParseOfImageGivesTheSaveBack
  exact fun c sv => ⟨parse_image c sv, by rw [zeroHead_image]⟩

/-- Settles O17: the checksum field, the header, and the records cut out of the image byte by byte. -/
theorem imageFollowsTheFileLayout : Obligations.ImageFollowsTheFileLayout := by
  unfold Obligations.ImageFollowsTheFileLayout
  intro c sv
  obtain ⟨hday, hmonth, hyear, hcount⟩ := image_getD_dateCount c sv
  refine ⟨image_length c sv, image_getD_cksum c sv, hday, hmonth, hyear, hcount, fun i hi => ?_⟩
  obtain ⟨hd, hm, hy⟩ := scoreBytes_getD_date c (sv.slot i)
  obtain ⟨h0, h1, h2, h3⟩ := scoreBytes_getD_initials c (sv.slot i)
  obtain ⟨hfour, hthree⟩ := recLen_eq c
  have hrec : ∀ k, k < 10 → (image c sv).getD (8 + c.recLen * i + k) 0 = (scoreBytes c (sv.slot i)).getD k 0 :=
    fun k hk => image_getD_record c sv hi (by have := recLen_cases c; omega)
  refine ⟨(hrec 0 (by omega)).trans hd, (hrec 1 (by omega)).trans hm, (hrec 2 (by omega)).trans hy, fun k hk => ?_,
    (hrec 7 (by omega)).trans h0, (hrec 8 (by omega)).trans h1, (hrec 9 (by omega)).trans h2, fun hw => ?_, hthree⟩
  · rw [Nat.add_assoc]
    exact (hrec (3 + k) (by omega)).trans (scoreBytes_getD_value c (sv.slot i) k hk)
  · exact ⟨hfour hw, (image_getD_record c sv hi (by have := hfour hw; omega)).trans (h3 hw)⟩

/-- Settles O21: of the effects only that of SV.WRITE changes the store, and loading the same records again changes nothing. -/
theorem readsNeverWriteTheStore : Obligations.ReadsNeverWriteTheStore := by
  unfold Obligations.ReadsNeverWriteTheStore
  refine ⟨fun i s t hi h => ?_, fun s t u ht hok hu => ?_, fun s reg => ⟨_, rfl⟩⟩
  · rcases (exec_eq_next_iff.1 h).fs with hfs | ⟨rfl, -⟩
    · exact hfs
    · simp at hi
  · obtain ⟨hfile, hsum, rfl⟩ := (exec_eq_next_iff.1 ht).svRead_success hok
    rw [exec_svRead_readState hfile hsum] at hu
    cases hu
    exact ⟨loadedSave_readState s, rfl, rfl⟩

/-- Settles O24: the sum `A` of the changed piece differs, so SV.READ meets a file that is too short or whose checksums differ;
two equal full chunks cancel in the xor. -/
theorem oneChangedByteIsAlwaysDetected : Obligations.OneChangedByteIsAlwaysDetected := by
  unfold Obligations.OneChangedByteIsAlwaysDetected
  refine ⟨fun c file h scores k b hparse hsum hk hb => ?_, fun s file h scores k b hpres hparse hsum hk hb hbytes => ?_,
    fun chunk rest hlen => ?_⟩
  · obtain ⟨rfl, -⟩ := parse_eq_some hparse
    rcases parse_cases c (file.set k b) with ⟨hnone, -⟩ | ⟨-, -, scores', hsome⟩
    · obtain ⟨h7, hraised⟩ := parse_set_eq_none hparse hk hnone
      exact .inl ⟨h7, hraised, hnone⟩
    · exact .inr ⟨_, scores', hsome, cksum_ne_of_set hsum hk hb⟩
  · obtain ⟨rfl, -⟩ := parse_eq_some hparse
    obtain ⟨t, ht⟩ := exists_effect .svRead s
    obtain ⟨hsave, herr⟩ := ht.svRead_of_cksum_ne hpres (hbytes ▸ cksum_ne_of_set hsum hk hb)
    exact ⟨t, ht.exec_eq, hsave,
      herr.imp_right fun ⟨hnone, hcode⟩ => ⟨(parse_set_eq_none hparse hk (hbytes ▸ hnone)).1, hcode⟩⟩
  · rw [fileSum_append chunk _ hlen, fileSum_append chunk _ hlen, BitVec.xor_assoc, BitVec.xor_self, BitVec.xor_zero]

/-- Settles O30: such a command begins as its one-step form, which leaves the store alone and the sequencer at rest. -/
theorem hostFedCommandsMakeNoAccess : Obligations.HostFedCommandsMakeNoAccess := by
  unfold Obligations.HostFedCommandsMakeNoAccess
  intro i s t hi h
  have hexec : exec i s = .next t := by
    rcases beginInstr_cases i s with he | ⟨rfl, -⟩ | ⟨rfl, -⟩ | ⟨op, hop, -⟩
    · exact he.symm.trans h
    · simp at hi
    · simp at hi
    · simp only [List.mem_cons, List.not_mem_nil, or_false, Prod.mk.injEq] at hop
      rcases hop with ⟨rfl, -⟩ | ⟨rfl, -⟩ | ⟨rfl, -⟩ <;> simp at hi
  obtain ⟨-, -, -, -, -, hidle⟩ := exec_keeps i s t hexec
  exact ⟨hexec, beginInstr_fs h, fun k => seqRun_of_idle k t (by rw [hidle]; rfl)⟩
end

section
/-! PROOFS. The encoding (`spec/30_encoding.md`): decoding and encoding agree (O1), every word matches one row of the opcode
map or is illegal (O2), which words are illegal and what one does (O3), and the worked encodings (O4). -/

namespace Sys2Proof.Machine

/-! ### The fields of a command word -/

/-- A word is put together from its three fields (R90). -/
theorem word_of_fields (w : Word) : (zeroField w ++ immField w) ++ opField w = w := by
  have hupper : zeroField w ++ immField w = w.extractLsb' 8 24 :=
    BitVec.extractLsb'_append_extractLsb'_eq_extractLsb' rfl
  have hword : w.extractLsb' 8 24 ++ opField w = w.extractLsb' 0 32 :=
    BitVec.extractLsb'_append_extractLsb'_eq_extractLsb' rfl
  rw [hupper, hword, BitVec.extractLsb'_eq_self]

/-- A word with a zero upper half is told by its other two fields. -/
theorem fields_eq_iff {imm op : Byte} {w : Word} :
    (0#16 ++ imm) ++ op = w ↔ zeroField w = 0#16 ∧ immField w = imm ∧ opField w = op := by
  constructor
  · rintro rfl
    obtain ⟨hop, himm, hzero⟩ := Laws.fields_of_word imm op
    exact ⟨hzero, himm, hop⟩
  · rintro ⟨hzero, rfl, rfl⟩
    rw [← hzero, word_of_fields]

/-! ### Decoding is the inverse of encoding -/

/-- A command without immediate is decoded when the immediate is 0 (R94 (c)). -/
theorem withoutImm_eq_command_iff {imm : Byte} {i j : Instr} :
    withoutImm imm i = .command j ↔ i = j ∧ imm = 0#8 := by
  unfold withoutImm
  split <;> simp [*]

/-- The opcode map gives a command exactly to that command's opcode and immediate (R92). -/
theorem decodeOp_eq_command_iff {op imm : Byte} {i : Instr} :
    decodeOp op imm = .command i ↔ imm = immOf i ∧ op = opcodeOf i := by
  constructor
  · intro h
    unfold decodeOp at h
    split at h
    case h_2 | h_5 | h_13 | h_14 | h_15 | h_16 => cases h; exact ⟨rfl, rfl⟩
    case h_17 => cases h
    all_goals
      obtain ⟨rfl, rfl⟩ := withoutImm_eq_command_iff.1 h
      exact ⟨rfl, rfl⟩
  · rintro ⟨rfl, rfl⟩
    cases i <;> rfl

/-- A word decodes to a command exactly when it is that command's word. -/
theorem decode_eq_command_iff {w : Word} {i : Instr} : decode w = .command i ↔ encode i = w := by
  rw [encode, fields_eq_iff, decode]
  split
  case isTrue hzero => rw [decodeOp_eq_command_iff, and_iff_right hzero]
  case isFalse hzero => exact ⟨nofun, fun h => absurd h.1 hzero⟩

/-- Decoding a command's word gives the command. -/
theorem decode_encode (i : Instr) : decode (encode i) = .command i := decode_eq_command_iff.2 rfl

/-! ### Which words are commands -/

/-- A word is well-formed when none of the three conditions of R94 holds. -/
theorem wordWellFormed_iff {w : Word} :
    wordWellFormed w = true ↔
      zeroField w = 0#16 ∧ opField w ∈ assignedOpcodes ∧ (opField w ∈ immediateOpcodes ∨ immField w = 0#8) := by
  simp [wordWellFormed, upperHalfZero, opcodeAssigned, immediateAllowed, zeroField, opField, immField, and_assoc]

/-- The commands' opcodes and immediates: the opcodes of R92, with an immediate where the opcode takes one (R91). -/
theorem exists_instr_iff {op imm : Byte} :
    (∃ i, imm = immOf i ∧ op = opcodeOf i) ↔ op ∈ assignedOpcodes ∧ (op ∈ immediateOpcodes ∨ imm = 0#8) := by
  constructor
  · rintro ⟨i, rfl, rfl⟩
    cases i <;> simp [opcodeOf, immOf, assignedOpcodes, immediateOpcodes]
  · rintro ⟨hop, himm⟩
    have himm' : op ∉ immediateOpcodes → imm = 0#8 := himm.resolve_left
    simp only [assignedOpcodes, List.mem_cons, List.not_mem_nil, or_false] at hop
    rcases hop with rfl | rfl | rfl | rfl | rfl | rfl | rfl | rfl | rfl | rfl | rfl | rfl | rfl | rfl | rfl | rfl
    · exact ⟨.adlRst, himm' (by decide), rfl⟩
    · exact ⟨.adlByte imm, rfl, rfl⟩
    · exact ⟨.adlVal, himm' (by decide), rfl⟩
    · exact ⟨.ckInit, himm' (by decide), rfl⟩
    · exact ⟨.ckPush imm, rfl, rfl⟩
    · exact ⟨.ckEnd, himm' (by decide), rfl⟩
    · exact ⟨.fsCsum, himm' (by decide), rfl⟩
    · exact ⟨.fsCsumz, himm' (by decide), rfl⟩
    · exact ⟨.svWrite, himm' (by decide), rfl⟩
    · exact ⟨.svRead, himm' (by decide), rfl⟩
    · exact ⟨.svVerify, himm' (by decide), rfl⟩
    · exact ⟨.svAppend, himm' (by decide), rfl⟩
    · exact ⟨.svNew imm, rfl, rfl⟩
    · exact ⟨.svInit imm, rfl, rfl⟩
    · exact ⟨.scGet imm, rfl, rfl⟩
    · exact ⟨.scPut imm, rfl, rfl⟩

/-- The commands' words are the well-formed ones. -/
theorem exists_encode_eq_iff {w : Word} : (∃ i, encode i = w) ↔ wordWellFormed w = true := by
  simp only [encode, fields_eq_iff, exists_and_left, exists_instr_iff, wordWellFormed_iff]

/-- A word is illegal exactly when it is not well-formed (R94). -/
theorem decode_illegal_iff {w : Word} : (∃ why, decode w = .illegal why) ↔ ¬wordWellFormed w = true := by
  simp only [← exists_encode_eq_iff, ← decode_eq_command_iff]
  cases decode w <;> simp

/-- The opcodes that are none of the sixteen, by their ranges (R94 (b)). -/
theorem not_mem_assignedOpcodes_iff {op : Byte} :
    op ∉ assignedOpcodes ↔ op.toNat = 0x00 ∨ op.toNat = 0x07 ∨ (0x0A ≤ op.toNat ∧ op.toNat ≤ 0x0F) ∨
      (0x13 ≤ op.toNat ∧ op.toNat ≤ 0x17) ∨ 0x1D ≤ op.toNat := by
  simp only [assignedOpcodes, List.mem_cons, List.not_mem_nil, or_false]
  bv_omega

/-- The assigned opcodes that take no immediate, one by one (R92, R94 (c)). -/
theorem mem_assigned_not_immediate_iff {op : Byte} :
    op ∈ assignedOpcodes ∧ op ∉ immediateOpcodes ↔
      op ∈ ([0x01, 0x03, 0x04, 0x06, 0x08, 0x09, 0x10, 0x11, 0x12, 0x18] : List Byte) := by
  simp only [assignedOpcodes, immediateOpcodes, List.mem_cons, List.not_mem_nil, or_false]
  bv_omega

/-! ### The opcode map as a table -/

/-- The mask 0xFFFF00FF leaves the upper half and the opcode, and clears the immediate. -/
theorem fields_and_immMask (w : Word) :
    zeroField (w &&& 0xFFFF00FF#32) = zeroField w ∧ immField (w &&& 0xFFFF00FF#32) = 0#8 ∧
      opField (w &&& 0xFFFF00FF#32) = opField w := by
  simp only [zeroField, immField, opField, BitVec.extractLsb'_and]
  refine ⟨?_, ?_, ?_⟩
  · exact BitVec.and_allOnes
  · exact BitVec.and_zero
  · exact BitVec.and_allOnes

/-- Two kinds of rows: a command without immediate, matched by the whole word, or one matched by all but its immediate. -/
theorem opcodeTable_rows : ∀ r ∈ opcodeTable,
    (r.mask = 0xFFFFFFFF#32 ∧ ∀ imm, encode (r.command imm) = r.matchBits) ∨
    (r.mask = 0xFFFF00FF#32 ∧ ∃ op : Byte, r.matchBits = (0#16 ++ 0#8) ++ op ∧
      ∀ imm, encode (r.command imm) = (0#16 ++ imm) ++ op) := by
  simp only [opcodeTable, List.forall_mem_cons]
  exact ⟨.inl ⟨rfl, fun _ => rfl⟩, .inr ⟨rfl, 0x02, rfl, fun _ => rfl⟩, .inl ⟨rfl, fun _ => rfl⟩,
    .inl ⟨rfl, fun _ => rfl⟩, .inr ⟨rfl, 0x05, rfl, fun _ => rfl⟩, .inl ⟨rfl, fun _ => rfl⟩,
    .inl ⟨rfl, fun _ => rfl⟩, .inl ⟨rfl, fun _ => rfl⟩, .inl ⟨rfl, fun _ => rfl⟩, .inl ⟨rfl, fun _ => rfl⟩,
    .inl ⟨rfl, fun _ => rfl⟩, .inl ⟨rfl, fun _ => rfl⟩, .inr ⟨rfl, 0x19, rfl, fun _ => rfl⟩,
    .inr ⟨rfl, 0x1A, rfl, fun _ => rfl⟩, .inr ⟨rfl, 0x1B, rfl, fun _ => rfl⟩, .inr ⟨rfl, 0x1C, rfl, fun _ => rfl⟩,
    nofun⟩

/-- A row matches a word exactly when the word is the row's command with the word's own immediate (R91, R92). -/
theorem matchesWord_iff {r : OpcodeRow} (hr : r ∈ opcodeTable) {w : Word} :
    r.matchesWord w = true ↔ decode w = .command (r.command (immField w)) := by
  rw [decode_eq_command_iff, OpcodeRow.matchesWord, beq_iff_eq]
  rcases opcodeTable_rows r hr with ⟨hmask, hword⟩ | ⟨hmask, op, hmatch, hword⟩
  · rw [hmask, hword, show w &&& 0xFFFFFFFF#32 = w from BitVec.and_allOnes, eq_comm]
  · obtain ⟨hzero, himm, hop⟩ := fields_and_immMask w
    rw [hmask, hmatch, hword, eq_comm, fields_eq_iff, fields_eq_iff, hzero, himm, hop]
    simp

/-- Every command has a row. -/
theorem exists_row (i : Instr) : ∃ r ∈ opcodeTable, r.command (immOf i) = i := by
  cases i with
  | adlRst => exact ⟨opcodeTable[0], List.getElem_mem _, rfl⟩
  | adlByte d => exact ⟨opcodeTable[1], List.getElem_mem _, rfl⟩
  | adlVal => exact ⟨opcodeTable[2], List.getElem_mem _, rfl⟩
  | ckInit => exact ⟨opcodeTable[3], List.getElem_mem _, rfl⟩
  | ckPush d => exact ⟨opcodeTable[4], List.getElem_mem _, rfl⟩
  | ckEnd => exact ⟨opcodeTable[5], List.getElem_mem _, rfl⟩
  | fsCsum => exact ⟨opcodeTable[6], List.getElem_mem _, rfl⟩
  | fsCsumz => exact ⟨opcodeTable[7], List.getElem_mem _, rfl⟩
  | svWrite => exact ⟨opcodeTable[8], List.getElem_mem _, rfl⟩
  | svRead => exact ⟨opcodeTable[9], List.getElem_mem _, rfl⟩
  | svVerify => exact ⟨opcodeTable[10], List.getElem_mem _, rfl⟩
  | svAppend => exact ⟨opcodeTable[11], List.getElem_mem _, rfl⟩
  | svNew n => exact ⟨opcodeTable[12], List.getElem_mem _, rfl⟩
  | svInit n => exact ⟨opcodeTable[13], List.getElem_mem _, rfl⟩
  | scGet idx => exact ⟨opcodeTable[14], List.getElem_mem _, rfl⟩
  | scPut idx => exact ⟨opcodeTable[15], List.getElem_mem _, rfl⟩

/-- Every mask covers the opcode. -/
theorem opField_of_matchesWord {r : OpcodeRow} (hr : r ∈ opcodeTable) {w : Word} (h : r.matchesWord w = true) :
    opField w = opField r.matchBits := by
  have hmask : ∀ r ∈ opcodeTable, opField r.mask = BitVec.allOnes 8 := by decide
  rw [← beq_iff_eq.1 h, opField, opField, BitVec.extractLsb'_and, show r.mask.extractLsb' 0 8 = _ from hmask r hr,
    BitVec.and_allOnes]

/-- The opcode tells the rows apart. -/
theorem mnemonic_of_opField : ∀ r ∈ opcodeTable, ∀ r' ∈ opcodeTable,
    opField r'.matchBits = opField r.matchBits → r'.mnemonic = r.mnemonic := by
  decide

end Sys2Proof.Machine

open Sys2Proof Sys2Proof.Machine

/-- Settles O1: a word decodes to a command exactly when it is the command's word, and the commands' words are the
well-formed ones. -/
theorem decodeAndEncodeAgree : Obligations.DecodeAndEncodeAgree := by
  unfold Obligations.DecodeAndEncodeAgree
  exact ⟨fun i _ => ⟨decode_encode i, exists_encode_eq_iff.1 ⟨i, rfl⟩⟩, fun w i => decode_eq_command_iff.1⟩

/-- Settles O2: a word of a command matches the command's row, and no other, for the opcode tells the rows apart; a word that
matches a row decodes to its command, so an illegal one matches none. -/
theorem everyWordMatchesOneRowOrIsIllegal : Obligations.EveryWordMatchesOneRowOrIsIllegal := by
  unfold Obligations.EveryWordMatchesOneRowOrIsIllegal
  intro w
  cases hdec : decode w with
  | command i =>
    obtain ⟨r, hr, hi⟩ := exists_row i
    obtain ⟨-, himm, -⟩ := fields_eq_iff.1 (decode_eq_command_iff.1 hdec)
    have hcommand : r.command (immField w) = i := by rw [himm, hi]
    have hmatch : r.matchesWord w = true := (matchesWord_iff hr).2 (by rw [hdec, hcommand])
    refine .inl ⟨r, hr, hmatch, by rw [hcommand], fun r' hr' hmatch' => mnemonic_of_opField r hr r' hr' ?_⟩
    rw [← opField_of_matchesWord hr hmatch, ← opField_of_matchesWord hr' hmatch']
  | illegal why =>
    refine .inr ⟨fun r hr => Bool.eq_false_iff.2 fun hmatch => ?_, why, rfl⟩
    cases hdec.symm.trans ((matchesWord_iff hr).1 hmatch)

/-- Settles O3: an illegal word is one that is not well-formed, its opcode told by the ranges; the step that takes it raises
IllegalCommand, which in an IDLE block writes STATUS.ERR alone. -/
theorem illegalWordsSetTheCodeAndNothingElse : Obligations.IllegalWordsSetTheCodeAndNothingElse := by
  unfold Obligations.IllegalWordsSetTheCodeAndNothingElse
  refine ⟨fun w => ?_, ⟨_, rfl⟩, fun s w why rest hidle hb hdec => ?_, rfl⟩
  · simp only [decode_illegal_iff, wordWellFormed_iff, ← not_mem_assignedOpcodes_iff, ← mem_assigned_not_immediate_iff]
    rw [zeroField, opField, immField]
    tauto
  · have hphase : s.seq.phase = .idle := by rw [hidle]; rfl
    rw [step_idle_cons s _ rest hphase hb, takeWhenIdle, hostWrite, if_pos rfl, issueCommand, hdec]
    exact congrArg _ (finish_of_idle { s with inbox := rest } _ hidle)

/-- Settles O4: the worked words are the encodings of the commands the rule names, and the worked illegal words break the
condition the rule names. -/
theorem workedEncodingsDecode : Obligations.WorkedEncodingsDecode := by
  unfold Obligations.WorkedEncodingsDecode
  exact ⟨decode_encode .adlRst, decode_encode (.adlByte 0x61), decode_encode (.ckPush 0xFF), decode_encode .ckEnd,
    decode_encode .svWrite, decode_encode (.svNew 2), decode_encode (.svInit 255), decode_encode (.scGet 0),
    decode_encode (.scPut 254), rfl, rfl, rfl, rfl⟩
end

section
/-! PROOFS. The pseudo-instructions that load registers (`spec/30_encoding.md` R96; O45). -/

namespace Sys2Proof.Machine

/-! ### Dates and initials in a word -/

/-- A byte put below a field, as a number. -/
theorem toNat_append_byte {n : Nat} (a : BitVec n) (b : Byte) : (a ++ b).toNat = 256 * a.toNat + b.toNat := by
  rw [BitVec.toNat_append, ← Nat.shiftLeft_add_eq_or_of_lt b.isLt, Nat.shiftLeft_eq, Nat.mul_comm]

/-- A word packed from four bytes, as a number. -/
theorem le32_toNat (b0 b1 b2 b3 : Byte) :
    (le32 b0 b1 b2 b3).toNat = b0.toNat + 256 * b1.toNat + 65536 * b2.toNat + 16777216 * b3.toNat := by
  simp only [le32, toNat_append_byte]
  omega

/-- Four bytes added at their places, as the listings write a word (R96). -/
theorem add_shifted_eq_le32 (b0 b1 b2 b3 : Byte) :
    (b0.setWidth 32 + b1.setWidth 32 <<< 8 + b2.setWidth 32 <<< 16 + b3.setWidth 32 <<< 24 : Word) =
      le32 b0 b1 b2 b3 := by
  refine BitVec.eq_of_toNat_eq ?_
  simp only [le32_toNat, BitVec.toNat_add, BitVec.toNat_shiftLeft, BitVec.toNat_setWidth, Nat.shiftLeft_eq]
  omega

/-- The date value of a listing is the date in the three low bytes (R96). -/
theorem dateValue_eq_le32 (d m y : Byte) : dateValue d m y = le32 d m y 0 := by
  rw [← add_shifted_eq_le32, dateValue]
  simp

/-- A register of 24 bits takes the date out of a date value. -/
theorem extract_dateValue (d m y : Byte) : (dateValue d m y).extractLsb' 0 24 = packDate d m y := by
  refine BitVec.eq_of_toNat_eq ?_
  simp only [dateValue_eq_le32, BitVec.extractLsb'_toNat, le32_toNat, packDate, toNat_append_byte, Nat.shiftRight_zero]
  omega

/-- A packed date gives its parts back. -/
theorem parts_packDate (d m y : Byte) :
    dayOf (packDate d m y) = d ∧ monthOf (packDate d m y) = m ∧ yearOf (packDate d m y) = y := by
  simp only [dayOf, monthOf, yearOf, packDate]
  refine ⟨?_, ?_, ?_⟩
  · rw [BitVec.extractLsb'_append_eq_of_add_le (by omega), BitVec.extractLsb'_eq_self]
  · rw [BitVec.extractLsb'_append_eq_of_le (by omega), BitVec.extractLsb'_append_eq_of_add_le (by omega),
      BitVec.extractLsb'_eq_self]
  · rw [BitVec.extractLsb'_append_eq_of_le (by omega), BitVec.extractLsb'_append_eq_of_le (by omega),
      BitVec.extractLsb'_eq_self]

/-- A Score that travels to the staging registers is the Score they hold (`spec/42_save_buffer.md` R170). -/
@[simp] theorem stagingScore_loadStaging (sc : Score) (s : State) : stagingScore (loadStaging sc s) = sc := by
  obtain ⟨hday, hmonth, hyear⟩ := parts_packDate sc.day sc.month sc.year
  obtain ⟨h0, h1, h2, h3⟩ := extract_le32 sc.ini0 sc.ini1 sc.ini2 sc.ini3
  simp only [stagingScore, loadStaging_scDate, loadStaging_scValue, loadStaging_scInit, packInitials, hday, hmonth, hyear,
    h0, h1, h2, h3]

/-! ### Register lines -/

/-- A write to SC_DATE loads the date (R36). -/
theorem regWrite_SC_DATE (d m y : Byte) (s : State) :
    regWrite RegName.SC_DATE.number (dateValue d m y) s = { s with scDate := packDate d m y } := by
  rw [← extract_dateValue]
  rfl

/-- The three register writes of `score` load the staging registers with its operands (R96). -/
theorem regWrite_score (sc : Score) (s : State) :
    regWrite RegName.SC_INIT.number
        (sc.ini0.setWidth 32 + sc.ini1.setWidth 32 <<< 8 + sc.ini2.setWidth 32 <<< 16 + sc.ini3.setWidth 32 <<< 24)
        (regWrite RegName.SC_VALUE.number sc.value
          (regWrite RegName.SC_DATE.number (dateValue sc.day sc.month sc.year) s)) =
      loadStaging sc s := by
  rw [add_shifted_eq_le32, regWrite_SC_DATE]
  rfl

/-- A write to NOW loads the date (R33). -/
theorem regWrite_NOW (d m y : Byte) (s : State) :
    regWrite RegName.NOW.number (dateValue d m y) s = { s with now := packDate d m y } := by
  rw [← extract_dateValue]
  rfl

/-- A write to SV_HDR loads the header's date; bits 31:24 are ignored, so the count stays (R35). -/
theorem regWrite_SV_HDR (d m y : Byte) (s : State) :
    regWrite RegName.SV_HDR.number (dateValue d m y) s =
      { s with save := { s.save with hdr := { s.save.hdr with day := d, month := m, year := y } } } := by
  obtain ⟨hday, hmonth, hyear, -⟩ := extract_le32 d m y 0
  show s.setSave _ = s.setSave _
  rw [dateValue_eq_le32, hday, hmonth, hyear]

section
variable (reg : BitVec 6) (v : Word) (s : State)

/-- A register write leaves the queue alone. -/
theorem regWrite_inbox : (regWrite reg v s).inbox = s.inbox := by
  unfold regWrite
  split <;> rfl

/-- A register write does not look at the queue. -/
theorem regWrite_with_inbox (l : List Input) :
    { regWrite reg v s with inbox := l } = regWrite reg v { s with inbox := l } := by
  unfold regWrite
  split <;> rfl

/-- A register write leaves the sequencer's phase alone. -/
theorem regWrite_phase : (regWrite reg v s).seq.phase = s.seq.phase := by
  obtain ⟨-, -, -, hseq, -⟩ := regWrite_keeps reg v s
  rw [hseq]

end

/-- CMD alone has the number of CMD (R26). -/
theorem RegName.number_ne_cmdReg {reg : RegName} (h : reg ≠ .CMD) : reg.number ≠ cmdReg := by
  cases reg with
  | CMD => exact absurd rfl h
  | _ => decide

/-- An IDLE block takes the register lines of a listing one a step, each as a register write (R95). -/
theorem runSteps_wrInputs (writes : List (RegName × Word)) (hreg : ∀ w ∈ writes, w.1 ≠ .CMD)
    {s : State} {rest : List Input} (hidle : s.seq.phase = .idle)
    (hb : s.inbox = (writes.map fun w => wrInput w.1 w.2) ++ rest) :
    runSteps writes.length s =
      .next (writes.foldl (fun t w => regWrite w.1.number w.2 t) { s with inbox := rest }) := by
  induction writes generalizing s with
  | nil => rw [show rest = s.inbox from hb.symm]; rfl
  | cons w writes ih =>
    obtain ⟨hw, hwrites⟩ := List.forall_mem_cons.1 hreg
    have hstep := (step_idle_cons s _ _ hidle hb).trans (hostWrite_of_ne (RegName.number_ne_cmdReg hw))
    refine (runSteps_succ _ hstep).trans ((ih hwrites ?_ (regWrite_inbox _ _ _)).trans ?_)
    · exact (regWrite_phase _ _ _).trans hidle
    · rw [regWrite_with_inbox]
      rfl

end Sys2Proof.Machine

open Sys2Proof Sys2Proof.Machine

/-- Settles O45: the register lines a pseudo-instruction stands for, taken one a step. -/
theorem pseudoInstructionsLoadTheRegisters : Obligations.PseudoInstructionsLoadTheRegisters := by
  unfold Obligations.PseudoInstructionsLoadTheRegisters
  intro s rest d m y i0 i1 i2 i3 v hidle
  have hphase : s.seq.phase = .idle := by rw [hidle]; rfl
  refine ⟨fun hb => ?_, fun hb => ?_, fun hb => ?_⟩
  · have hrun := runSteps_wrInputs [(.SC_DATE, dateValue d m y), (.SC_VALUE, v), (.SC_INIT, _)] (by simp) hphase hb
    exact ⟨_, hrun.trans (congrArg _ (regWrite_score ⟨d, m, y, v, i0, i1, i2, i3⟩ _)), stagingScore_loadStaging _ _, rfl⟩
  · exact (runSteps_wrInputs [(.NOW, dateValue d m y)] (by simp) hphase hb).trans
      (congrArg _ (regWrite_NOW d m y _))
  · exact (runSteps_wrInputs [(.SV_HDR, dateValue d m y)] (by simp) hphase hb).trans
      (congrArg _ (regWrite_SV_HDR d m y _))
end

section
/-! PROOFS. The Checksum Engine's commands one by one (`spec/40_checksum.md` R111 to R116, R120; O6 to O11). -/

namespace Sys2Proof.Machine

/-! ### Command words written as opcode and shifted immediate -/

/-- The word of a command, its immediate shifted into place (`spec/30_encoding.md` R90). -/
theorem encode_eq_or (i : Instr) : encode i = (opcodeOf i).setWidth 32 ||| (immOf i).setWidth 32 <<< 8 := by
  refine BitVec.eq_of_getLsbD_eq fun k hk => ?_
  simp only [encode, BitVec.getLsbD_append, BitVec.getLsbD_or, BitVec.getLsbD_shiftLeft, BitVec.getLsbD_setWidth]
  by_cases h8 : k < 8
  · simp [h8, hk]
  · have hop : (opcodeOf i).getLsbD k = false := BitVec.getLsbD_of_ge _ k (Nat.not_lt.1 h8)
    by_cases h16 : k - 8 < 8
    · simp [h8, hk, hop, h16, show k - 8 < 32 by omega]
    · simp [h8, hk, hop, h16, BitVec.getLsbD_of_ge (immOf i) (k - 8) (Nat.not_lt.1 h16)]

/-- A command is decoded from its opcode and its shifted immediate. -/
theorem decode_or (i : Instr) : decode ((opcodeOf i).setWidth 32 ||| (immOf i).setWidth 32 <<< 8) = .command i :=
  decode_eq_command_iff.2 (encode_eq_or i)

/-! ### The packed sums -/

/-- The packed sums are `B` in the high half and `A` in the low half (R113). -/
theorem packSums_eq_append (a b : BitVec 16) : packSums a b = b ++ a := by
  refine BitVec.eq_of_getLsbD_eq fun i hi => ?_
  rw [getLsbD_packSums hi, BitVec.getLsbD_append]

/-- The packed sums as a number: no bit is lost (R120). -/
theorem packSums_toNat (a b : BitVec 16) : (packSums a b).toNat = b.toNat * 2 ^ 16 + a.toNat := by
  rw [packSums_eq_append, BitVec.toNat_append, ← Nat.shiftLeft_add_eq_or_of_lt a.isLt, Nat.shiftLeft_eq]

/-- Reduction modulo 65521 of a sum below twice the modulus is at most one subtraction (R120). -/
theorem mod_adlerModulus_of_lt {n : Nat} (h : n < 2 * adlerModulus) :
    n % adlerModulus = if adlerModulus ≤ n then n - adlerModulus else n := by
  split
  case isTrue hle => rw [Nat.mod_eq_sub_mod hle, Nat.mod_eq_of_lt (by omega)]
  case isFalse hlt => exact Nat.mod_eq_of_lt (Nat.not_le.1 hlt)

/-! ### The engine's operations -/

/-- The 128th byte of a chunk folds the sums that include it (R115). -/
theorem push_of_full {e : Engine} (d : Byte) (h : e.n.toNat = 127) :
    e.push d = { a := 1, b := 0, x := e.x ^^^ ((adlStep e.a e.b d).2 ++ (adlStep e.a e.b d).1), n := 0 } := by
  have hn : e.n = 127#7 := BitVec.eq_of_toNat_eq h
  rw [Engine.push, if_pos hn, Engine.fold, packSums_eq_append]
  rfl

/-- Any other byte goes into the sums and is counted (R115). -/
theorem push_of_not_full {e : Engine} (d : Byte) (h : e.n.toNat ≠ 127) :
    e.push d = { a := (adlStep e.a e.b d).1, b := (adlStep e.a e.b d).2, x := e.x, n := e.n + 1 } := by
  have hn : e.n ≠ 127#7 := fun heq => h (congrArg BitVec.toNat heq)
  exact if_neg hn

/-- Closing an open chunk folds it (R116). -/
theorem close_of_open {e : Engine} (h : e.n ≠ 0#7) :
    e.close = { a := 1, b := 0, x := e.x ^^^ (e.b ++ e.a), n := 0 } := by
  rw [Engine.close, if_pos h, Engine.fold, packSums_eq_append]

/-- With no open chunk closing changes nothing (R116). -/
theorem close_of_empty {e : Engine} (h : e.n = 0#7) : e.close = e := if_neg (not_not.2 h)

/-- A closed engine has no open chunk. -/
theorem close_n (e : Engine) : e.close.n = 0#7 := by
  by_cases h : e.n = 0#7
  · rw [close_of_empty h, h]
  · exact congrArg Engine.n (close_of_open h)

/-! ### Success in an IDLE block -/

/-- A command that succeeds in an IDLE block writes STATUS.ERR beside its own work (`spec/60_exceptions.md` R190). -/
theorem succeed_of_idle {s : State} (h : s.idle) : succeed s = .next { s with err := .success } :=
  congrArg _ (finish_of_idle s .success h)

/-- CK.END as one step: close, then deliver (R116). -/
theorem exec_ckEnd {s : State} (h : s.idle) :
    exec .ckEnd s = .next { s with ce := s.ce.close, result := s.ce.close.x, err := .success } :=
  succeed_of_idle (s := (s.setEngine s.ce.close).setResult s.ce.close.x) h

/-- ADL.VAL as one step (R113). -/
theorem exec_adlVal {s : State} (h : s.idle) :
    exec .adlVal s = .next { s with result := s.ce.b ++ s.ce.a, err := .success } := by
  rw [← packSums_eq_append]
  exact succeed_of_idle (s := s.setResult (packSums s.ce.a s.ce.b)) h

end Sys2Proof.Machine

open Sys2Proof Sys2Proof.Machine

/-- Settles O6: the meanings of both commands in an IDLE block. -/
theorem adlRstAndCkInitSetTheEngine : Obligations.AdlRstAndCkInitSetTheEngine := by
  unfold Obligations.AdlRstAndCkInitSetTheEngine
  refine ⟨decode_encode .adlRst, decode_encode .ckInit, fun s h => ⟨?_, ?_⟩⟩
  · exact succeed_of_idle (s := s.setEngine { s.ce with a := 1, b := 0 }) h
  · exact succeed_of_idle (s := s.setEngine Engine.init) h

/-- Settles O7: the two sums of AdlStep as numbers. -/
theorem adlByteTakesOneByte : Obligations.AdlByteTakesOneByte := by
  unfold Obligations.AdlByteTakesOneByte
  refine ⟨fun d => decode_or (.adlByte d), fun s d h => ?_⟩
  exact ⟨_, _, adlStep_fst_toNat s.ce.a s.ce.b d, adlStep_snd_toNat s.ce.a s.ce.b d,
    succeed_of_idle (s := s.setEngine (s.ce.addByte d)) h⟩

/-- Settles O8: both exact sums are below twice the modulus. -/
theorem reductionIsAtMostOneSubtraction : Obligations.ReductionIsAtMostOneSubtraction := by
  unfold Obligations.ReductionIsAtMostOneSubtraction
  intro e d he a' b'
  obtain ⟨ha, hb⟩ := he
  obtain ⟨ha', hb'⟩ : a' ≤ 65520 ∧ b' ≤ 65520 := addByte_inRange e d
  have hd := d.isLt
  have hfst : a' = _ := adlStep_fst_toNat e.a e.b d
  have hsnd : b' = _ := adlStep_snd_toNat e.a e.b d
  rw [mod_adlerModulus_of_lt (by rw [adlerModulus]; omega)] at hfst
  rw [mod_adlerModulus_of_lt (show e.b.toNat + a' < _ by rw [adlerModulus]; omega)] at hsnd
  exact ⟨by omega, by omega, hfst, hsnd, ha', hb', packSums_toNat e.a e.b⟩

/-- Settles O9: the packed sums are `B` over `A`; ADL.RST and reset leave `B = 0` and `A = 1`. -/
theorem adlValDeliversTheSums : Obligations.AdlValDeliversTheSums := by
  unfold Obligations.AdlValDeliversTheSums
  refine ⟨decode_encode .adlVal, fun s => exec_adlVal, fun s t _ ht => ?_, _, exec_adlVal rfl, rfl⟩
  cases ht
  exact ⟨_, exec_adlVal rfl, show (0#16 ++ 1#16 : Word) = 1#32 from rfl⟩

/-- Settles O10: the push by the count of the open chunk. -/
theorem ckPushFoldsTheFullChunk : Obligations.CkPushFoldsTheFullChunk := by
  unfold Obligations.CkPushFoldsTheFullChunk
  refine ⟨fun d => decode_or (.ckPush d), fun s d hidle => ?_⟩
  have hexec : exec (.ckPush d) s = .next { s with ce := s.ce.push d, err := .success } :=
    succeed_of_idle (s := s.setEngine (s.ce.push d)) hidle
  refine ⟨fun hn => by rw [hexec, push_of_full d hn], fun hn => ⟨s.ce.n + 1, ?_, by rw [hexec, push_of_not_full d hn]⟩⟩
  have := s.ce.n.isLt
  bv_omega

/-- Settles O11: the close by whether a chunk is open; a closed engine has none. -/
theorem ckEndClosesTheOpenChunk : Obligations.CkEndClosesTheOpenChunk := by
  unfold Obligations.CkEndClosesTheOpenChunk
  refine ⟨decode_encode .ckEnd, fun s hidle => ⟨fun hn => ?_, fun hn => ?_, fun t ht => ?_⟩⟩
  · rw [exec_ckEnd hidle, close_of_open hn]
  · rw [exec_ckEnd hidle, close_of_empty hn]
  · rw [exec_ckEnd hidle] at ht
    cases ht
    have hagain := exec_ckEnd (s := { s with ce := s.ce.close, result := s.ce.close.x, err := .success }) hidle
    rwa [close_of_empty (close_n s.ce)] at hagain
end

section
/-! PROOFS. A checksum fed byte by byte from the host (`spec/40_checksum.md` R124, R125; O12, O13): one command opens it, one
takes each byte, one delivers it, and events that are no Checksum Engine work may come in between. -/

namespace Sys2Proof.Machine

/-! ### Events that are no Checksum Engine work -/

section
variable {s t : State}

/-- A save-buffer command leaves the engine alone. -/
theorem Effect.ce_of_outsideEngine {i : Instr} (h : Effect s i t) (hi : outsideEngine i = true) : t.ce = s.ce := by
  cases h with
  | failed => rfl
  | svAppend => rfl
  | svNew n => rfl
  | svInit n => rfl
  | scGet idx => rfl
  | scPut idx => rfl
  | _ => cases hi

/-- A write to CMD that is no Checksum Engine work leaves the engine and the queue alone and ends at once. -/
theorem issueCommand_outsideEngine {w : Word} (hw : (Input.hostWrite cmdReg w).outsideEngine = true)
    (h : issueCommand w s = .next t) : t.idle ∧ t.inbox = s.inbox ∧ t.ce = s.ce := by
  rcases issueCommand_cases w s with ⟨i, hdec, he⟩ | ⟨why, -, he⟩ <;> rw [he] at h
  · obtain ⟨-, -, -, -, hinbox, hidle⟩ := exec_keeps i s t h
    have hi : outsideEngine i = true := by simpa [Input.outsideEngine, hdec] using hw
    exact ⟨hidle, hinbox, (exec_eq_next_iff.1 h).ce_of_outsideEngine hi⟩
  · cases h
    exact ⟨rfl, rfl, rfl⟩

/-- An IDLE block that takes an event which is no Checksum Engine work is IDLE again, with the engine and the queue as
they were. -/
theorem takeWhenIdle_outsideEngine {ev : Input} (hidle : s.idle) (hev : ev.outsideEngine = true)
    (h : takeWhenIdle ev s = .next t) : t.idle ∧ t.inbox = s.inbox ∧ t.ce = s.ce := by
  rcases takeWhenIdle_cases ev s t h with
    ⟨w, rfl, hw⟩ | ⟨reg, v, -, -, rfl⟩ | ⟨reg, -, rfl⟩ | ⟨w, rfl, -⟩ | ⟨rfl, -⟩ | ⟨act, -, rfl⟩ | ⟨-, rfl⟩
  · exact issueCommand_outsideEngine hev hw
  · obtain ⟨-, -, hce, hseq, -⟩ := regWrite_keeps reg v s
    exact ⟨hseq.trans hidle, regWrite_inbox reg v s, hce⟩
  · exact ⟨hidle, rfl, rfl⟩
  · cases hev
  · cases hev
  · exact ⟨hidle, rfl, rfl⟩
  · exact ⟨hidle, rfl, rfl⟩

/-- A command's word at the head of the queue of an IDLE block is executed in the next step (`spec/10_state.md` R27). -/
theorem step_commandInput {i : Instr} {rest : List Input} (hidle : s.idle) (hb : s.inbox = commandInput i :: rest) :
    step s = exec i { s with inbox := rest } := by
  have hphase : s.seq.phase = .idle := by rw [hidle]; rfl
  rw [step_idle_cons s _ rest hphase hb, commandInput, takeWhenIdle, hostWrite,
    if_pos (show RegName.CMD.number = cmdReg from rfl), issueCommand, decode_encode]

end

/-! ### A checksum fed from the host -/

/-- The three commands of a checksum fed from the host, and what each does to the engine. -/
structure HostFed where
  opening : Instr
  feed : Byte → Instr
  delivery : Instr
  start : Engine → Engine
  take : Engine → Byte → Engine
  close : Engine → Engine
  value : Engine → Word
  exec_opening : ∀ s, exec opening s = succeed (s.setEngine (start s.ce))
  exec_feed : ∀ d s, exec (feed d) s = succeed (s.setEngine (take s.ce d))
  exec_delivery : ∀ s, exec delivery s = succeed ((s.setEngine (close s.ce)).setResult (value (close s.ce)))

/-- `adl.rst`, bytes by `adl.byte`, `adl.val` (R124). -/
def adlFed : HostFed where
  opening := .adlRst
  feed := .adlByte
  delivery := .adlVal
  start e := { e with a := 1, b := 0 }
  take := Engine.addByte
  close e := e
  value e := packSums e.a e.b
  exec_opening _ := rfl
  exec_feed _ _ := rfl
  exec_delivery _ := rfl

/-- `ck.init`, bytes by `ck.push`, `ck.end` (R125). -/
def ckFed : HostFed where
  opening := .ckInit
  feed := .ckPush
  delivery := .ckEnd
  start _ := Engine.init
  take := Engine.push
  close := Engine.close
  value := Engine.x
  exec_opening _ := rfl
  exec_feed _ _ := rfl
  exec_delivery _ := rfl

/-- An IDLE block in the middle of such a checksum, with nothing else changed: the engine `e`, the last command a success. -/
def State.fed (s : State) (e : Engine) (queue : List Input) : State :=
  { s with ce := e, err := .success, inbox := queue }

namespace HostFed
variable (F : HostFed) {s t : State} {rest : List Input}

/-- The engine once the checksum has been opened and has taken some bytes. -/
def engineAfter (e : Engine) (bytes : List Byte) : Engine := bytes.foldl F.take (F.start e)

/-- The bytes alone: each goes into the engine, and nothing else changes. -/
theorem run_bytes (bytes : List Byte) (e : Engine) (hidle : s.idle) :
    runSteps bytes.length (s.fed e (bytes.map (fun d => commandInput (F.feed d)) ++ rest)) =
      .next (s.fed (bytes.foldl F.take e) rest) := by
  induction bytes generalizing e with
  | nil => rfl
  | cons d bytes ih =>
    refine (runSteps_succ _ ?_).trans (ih (F.take e d))
    exact (step_commandInput (s := s.fed e _) hidle rfl).trans ((F.exec_feed d _).trans (succeed_of_idle hidle))

/-- The bytes with other events in between: the engine takes the bytes and nothing else. -/
theorem run_interleaved (events : List (Input ⊕ Byte)) (hidle : s.idle)
    (hev : ∀ ev : Input, .inl ev ∈ events → ev.outsideEngine = true)
    (hb : s.inbox = interleaved F.feed events ++ rest) :
    ∃ t, runSteps events.length s = .next t ∧ t.idle ∧ t.inbox = rest ∧
      t.ce = (bytesFed events).foldl F.take s.ce := by
  induction events generalizing s with
  | nil => exact ⟨s, rfl, hidle, hb, rfl⟩
  | cons event events ih =>
    have hev' : ∀ ev : Input, .inl ev ∈ events → ev.outsideEngine = true :=
      fun ev h => hev ev (List.mem_cons_of_mem _ h)
    cases event with
    | inl ev =>
      have hphase : s.seq.phase = .idle := by rw [hidle]; rfl
      let queued : State := { s with inbox := interleaved F.feed events ++ rest }
      obtain ⟨u, hu, -⟩ := takeWhenIdle_next ev queued
      obtain ⟨huidle, hub, huce⟩ :=
        takeWhenIdle_outsideEngine (s := queued) hidle (hev ev (List.mem_cons_self ..)) hu
      obtain ⟨t, ht, htidle, htb, htce⟩ := ih huidle hev' hub
      exact ⟨t, (runSteps_succ _ ((step_idle_cons s ev _ hphase hb).trans hu)).trans ht, htidle, htb,
        by rw [htce, huce]; rfl⟩
    | inr d =>
      have hstep : step s = .next (s.fed (F.take s.ce d) (interleaved F.feed events ++ rest)) :=
        (step_commandInput hidle hb).trans ((F.exec_feed d _).trans (succeed_of_idle hidle))
      obtain ⟨t, ht, htidle, htb, htce⟩ := ih (s := s.fed (F.take s.ce d) _) hidle hev' rfl
      exact ⟨t, (runSteps_succ _ hstep).trans ht, htidle, htb, htce⟩

/-- The whole checksum: the opening command, `n` steps that lead to `t`, and the delivery. -/
theorem run_whole {n : Nat} {mid : List Input} (hidle : s.idle) (hb : s.inbox = commandInput F.opening :: mid)
    (hmid : runSteps n (s.fed (F.start s.ce) mid) = .next t) (ht : t.idle)
    (htb : t.inbox = commandInput F.delivery :: rest) :
    runSteps (n + 2) s = .next
      { t with inbox := rest, ce := F.close t.ce, result := F.value (F.close t.ce), err := .success } := by
  have hopen : step s = .next (s.fed (F.start s.ce) mid) :=
    (step_commandInput hidle hb).trans ((F.exec_opening _).trans (succeed_of_idle hidle))
  have hdeliver := (step_commandInput ht htb).trans ((F.exec_delivery _).trans (succeed_of_idle ht))
  calc runSteps (n + 2) s
      = runSteps (n + 1) (s.fed (F.start s.ce) mid) := runSteps_succ (n + 1) hopen
    _ = runSteps 1 t := runSteps_add n 1 _ t hmid
    _ = _ := runSteps_succ 0 hdeliver

/-- The checksum of some bytes with nothing in between. -/
theorem run_alone (bytes : List Byte) (hidle : s.idle)
    (hb : s.inbox = commandInput F.opening ::
      (bytes.map (fun d => commandInput (F.feed d)) ++ commandInput F.delivery :: rest)) :
    runSteps (bytes.length + 2) s = .next
      { s with inbox := rest, ce := F.close (F.engineAfter s.ce bytes),
               result := F.value (F.close (F.engineAfter s.ce bytes)), err := .success } :=
  F.run_whole hidle hb (F.run_bytes bytes _ hidle) hidle rfl

/-- The checksum of some bytes with other events in between. -/
theorem run_with_events (events : List (Input ⊕ Byte)) (hidle : s.idle)
    (hev : ∀ ev : Input, .inl ev ∈ events → ev.outsideEngine = true)
    (hb : s.inbox = commandInput F.opening :: (interleaved F.feed events ++ commandInput F.delivery :: rest)) :
    ∃ t, runSteps (events.length + 2) s = .next t ∧ t.idle ∧ t.inbox = rest ∧ t.err = .success ∧
      t.ce = F.close (F.engineAfter s.ce (bytesFed events)) ∧ t.result = F.value t.ce := by
  obtain ⟨t, hrun, ht, htb, htce⟩ := F.run_interleaved events
    (s := s.fed (F.start s.ce) (interleaved F.feed events ++ commandInput F.delivery :: rest)) hidle hev rfl
  exact ⟨_, F.run_whole hidle hb hrun ht htb, ht, rfl, rfl, congrArg F.close htce, rfl⟩

end HostFed

/-- The accesses of a line between two commands (`spec/30_encoding.md` R95). -/
theorem listing_line (first last : Instr) (line : Line) (rest : List Input) :
    listing [.command first, line, .command last] ++ rest =
      commandInput first :: (line.expand ++ commandInput last :: rest) := by
  simp [listing, Line.expand]

/-! ### What the two checksums deliver -/

/-- A run of ADL.BYTE takes the bytes into the sums and leaves `X` and `N` alone. -/
theorem foldl_addByte (bytes : List Byte) (e : Engine) :
    bytes.foldl Engine.addByte e =
      { e with a := (sumsFrom (e.a, e.b) bytes).1, b := (sumsFrom (e.a, e.b) bytes).2 } := by
  induction bytes generalizing e with
  | nil => rfl
  | cons d bytes ih => exact ih (e.addByte d)

/-- The engine of an Adl32 fed from the host. -/
theorem adlFed_engineAfter (e : Engine) (bytes : List Byte) :
    adlFed.engineAfter e bytes =
      { e with a := (sumsFrom (1#16, 0#16) bytes).1, b := (sumsFrom (1#16, 0#16) bytes).2 } :=
  foldl_addByte bytes _

/-- Adl32 is the two sums side by side. -/
theorem adl32_eq_append (bytes : List Byte) :
    adl32 bytes = (sumsFrom (1#16, 0#16) bytes).2 ++ (sumsFrom (1#16, 0#16) bytes).1 := by
  rw [adl32_eq, packSums_eq_append]

/-- The engine of a FileSum fed from the host, once it is closed. -/
theorem ckFed_close (e : Engine) (bytes : List Byte) :
    ckFed.close (ckFed.engineAfter e bytes) = Engine.done (fileSum bytes) :=
  close_foldl_push_init bytes

end Sys2Proof.Machine

open Sys2Proof Sys2Proof.Machine

/-- Settles O12: the engine takes the bytes one by one, and the sums side by side are Adl32. -/
theorem adlSequenceGivesAdl32 : Obligations.AdlSequenceGivesAdl32 := by
  unfold Obligations.AdlSequenceGivesAdl32
  refine ⟨fun s bytes rest hidle hb => ?_, fun s events rest hidle hev hb => ?_⟩
  · have hrun := adlFed.run_alone bytes (rest := rest) hidle (hb.trans (listing_line ..))
    rw [adlFed_engineAfter] at hrun
    exact ⟨_, _, (adl32_eq_append bytes).symm, hrun⟩
  · obtain ⟨t, hrun, ht, htb, hterr, htce, htres⟩ := adlFed.run_with_events events hidle hev hb
    rw [adlFed_engineAfter] at htce
    rw [htce] at htres
    refine ⟨t, hrun, ht, htb, hterr, htres, ?_⟩
    rw [htce, adl32_eq_append]
    exact ⟨rfl, rfl, rfl⟩

/-- Settles O13: the engine folds at the piece boundaries, so closing it leaves FileSum in `X`. -/
theorem ckSequenceGivesFileSum : Obligations.CkSequenceGivesFileSum := by
  unfold Obligations.CkSequenceGivesFileSum
  refine ⟨fun s bytes rest hidle hb => ?_, fun s events rest hidle hev hb => ?_⟩
  · have hrun := ckFed.run_alone bytes (rest := rest) hidle (hb.trans (listing_line ..))
    rwa [ckFed_close] at hrun
  · obtain ⟨t, hrun, ht, htb, hterr, htce, htres⟩ := ckFed.run_with_events events hidle hev hb
    rw [ckFed_close] at htce
    exact ⟨t, hrun, ht, htb, hterr, by rw [htres, htce]; rfl, htce⟩
end

section
/-! PROOFS. FileSum against Adl32 (`spec/40_checksum.md` R122; O14) and the checksum of a file (R117 to R119; O15, O16). -/

namespace Sys2Proof.Machine

/-! ### The file checksum procedure -/

/-- The pass of FS.CSUM and SV.WRITE computes FileSum of the file as it stands (R117, R118). -/
theorem fileChecksum_false (fs : FileStore) : fileChecksum false fs = Engine.done (fileSum fs.bytes) := by
  rw [fileChecksum_eq_foldl, map_passByte_false, close_foldl_push_init]

/-- FS.CSUM and FS.CSUMZ in an IDLE block with a file (R118, R119). -/
theorem sumFile_of_present {s : State} (hidle : s.idle) (hpres : s.fs.present = true) (z : Bool) :
    sumFile z s = .next { s with ce := fileChecksum z s.fs, result := (fileChecksum z s.fs).x, err := .success } :=
  (if_neg (by simp [hpres])).trans
    (succeed_of_idle (s := (s.setEngine (fileChecksum z s.fs)).setResult (fileChecksum z s.fs).x) hidle)

/-- With no file a pass does not begin: IoError at once (R118, R119). -/
theorem beginPass_of_absent {s : State} (op : PassOp) (h : s.fs.present = false) :
    beginPass op s = .next (finish .ioError s) := if_pos h

/-! ### Short files -/

/-- A file no longer than the checksum field is all zeros to a pass that zeroes the field (R119). -/
theorem zeroHead_of_short {bytes : List Byte} (h : bytes.length ≤ cksumLen) :
    zeroHead bytes = List.replicate bytes.length 0 := by
  rw [zeroHead, Nat.min_eq_right h, List.drop_eq_nil_of_le h, List.append_nil]

/-- The empty file has the checksum 1, zeroed or not. -/
theorem fileSum_of_length_zero {bytes : List Byte} (h : bytes.length = 0) :
    fileSum bytes = 1#32 ∧ fileSum (zeroHead bytes) = 1#32 := by
  rw [List.length_eq_zero_iff.1 h]
  exact ⟨rfl, rfl⟩

/-- The sum `B` alone counts zero bytes, so a file of 1 to 3 bytes gives its length in the high half (R119). -/
theorem fileSum_zeroHead_of_short {bytes : List Byte} (h1 : 1 ≤ bytes.length) (h3 : bytes.length ≤ 3) :
    fileSum (zeroHead bytes) = BitVec.ofNat 32 bytes.length <<< 16 := by
  rw [zeroHead_of_short (by rw [cksumLen]; omega)]
  obtain h | h | h : bytes.length = 1 ∨ bytes.length = 2 ∨ bytes.length = 3 := by omega
  · rw [h]; rfl
  · rw [h]; rfl
  · rw [h]; rfl

/-! ### The file SV.WRITE leaves -/

/-- Overwriting the first bytes of a file leaves the others (`spec/00_scope.md` R17). -/
theorem bytes_writeBytes_head (fs : FileStore) (h : fs.data.wf) (bs : List Byte) (hl : bs.length ≤ fs.len) :
    (fs.writeBytes 0 bs).bytes = bs ++ fs.bytes.drop bs.length := by
  have hlen : (fs.writeBytes 0 bs).len = fs.len := by rw [writeBytes_len _ _ _ (Nat.zero_le _)]; omega
  refine List.ext_getElem? fun i => ?_
  rw [FileStore.bytes, readBytes_getElem?, hlen, Nat.zero_add, byteAt_writeBytes fs h, FileStore.bytes,
    List.getElem?_append, List.getElem?_drop, readBytes_getElem?]
  by_cases hi : i < bs.length
  · simp [hi, show i < fs.len by omega]
  · simp [hi, show bs.length + (i - bs.length) = i by omega]

section
variable {s : State} (hwf : s.fs.data.wf)
include hwf

/-- Ser(SV) is written in the canonical form. -/
theorem serStore_wf : (serStore s).data.wf := writeBytes_wf s.fs.createTrunc hwf 0 _

/-- Before its checksum pass SV.WRITE has written Ser(SV) (`spec/41_marshaller.md` R145). -/
theorem serStore_bytes : (serStore s).bytes = ser s.cfg s.save :=
  bytes_writeBytes s.fs.createTrunc hwf _ (Nat.zero_le _)

/-- SV.WRITE seals Ser(SV) with its FileSum. -/
theorem fileChecksum_serStore : (fileChecksum false (serStore s)).x = fileSum (ser s.cfg s.save) := by
  rw [fileChecksum_false, serStore_bytes hwf]
  rfl

/-- After SV.WRITE the file is the image of the Save (R142). -/
theorem sealedState_bytes :
    (sealedState s (fileChecksum false (serStore s))).fs.bytes = image s.cfg s.save := by
  have hroom : (leBytes (fileChecksum false (serStore s)).x).length ≤ (serStore s).len := by
    rw [serStore_len, fileLen_eq, leBytes_length]
    omega
  have hfs : (sealedState s (fileChecksum false (serStore s))).fs =
      (serStore s).writeBytes 0 (leBytes (fileChecksum false (serStore s)).x) := rfl
  rw [hfs, bytes_writeBytes_head _ (serStore_wf hwf) _ hroom, leBytes_length, fileChecksum_serStore hwf,
    serStore_bytes hwf, image, cksumLen]

/-- A successful SV.WRITE: the file is present and the image of the Save, whose checksum is stored (R142). -/
theorem exec_svWrite_file (hwr : s.fs.wrOk = true) :
    ∃ t, exec .svWrite s = .next t ∧ t.idle ∧ t.err = .success ∧ t.fs.present = true ∧
      t.fs.bytes = image s.cfg s.save ∧ t.save.hdr.cksum = fileSum (ser s.cfg s.save) := by
  refine ⟨_, (Effect.svWrite hwr).exec_eq, rfl, rfl, ?_, sealedState_bytes hwf, ?_⟩
  · exact (writeBytes_present ..).trans (writeBytes_present ..)
  · rw [sealedState_save]
    exact fileChecksum_serStore hwf

end

end Sys2Proof.Machine

open Sys2Proof Sys2Proof.Machine

/-- Settles O14: one piece is xored into the seed 1; over 129 bytes the `B` of the single pass runs on where FileSum starts
again. -/
theorem oneChunkDiffersFromTheSinglePassByTheSeed : Obligations.OneChunkDiffersFromTheSinglePassByTheSeed := by
  unfold Obligations.OneChunkDiffersFromTheSinglePassByTheSeed
  refine ⟨fun bytes h1 h128 => ?_, rfl, rfl, List.replicate 129 0xFF, List.length_replicate, ?_⟩
  · rw [fileSum_of_le bytes (List.ne_nil_of_length_pos h1) h128, BitVec.xor_comm]
  · decide +kernel

/-- Settles O15: a pass is a run of pushes over the file's bytes, its first four zeroed or not. -/
theorem fileChecksumIsFileSumOfTheFile : Obligations.FileChecksumIsFileSumOfTheFile := by
  unfold Obligations.FileChecksumIsFileSumOfTheFile
  intro z fs
  cases z with
  | false => exact fileChecksum_false fs
  | true => exact fileChecksum_true fs

/-- Settles O16: the file checksum of the file's bytes; the image with its field zeroed is Ser(SV), whose FileSum SV.WRITE has
stored; and the image of the empty Save of the reset state, its field not zeroed, sums to another value. -/
theorem fsCsumAndFsCsumzSumTheFile : Obligations.FsCsumAndFsCsumzSumTheFile := by
  unfold Obligations.FsCsumAndFsCsumzSumTheFile
  refine ⟨decode_encode .fsCsum, decode_encode .fsCsumz, fun s hidle habsent => ?_, fun s hidle hpres => ?_,
    fun s hlen => ?_, fun s h1 h3 => ?_, fun s t hwr hwf ht => ?_, ?_, fun s t k habsent hbegin => ?_⟩
  · rw [← finish_of_idle s .ioError hidle]
    exact ⟨(Fails.noFile (by simp) habsent).exec_eq, (Fails.noFile (by simp) habsent).exec_eq⟩
  · have hcsum := sumFile_of_present hidle hpres false
    have hcsumz := sumFile_of_present hidle hpres true
    rw [fileChecksum_false] at hcsum
    rw [fileChecksum_true] at hcsumz
    exact ⟨hcsum, hcsumz⟩
  · exact fileSum_of_length_zero ((bytes_length s.fs).trans hlen)
  · rw [← bytes_length] at h1 h3
    rw [fileSum_zeroHead_of_short h1 h3, bytes_length]
  · obtain ⟨t', ht', hidle, -, hpres, hbytes, hcksum⟩ := exec_svWrite_file hwf hwr
    cases ht.symm.trans ht'
    refine ⟨_, sumFile_of_present hidle hpres true, rfl, ?_⟩
    rw [hcksum, ← zeroHead_image, ← hbytes, fileChecksum_true]
    rfl
  · obtain ⟨t, ht, hidle, herr, hpres, hbytes, hcksum⟩ := exec_svWrite_file (s := State.reset) (by decide) rfl
    refine ⟨State.reset, t, _, ht, herr, sumFile_of_present hidle hpres false, rfl, ?_⟩
    show (fileChecksum false t.fs).x ≠ _
    rw [fileChecksum_false, hbytes, hcksum]
    decide
  · have ht : t = finish .ioError s := by
      rcases hbegin with h | h
      · cases (beginPass_of_absent .csum habsent).symm.trans h; rfl
      · cases (beginPass_of_absent .csumz habsent).symm.trans h; rfl
    rw [ht]
    exact ⟨rfl, (seqRun_of_idle k _ rfl).1⟩
end

section
/-! PROOFS. The marshaller commands as one step: SV.WRITE (O18), SV.READ (O19), SV.VERIFY (O20), and SV.READ of what SV.WRITE
has written (O23). -/

namespace Sys2Proof.Machine

/-! ### SV.WRITE -/

/-- The checksum field of the serialised Save is zero already (`spec/20_memory.md` R65). -/
theorem zeroHead_ser (c : Config) (sv : Save) : zeroHead (ser c sv) = ser c sv := by
  have hlen : min cksumLen (ser c sv).length = 4 := by
    rw [ser_length, fileLen_eq, cksumLen]
    omega
  rw [zeroHead, hlen]
  rfl

/-- The store a successful SV.WRITE leaves: Ser(SV) sealed with its FileSum (`spec/41_marshaller.md` R142). -/
def sealedStore (s : State) : FileStore := (serStore s).writeBytes 0 (leBytes (fileSum (ser s.cfg s.save)))

theorem sealedStore_present (s : State) : (sealedStore s).present = true :=
  (writeBytes_present ..).trans (writeBytes_present ..)

theorem sealedStore_wrOk (s : State) : (sealedStore s).wrOk = s.fs.wrOk :=
  (writeBytes_wrOk ..).trans (writeBytes_wrOk ..)

/-- Sealing overwrites the first four bytes and grows nothing. -/
theorem sealedStore_len (s : State) : (sealedStore s).len = s.cfg.fileLen s.save.hdr.count.toNat := by
  rw [sealedStore, writeBytes_len _ _ _ (Nat.zero_le _), serStore_len, leBytes_length, fileLen_eq]
  omega

section
variable {s : State} (hwf : s.fs.data.wf)
include hwf

/-- The engine after the checksum pass of SV.WRITE. -/
theorem fileChecksum_serStore_eq_done :
    fileChecksum false (serStore s) = Engine.done (fileSum (ser s.cfg s.save)) := by
  rw [fileChecksum_false, serStore_bytes hwf]

/-- The sealed file is the image of the Save (R142). -/
theorem sealedStore_bytes : (sealedStore s).bytes = image s.cfg s.save := by
  rw [← sealedState_bytes hwf, sealedStore, ← fileChecksum_serStore hwf]
  rfl

/-- SV.WRITE writes no byte past the image. -/
theorem sealedStore_byteAt_of_le {off : Nat} (h : s.cfg.fileLen s.save.hdr.count.toNat ≤ off) :
    (sealedStore s).byteAt off = s.fs.byteAt off := by
  have hser : ¬(0 ≤ off ∧ off < 0 + (ser s.cfg s.save).length) := by
    rw [ser_length]
    omega
  have hhead : ¬(0 ≤ off ∧ off < 0 + (leBytes (fileSum (ser s.cfg s.save))).length) := by
    rw [fileLen_eq] at h
    rw [leBytes_length]
    omega
  rw [sealedStore, byteAt_writeBytes _ (serStore_wf hwf), if_neg hhead, serStore,
    byteAt_writeBytes s.fs.createTrunc hwf, if_neg hser, createTrunc_byteAt]

/-- SV.WRITE into a writable store, in an IDLE block (R142). -/
theorem exec_svWrite (hidle : s.idle) (hwr : s.fs.wrOk = true) :
    exec .svWrite s = .next
      { s with fs := sealedStore s, ce := Engine.done (fileSum (ser s.cfg s.save)),
               save := { s.save with hdr := { s.save.hdr with cksum := fileSum (ser s.cfg s.save) } },
               result := fileSum (ser s.cfg s.save), err := .success } := by
  rw [(Effect.svWrite hwr).exec_eq, fileChecksum_serStore_eq_done hwf, sealedState, finish_of_idle]
  · rfl
  · exact hidle

end

/-! ### SV.READ -/

section
variable {s : State}

/-- A command that fails in an IDLE block writes STATUS.ERR alone (`spec/60_exceptions.md` R193). -/
theorem Fails.exec_of_idle {i : Instr} {code : ResultCode} (h : Fails s i code) (hidle : s.idle) :
    exec i s = .next { s with err := code } := by
  rw [h.exec_eq, finish_of_idle s code hidle]

/-- The length SV.READ asks of a file, by the count byte at offset 7 (`spec/20_memory.md` R64). -/
theorem fileLen_fileHeader (h8 : headerLen ≤ s.fs.len) :
    s.cfg.fileLen (fileHeader s).count.toNat = 8 + s.cfg.recLen * (s.fs.byteAt 7).toNat := by
  rw [fileHeader_count h8, fileLen_eq]

section
variable {h : Header} {scores : List Score} (hparse : parse s.cfg s.fs.bytes = some (h, scores))
include hparse

/-- A file that Parse takes is one SV.READ finds whole, with the same header. -/
theorem holdsWholeFile_of_parse (hpres : s.fs.present = true) : s.holdsWholeFile ∧ fileHeader s = h := by
  obtain ⟨hh, h8, hwhole⟩ := parse_eq_some hparse
  rw [bytes_length] at h8 hwhole
  rw [← fileHeader_eq h8] at hh hwhole
  exact ⟨⟨hpres, h8, hwhole⟩, hh⟩

/-- The scores Parse answers are as many as the count byte says, and they are what the commit of SV.READ puts into the slots
below the count; the other slots keep what they held (`spec/41_marshaller.md` R143). -/
theorem slot_loadedSave_of_parse :
    scores.length = (s.fs.byteAt 7).toNat ∧
      ∀ j, (loadedSave s).slot j = if j < scores.length then scores.getD j Score.blank else s.save.slot j := by
  obtain ⟨-, h8, hwhole⟩ := parse_eq_some hparse
  rw [bytes_length] at h8 hwhole
  rw [(headerOfBytes_readBytes s.fs h8).2] at hwhole
  cases (parse_bytes s.cfg s.fs h8 hwhole).symm.trans hparse
  have hcount : (s.fs.byteAt 7).toNat ≤ 255 := Nat.le_of_lt_succ (s.fs.byteAt 7).isLt
  refine ⟨by simp, fun j => ?_⟩
  rw [loadedSave, fileHeader_count h8, slot_loadRecords _ _ _ hcount, List.length_map, List.length_range]
  by_cases hj : j < (s.fs.byteAt 7).toNat
  · simp [hj]
  · simp only [if_neg hj]
    rfl

/-- SV.READ of a parsed file whose checksum is not the stored one, in an IDLE block: TamperError (R143). -/
theorem exec_svRead_tampered (hidle : s.idle) (hpres : s.fs.present = true)
    (hsum : fileSum (zeroHead s.fs.bytes) ≠ h.cksum) :
    exec .svRead s = .next
      { s with ce := Engine.done (fileSum (zeroHead s.fs.bytes)), result := fileSum (zeroHead s.fs.bytes),
               tamper := true, err := .tamperError } := by
  obtain ⟨hfile, rfl⟩ := holdsWholeFile_of_parse hparse hpres
  have ht : tampered (fileChecksum true s.fs).x (fileHeader s).cksum = true := by
    rw [fileChecksum_true]
    exact tampered_iff.2 hsum
  rw [(Effect.svReadTampered hfile ht).exec_eq, verifiedState, ht, fileChecksum_true, finish_of_idle]
  · rfl
  · exact hidle

/-- SV.READ of a parsed file whose checksum is the stored one, in an IDLE block: the Save is committed (R143). -/
theorem exec_svRead_sealed (hidle : s.idle) (hpres : s.fs.present = true)
    (hsum : fileSum (zeroHead s.fs.bytes) = h.cksum) :
    exec .svRead s = .next
      { s with ce := Engine.done (fileSum (zeroHead s.fs.bytes)), result := fileSum (zeroHead s.fs.bytes),
               tamper := false, err := .success, save := { hdr := h, slots := (loadedSave s).slots } } := by
  obtain ⟨hfile, rfl⟩ := holdsWholeFile_of_parse hparse hpres
  have ht : tampered (fileChecksum true s.fs).x (fileHeader s).cksum = false := by
    rw [fileChecksum_true]
    exact Bool.eq_false_iff.2 fun hne => tampered_iff.1 hne hsum
  have hsave : loadedSave s = { hdr := fileHeader s, slots := (loadedSave s).slots } := by rw [← loadedSave_hdr]
  rw [(Effect.svReadSealed hfile ht).exec_eq, verifiedState, ht, fileChecksum_true, finish_of_idle, ← hsave]
  · rfl
  · exact hidle

end

/-! ### SV.READ of what SV.WRITE has written -/

/-- SV.WRITE leaves the slots alone (R142). -/
theorem Effect.slots_svWrite {t : State} (h : Effect s .svWrite t) : t.save.slots = s.save.slots := by
  cases h with
  | failed => rfl
  | svWrite => simp

/-- SV.READ of the image of a Save brings the Save back (`spec/41_marshaller.md` R146). -/
theorem exec_svRead_image {sv : Save} (hidle : s.idle) (hpres : s.fs.present = true)
    (hbytes : s.fs.bytes = image s.cfg sv) :
    ∃ t, exec .svRead s = .next t ∧ t.err = .success ∧ t.tamper = false ∧
      t.save.hdr = { sv.hdr with cksum := fileSum (ser s.cfg sv) } ∧
      ∀ j, t.save.slot j = if j < sv.hdr.count.toNat then (sv.slot j).asReadBack s.cfg else s.save.slot j := by
  have hparse := parse_image s.cfg sv
  rw [← hbytes] at hparse
  have hsum : fileSum (zeroHead s.fs.bytes) = fileSum (ser s.cfg sv) := by rw [hbytes, zeroHead_image]
  refine ⟨_, exec_svRead_sealed hparse hidle hpres hsum, rfl, rfl, rfl, fun j => ?_⟩
  refine ((slot_loadedSave_of_parse hparse).2 j).trans ?_
  rw [List.length_map, List.length_range]
  by_cases hj : j < sv.hdr.count.toNat
  · simp [hj]
  · simp only [if_neg hj]

end

end Sys2Proof.Machine

open Sys2Proof Sys2Proof.Machine

/-- Settles O18: SV.WRITE fails before it has written anything, or leaves the sealed store, whose parts are each known. -/
theorem svWriteLeavesTheSealedImage : Obligations.SvWriteLeavesTheSealedImage := by
  unfold Obligations.SvWriteLeavesTheSealedImage
  refine ⟨decode_encode .svWrite, fun s hidle hro => (Fails.notWritable hro).exec_of_idle hidle,
    fun s hidle hwr hwf => ?_, zeroHead_ser⟩
  exact ⟨sealedStore s, exec_svWrite hwf hidle hwr, sealedStore_bytes hwf, sealedStore_present s,
    (sealedStore_wrOk s).trans hwr, sealedStore_len s, fun off h => sealedStore_byteAt_of_le hwf h⟩

/-- Settles O19: SV.READ fails on no file or a short one; a whole one is parsed, and the two checksums decide. -/
theorem svReadParsesOnlyAWholeSealedFile : Obligations.SvReadParsesOnlyAWholeSealedFile := by
  unfold Obligations.SvReadParsesOnlyAWholeSealedFile
  refine ⟨decode_encode .svRead, fun s hidle => ⟨fun habsent => ?_, fun hpres hshort => ?_, fun hpres h8 hwhole => ?_⟩⟩
  · exact (Fails.noFile (by simp) habsent).exec_of_idle hidle
  · refine (Fails.shortFile hpres ?_).exec_of_idle hidle
    by_cases h8 : s.fs.len < headerLen
    · exact .inl h8
    · rw [fileLen_fileHeader (Nat.not_lt.1 h8)]
      exact .inr (hshort.resolve_left h8)
  · have hparse := parse_bytes s.cfg s.fs h8 hwhole
    obtain ⟨hlen, hslots⟩ := slot_loadedSave_of_parse hparse
    exact ⟨_, _, hparse, hlen, exec_svRead_tampered hparse hidle hpres,
      fun hsum => ⟨_, exec_svRead_sealed hparse hidle hpres hsum, fun j _ => hslots j⟩⟩

/-- Settles O20: with a file SV.VERIFY always succeeds, and TAMPER is the comparison of its checksum with ARG. -/
theorem svVerifyComparesWithArg : Obligations.SvVerifyComparesWithArg := by
  unfold Obligations.SvVerifyComparesWithArg
  refine ⟨decode_encode .svVerify, fun s hidle => ⟨fun habsent => ?_, fun hpres => ?_⟩⟩
  · exact (Fails.noFile (by simp) habsent).exec_of_idle hidle
  · refine ⟨_, (Effect.svVerify hpres).exec_eq, ?_, ?_⟩
    · rw [fileChecksum_true]
      exact tampered_iff
    · rw [fileChecksum_true, finish_of_idle]
      · rfl
      · exact hidle

/-- Settles O23: SV.READ meets the image SV.WRITE has left, which Parse turns back into the Save and whose checksum is right. -/
theorem writeThenReadRestoresTheSave : Obligations.WriteThenReadRestoresTheSave := by
  unfold Obligations.WriteThenReadRestoresTheSave
  intro s rest hidle hwr hwf hinbox
  obtain ⟨w, hwrite, hwidle, -, hpres, hbytes, -⟩ :=
    exec_svWrite_file (s := { s with inbox := commandInput .svRead :: rest }) hwf hwr
  obtain ⟨hcfg, -, -, -, hqueue, -⟩ := exec_keeps _ _ _ hwrite
  have hslots := (exec_eq_next_iff.1 hwrite).slots_svWrite
  obtain ⟨t, hread, herr, htamper, hhdr, hslot⟩ :=
    exec_svRead_image (s := { w with inbox := rest }) (sv := s.save) hwidle hpres (by rw [hcfg]; exact hbytes)
  have hfirst := (step_commandInput hidle hinbox).trans hwrite
  have hsecond := (step_commandInput hwidle hqueue).trans hread
  refine ⟨t, ?_, herr, htamper, hcfg ▸ hhdr, fun j _ => ?_⟩
  · rw [runSteps_succ 1 hfirst, runSteps_succ 0 hsecond, runSteps]
  · rw [hslot j]
    simp only [hcfg, Save.slot, hslots]
end

section
/-! PROOFS. The accesses of the file-store commands in their order (O56), and the states of the file between the phases of
SV.WRITE (O58). -/

namespace Sys2Proof.Machine

/-! ### Writes at ascending offsets -/

/-- A run of writes, offset by offset. -/
theorem writesFrom_eq_map (off : Nat) (bs : List Byte) :
    writesFrom off bs = (List.range bs.length).map fun i => .write (off + i) (bs.getD i 0) := by
  induction bs generalizing off with
  | nil => rfl
  | cons b rest ih =>
    simp [writesFrom, ih, List.range_succ_eq_map, Function.comp_def, Nat.add_assoc, Nat.add_comm 1]

/-- The writes of a list from offset 0 on, as the runs of SV.WRITE give them. -/
theorem map_write_eq_writesFrom {bs : List Byte} {n : Nat} (h : bs.length = n) :
    ((List.range n).map fun i => FsAccess.write i (bs.getD i 0)) = writesFrom 0 bs := by
  simp only [writesFrom_eq_map, h, Nat.zero_add]

/-- Two runs of writes, one after the other, are one run. -/
theorem writesFrom_append (off : Nat) (bs cs : List Byte) :
    writesFrom off (bs ++ cs) = writesFrom off bs ++ writesFrom (off + bs.length) cs := by
  induction bs generalizing off with
  | nil => rfl
  | cons b rest ih =>
    simp only [List.cons_append, writesFrom, ih, List.length_cons]
    rw [show off + 1 + rest.length = off + (rest.length + 1) by omega]

/-- Ser(SV) is written as the placeholder and then its other bytes (`spec/41_marshaller.md` R142). -/
theorem writesFrom_ser (c : Config) (sv : Save) :
    writesFrom 0 (ser c sv) = writesFrom 0 [0, 0, 0, 0] ++ writesFrom 4 ((ser c sv).drop 4) :=
  writesFrom_append 0 [0, 0, 0, 0] ((ser c sv).drop 4)

/-! ### The order of the accesses -/

section
variable {s : State}

/-- Where SV.WRITE begins (`spec/41_marshaller.md` R142). -/
theorem beginInstr_svWrite (hwr : s.fs.wrOk = true) :
    beginInstr .svWrite s = .next { s with seq := { Sequencer.rest with phase := .w1 } } :=
  if_neg (by simp [hwr])

/-- Where SV.READ begins (R143). -/
theorem beginInstr_svRead (hpres : s.fs.present = true) (hlen : headerLen ≤ s.fs.len) :
    beginInstr .svRead s = .next (fetchingAt s 0) :=
  (if_neg (by simp [hpres])).trans (if_neg (Nat.not_lt.2 hlen))

/-- Where FS.CSUM, FS.CSUMZ and SV.VERIFY begin (`spec/40_checksum.md` R117). -/
theorem beginInstr_pass {i : Instr} {op : PassOp}
    (hi : (i, op) ∈ [(Instr.fsCsum, PassOp.csum), (.fsCsumz, .csumz), (.svVerify, .verify)])
    (hpres : s.fs.present = true) :
    beginInstr i s = .next (startPass .v1 { s with seq := { Sequencer.rest with op := op } }) := by
  have hbegin : beginInstr i s = beginPass op s := by
    simp only [List.mem_cons, Prod.mk.injEq, List.not_mem_nil, or_false] at hi
    rcases hi with ⟨rfl, rfl⟩ | ⟨rfl, rfl⟩ | ⟨rfl, rfl⟩ <;> rfl
  exact hbegin.trans (if_neg (by simp [hpres]))

/-- The accesses of SV.WRITE: the truncation, Ser(SV), the whole file, the checksum field (R140). -/
theorem svWrite_accesses (hlegal : s.cfg.legal) (hwr : s.fs.wrOk = true) (hwf : s.fs.data.wf) :
    ∃ k u, exec .svWrite s = .next u ∧ SeqRuns k { s with seq := { Sequencer.rest with phase := .w1 } } u
      (.truncate :: (writesFrom 0 (ser s.cfg s.save) ++ readsFrom 0 (s.cfg.fileLen s.save.hdr.count.toNat) ++
        writesFrom 0 (leBytes (fileSum (ser s.cfg s.save))))) := by
  obtain ⟨u, hexec, hruns⟩ := svWrite_runs s hlegal hwr
  rw [fileChecksum_serStore hwf, map_write_eq_writesFrom (ser_length ..), map_write_eq_writesFrom (leBytes_length _)]
    at hruns
  exact ⟨_, u, hexec, by simpa using hruns⟩

/-- The accesses of SV.READ by its outcome: the header, the whole file, the records (R140). -/
theorem svRead_accesses (hpres : s.fs.present = true) (hlen : headerLen ≤ s.fs.len) :
    ∃ k u, exec .svRead s = .next u ∧ SeqRuns k (fetchingAt s 0) u
      (readsFrom 0 8 ++
        (if u.err = .parseError then []
         else readsFrom 0 s.fs.len ++
          if u.err = .tamperError then [] else readsFrom 8 (s.cfg.recLen * (fileHeader s).count.toNat))) := by
  by_cases hshort : s.fs.len < s.cfg.fileLen (fileHeader s).count.toNat
  · obtain ⟨hruns, hexec⟩ := svRead_runs_short s hpres hlen hshort
    exact ⟨_, _, hexec, by simpa using hruns⟩
  · have hwhole := Nat.not_lt.1 hshort
    cases ht : tampered (fileChecksum true s.fs).x (fileHeader s).cksum with
    | true =>
      obtain ⟨hruns, hexec⟩ := svRead_runs_tampered s hpres hlen hwhole ht
      exact ⟨_, _, hexec, by simpa using hruns⟩
    | false =>
      obtain ⟨u, hruns, hexec⟩ := svRead_runs_sealed s hpres hlen hwhole ht
      have hsuccess := (Effect.svReadSealed ⟨hpres, hlen, hwhole⟩ ht).exec_eq
      cases hsuccess.symm.trans hexec
      exact ⟨_, _, hexec, by simpa using hruns⟩

/-- The accesses of a command that is a pass: the whole file (`spec/40_checksum.md` R117). -/
theorem pass_command_accesses {i : Instr} (hi : i ∈ [Instr.fsCsum, .fsCsumz, .svVerify]) (hpres : s.fs.present = true) :
    ∃ k t u, beginInstr i s = .next t ∧ exec i s = .next u ∧ SeqRuns k t u (readsFrom 0 s.fs.len) := by
  obtain ⟨op, hop⟩ : ∃ op, (i, op) ∈ [(Instr.fsCsum, PassOp.csum), (.fsCsumz, .csumz), (.svVerify, .verify)] := by
    simpa [exists_or] using hi
  obtain ⟨u, hruns, hexec⟩ := pass_command_runs i op hop s hpres
  exact ⟨_, _, u, beginInstr_pass hop hpres, hexec, hruns⟩

/-! ### The file between the phases of SV.WRITE -/

/-- A save file has room for its header. -/
theorem header_le_fileLen (c : Config) (n : Nat) : 8 ≤ c.fileLen n := Nat.le_add_right 8 _

/-- After phase W1 the placeholder is written: four zero bytes (R145). -/
theorem writingAt_placeholder_bytes (hwf : s.fs.data.wf) : (writingAt s 4).fs.bytes = [0, 0, 0, 0] :=
  bytes_writeBytes s.fs.createTrunc hwf _ (Nat.zero_le _)

/-- Phase W1: the truncation and the placeholder. -/
theorem svWrite_placeholder_runs (hlegal : s.cfg.legal) :
    SeqRuns 5 { s with seq := { Sequencer.rest with phase := .w1 } } (writingAt s 4)
      (.truncate :: writesFrom 0 [0, 0, 0, 0]) := by
  have hroom := header_le_fileLen s.cfg s.save.hdr.count.toNat
  have truncate : SeqRuns 1 { s with seq := { Sequencer.rest with phase := .w1 } } (writingAt s 0) [.truncate] :=
    seqRuns_access rfl rfl rfl
  exact seqRuns_trans truncate (seqRuns_range (writingAt s) (fun p => .write p ((ser s.cfg s.save).getD p 0)) 0 4
    fun p _ hp => writingAt_succ s hlegal p (by omega))

/-- After phase W2, and throughout W3, the file is Ser(SV) (R145). -/
theorem startPass_writtenState_bytes (hwf : s.fs.data.wf) :
    (startPass .w3 (writtenState s)).fs.bytes = ser s.cfg s.save := by
  rw [startPass_fs, writtenState_fs, serStore_bytes hwf]

/-- Phase W3: the file Ser(SV) is read, and the patch of its checksum field comes next. -/
theorem svWrite_pass_runs (s : State) :
    SeqRuns (s.cfg.fileLen s.save.hdr.count.toNat + 1) (startPass .w3 (writtenState s))
      (patchingAt s (fileChecksum false (serStore s)) 0) (readsFrom 0 (s.cfg.fileLen s.save.hdr.count.toNat)) := by
  have pass := startPass_runs false .w3 (.inl rfl) (writtenState s) rfl (by simp [writtenState, serStore])
  have decision : SeqRuns 1 (passAt false (startPass .w3 (writtenState s)) (writtenState s).fs.len)
      (patchingAt s (fileChecksum false (writtenState s).fs) 0) [] := by
    refine seqRuns_decide (by simp [passAt]) (seqAccess_passAt false .w3 (.inl rfl) (writtenState s)) ?_
    rw [seqDecide_w3 (by simp [passAt]), close_passAt]
    simp [passAt, startPass, writtenState, patchingAt, FileStore.writeBytes, Sequencer.rest]
  have run := seqRuns_trans pass decision
  rwa [List.append_nil, writtenState_fs, serStore_len] at run

/-- Phase W4 before its last byte: one byte of the checksum goes into its place. -/
theorem patchingAt_succ (s : State) (e : Engine) {p : Nat} (hp : p < 3) :
    SeqRuns 1 (patchingAt s e p) (patchingAt s e (p + 1)) [.write p ((leBytes e.x).getD p 0)] := by
  have hlen : p < (patchingAt s e p).fs.len := by
    have hroom := header_le_fileLen s.cfg s.save.hdr.count.toNat
    simp only [patchingAt]
    rw [writeBytes_len _ _ _ (Nat.zero_le _), serStore_len]
    omega
  have hperform : (patchingAt s e p).fs.perform (.write p ((leBytes e.x).getD p 0)) =
      (serStore s).writeBytes 0 ((leBytes e.x).take (p + 1)) :=
    writeBytes_take_succ _ _ _ (by rw [leBytes_length]; omega)
  refine seqRuns_access rfl ((permits_write _ _ _ _).2 ⟨by simp [patchingAt, serStore], .inl hlen⟩) ?_
  rw [hperform, seqTake_w4_inside _ rfl (by simp only [setFs_seq, patchingAt]; omega)]
  simp [patchingAt, State.setFs]

/-- Phase W4 up to its byte `j`. -/
theorem svWrite_patching_runs (s : State) (e : Engine) {j : Nat} (hj : j < 4) :
    SeqRuns j (patchingAt s e 0) (patchingAt s e j)
      ((List.range j).map fun i => .write i ((leBytes e.x).getD i 0)) := by
  have bytes := seqRuns_range (patchingAt s e) (fun p => .write p ((leBytes e.x).getD p 0)) 0 j fun _ _ _ =>
    patchingAt_succ s e (by omega)
  simpa only [Nat.zero_add] using bytes

/-- During phase W4 the bytes of the checksum appear from the lowest offset on (R145). -/
theorem patchingAt_bytes (hwf : s.fs.data.wf) {j : Nat} (hj : j < 4) :
    (patchingAt s (fileChecksum false (serStore s)) j).fs.bytes =
      (leBytes (fileSum (ser s.cfg s.save))).take j ++ (ser s.cfg s.save).drop j := by
  have htake : ((leBytes (fileSum (ser s.cfg s.save))).take j).length = j :=
    List.length_take_of_le (by rw [leBytes_length]; omega)
  have hroom : ((leBytes (fileSum (ser s.cfg s.save))).take j).length ≤ (serStore s).len := by
    have := header_le_fileLen s.cfg s.save.hdr.count.toNat
    rw [htake, serStore_len]
    omega
  simp only [patchingAt]
  rw [fileChecksum_serStore hwf, bytes_writeBytes_head _ (serStore_wf hwf) _ hroom, htake, serStore_bytes hwf]

end

end Sys2Proof.Machine

open Sys2Proof Sys2Proof.Machine

/-- Settles O56: the accesses of a run, phase by phase, are those of the rule. -/
theorem accessesComeInTheListedOrder : Obligations.AccessesComeInTheListedOrder := by
  unfold Obligations.AccessesComeInTheListedOrder
  intro s _ hlegal
  refine ⟨fun hwr hwf => ?_, fun hpres hlen => ?_, fun hpres i hi => ?_⟩
  · obtain ⟨k, u, hexec, hrun, htrace⟩ := svWrite_accesses hlegal hwr hwf
    exact ⟨k, _, beginInstr_svWrite hwr, hrun.trans hexec.symm, by rw [htrace, writesFrom_ser, fileLen_eq]⟩
  · obtain ⟨k, u, hexec, hrun, htrace⟩ := svRead_accesses hpres hlen
    exact ⟨k, _, u, beginInstr_svRead hpres hlen, hrun, hexec, by rw [htrace, fileHeader_count hlen]⟩
  · obtain ⟨k, t, u, hbegin, hexec, hrun, htrace⟩ := pass_command_accesses hi hpres
    exact ⟨k, t, hbegin, hrun.trans hexec.symm, htrace⟩

/-- Settles O58: the run of SV.WRITE, cut at the ends of its phases and at each byte of the patch. -/
theorem transientFilesOfSvWrite : Obligations.TransientFilesOfSvWrite := by
  unfold Obligations.TransientFilesOfSvWrite
  intro s _ hlegal hwr hwf
  have hlen := header_le_fileLen s.cfg s.save.hdr.count.toNat
  have hbody := svWrite_body_runs s hlegal
  simp only [← fileLen_eq]
  rw [show 5 + (s.cfg.fileLen s.save.hdr.count.toNat - 4) = 1 + s.cfg.fileLen s.save.hdr.count.toNat by omega]
  refine ⟨_, beginInstr_svWrite hwr, ⟨_, (svWrite_placeholder_runs hlegal).1, rfl, writingAt_placeholder_bytes hwf⟩,
    ⟨_, hbody.1, rfl, startPass_writtenState_bytes hwf⟩, fun j hj => ?_, ?_⟩
  · have hrun := seqRuns_trans (seqRuns_trans hbody (svWrite_pass_runs s)) (svWrite_patching_runs s _ hj)
    exact ⟨_, hrun.1, rfl, patchingAt_bytes hwf hj⟩
  · have hrun := seqRuns_trans (seqRuns_trans hbody (svWrite_pass_runs s)) (svWrite_patch_runs s _)
    exact ⟨_, hrun.1, rfl, sealedState_bytes hwf⟩
end

section
/-! PROOFS. The save-buffer commands one by one (`spec/42_save_buffer.md` R170 to R175): SV.APPEND (O25), SV.NEW and SV.INIT
(O26), SC.GET (O27), SC.PUT (O28), and that SC.GET gives back what SC.PUT has stored (O29). -/

namespace Sys2Proof.Machine

/-! ### Staging registers and a Score (R170) -/

/-- A date packed again from its parts is the date. -/
theorem packDate_parts (d : BitVec 24) : packDate (dayOf d) (monthOf d) (yearOf d) = d := by
  have hupper : yearOf d ++ monthOf d = d.extractLsb' 8 16 := BitVec.extractLsb'_append_extractLsb'_eq_extractLsb' rfl
  have hdate : d.extractLsb' 8 16 ++ dayOf d = d.extractLsb' 0 24 :=
    BitVec.extractLsb'_append_extractLsb'_eq_extractLsb' rfl
  rw [packDate, hupper, hdate, BitVec.extractLsb'_eq_self]

/-- The staging registers, loaded with the Score that a state's staging registers hold, hold what they hold there. -/
theorem loadStaging_stagingScore (s t : State) :
    loadStaging (stagingScore s) t = { t with scDate := s.scDate, scValue := s.scValue, scInit := s.scInit } := by
  have hdate : packDate (stagingScore s).day (stagingScore s).month (stagingScore s).year = s.scDate :=
    packDate_parts s.scDate
  have hinit : packInitials (stagingScore s) = s.scInit := le32_leBytes s.scInit
  rw [loadStaging, hdate, hinit]
  rfl

/-! ### The save buffer's bounds -/

section
variable {s : State}

/-- The count is at most the number of slots, so an index below it names a slot (R45). -/
theorem lt_slotCount_of_lt_count {i : Nat} (h : i < s.save.hdr.count.toNat) : i < slotCount :=
  Nat.lt_of_lt_of_le h (Nat.le_of_lt_succ s.save.hdr.count.isLt)

/-- An index at or past the count is out of bounds (R46). -/
theorem inBounds_eq_false_iff {idx : Byte} : inBounds idx s = false ↔ s.save.hdr.count.toNat ≤ idx.toNat := by
  rw [← Bool.not_eq_true, inBounds_iff, Nat.not_lt]
  rfl

/-- SC.PUT of an index in bounds writes that slot and no other. -/
theorem slot_putSlot_of_inBounds {idx : Byte} (h : inBounds idx s = true) (sc : Score) (j : Nat) :
    (s.save.putSlot (immNat idx) sc).slot j = if j = immNat idx then sc else s.save.slot j :=
  slot_putSlot s.save _ j sc (lt_slotCount_of_lt_count (inBounds_iff.1 h))

/-- The slots after SV.APPEND (R171). -/
theorem slot_appendedSave (h : s.save.hdr.count.toNat ≠ 255) (j : Nat) :
    (appendedSave s).slot j = if j = s.save.hdr.count.toNat then stagingScore s else s.save.slot j :=
  slot_putSlot s.save _ j _ (Nat.lt_of_le_of_ne (Nat.le_of_lt_succ s.save.hdr.count.isLt) h)

/-! ### The effect of a command in an IDLE block -/

/-- A command whose work leaves the sequencer IDLE writes STATUS.ERR beside that work (`spec/60_exceptions.md` R190). -/
theorem Effect.exec_of_idle {i : Instr} {code : ResultCode} {u : State} (h : Effect s i (finish code u)) (hidle : u.idle) :
    exec i s = .next { u with err := code } := by
  rw [h.exec_eq, finish_of_idle u code hidle]

/-- SC.GET reads what SC.PUT has put into a slot in bounds, whatever the staging registers hold. -/
theorem exec_scGet_of_putSlot {idx : Byte} {u : State} (h : inBounds idx s = true)
    (hsave : u.save = s.save.putSlot (immNat idx) (stagingScore s)) :
    exec (.scGet idx) u =
      .next (finish .success { u with scDate := s.scDate, scValue := s.scValue, scInit := s.scInit }) := by
  have hin : inBounds idx u = true := by rwa [inBounds, hsave, putSlot_hdr]
  have hslot : u.save.slot (immNat idx) = stagingScore s := by
    rw [hsave, slot_putSlot_of_inBounds h, if_pos rfl]
  rw [(Effect.scGet idx hin).exec_eq, hslot, loadStaging_stagingScore]

end

end Sys2Proof.Machine

open Sys2Proof Sys2Proof.Machine

/-- Settles O25: at count 255 the buffer is full; below it slot `SV.count` is written and the count does not wrap. -/
theorem svAppendAddsTheStagingScore : Obligations.SvAppendAddsTheStagingScore := by
  unfold Obligations.SvAppendAddsTheStagingScore
  refine ⟨decode_encode .svAppend, fun s hidle => ⟨fun hfull => ?_, fun hroom => ?_⟩⟩
  · exact (Fails.bufferFull (BitVec.eq_of_toNat_eq hfull)).exec_of_idle hidle
  · have hne : s.save.hdr.count ≠ 255#8 := fun heq => hroom (congrArg BitVec.toNat heq)
    have hcount : (s.save.hdr.count + 1).toNat = s.save.hdr.count.toNat + 1 := by bv_omega
    exact ⟨_, (appendedSave s).slots, hcount, (Effect.svAppend hne).exec_of_idle hidle,
      fun j _ => slot_appendedSave hroom j⟩

/-- Settles O26: both commands draw the slots below the new count and differ in the date alone. -/
theorem svNewAndSvInitMakeANewSave : Obligations.SvNewAndSvInitMakeANewSave := by
  unfold Obligations.SvNewAndSvInitMakeANewSave
  refine ⟨fun n => ⟨decode_or (.svNew n), decode_or (.svInit n)⟩, fun s n hidle => ?_⟩
  have hn : immNat n ≤ slotCount := Nat.le_of_lt_succ n.isLt
  exact ⟨redrawSlots (immNat n) s.draws s.save.slots, fun h j _ => slot_redrawSlots _ s.draws s.save h j hn,
    (Effect.svNew n).exec_of_idle hidle, (Effect.svInit n).exec_of_idle hidle⟩

/-- Settles O27: the bounds check against the count decides; in bounds the slot goes to the staging registers. -/
theorem scGetCopiesASlotToStaging : Obligations.ScGetCopiesASlotToStaging := by
  unfold Obligations.ScGetCopiesASlotToStaging
  refine ⟨fun i => decode_or (.scGet i), fun s i hidle => ⟨fun hout => ?_, fun hin => ?_⟩⟩
  · exact (Fails.outOfBounds i (.inl rfl) (inBounds_eq_false_iff.2 hout)).exec_of_idle hidle
  · exact (Effect.scGet i (inBounds_iff.2 hin)).exec_of_idle hidle

/-- Settles O28: the bounds check against the count decides; in bounds the staging Score goes to the slot. -/
theorem scPutCopiesStagingToASlot : Obligations.ScPutCopiesStagingToASlot := by
  unfold Obligations.ScPutCopiesStagingToASlot
  refine ⟨fun i => decode_or (.scPut i), fun s i hidle => ⟨fun hout => ?_, fun hlt => ?_⟩⟩
  · exact (Fails.outOfBounds i (.inr rfl) (inBounds_eq_false_iff.2 hout)).exec_of_idle hidle
  · have hin : inBounds i s = true := inBounds_iff.2 hlt
    exact ⟨_, (Effect.scPut i hin).exec_of_idle hidle, fun j _ => slot_putSlot_of_inBounds hin _ j⟩

/-- Settles O29: a successful SC.PUT was in bounds, and SC.GET then finds its index in bounds and its Score in the slot. -/
theorem scPutThenScGetGivesTheScoreBack : Obligations.ScPutThenScGetGivesTheScoreBack := by
  unfold Obligations.ScPutThenScGetGivesTheScoreBack
  intro s t i d v w hput herr
  cases exec_eq_next_iff.1 hput with
  | failed hfail => exact absurd herr hfail.code_ne.1
  | scPut _ hin => exact ⟨_, exec_scGet_of_putSlot hin rfl, rfl, rfl, rfl, rfl, rfl⟩
end

section
/-! PROOFS. Errors (`spec/60_exceptions.md`): their causes and codes (O39), what they leave as it was (O40), and that no command
reads a byte of the store at or past `fs.len` (O37). -/

namespace Sys2Proof.Machine

section
variable {s t : State} {i : Instr}

/-! ### Which error, and why -/

/-- An error other than TamperError is a failure before anything was written (`spec/60_exceptions.md` R193). -/
theorem Effect.fails_of_err {code : ResultCode} (h : Effect s i t) (herr : t.err = code) (hs : code ≠ .success)
    (ht : code ≠ .tamperError) : Fails s i code := by
  cases h with
  | failed h =>
    subst herr
    exact h
  | svReadTampered => exact absurd herr.symm ht
  | _ => exact absurd herr.symm hs

/-- IoError: no file to read, or a store that cannot be written (R191). -/
theorem Fails.ioError_cause (h : Fails s i .ioError) :
    (i ∈ [Instr.fsCsum, .fsCsumz, .svRead, .svVerify] ∧ s.fs.present = false) ∨ (i = .svWrite ∧ s.fs.wrOk = false) := by
  cases h with
  | noFile hi habsent => exact .inl ⟨hi, habsent⟩
  | notWritable hro => exact .inr ⟨rfl, hro⟩

/-- ParseError: SV.READ of a file too short for its header, or for the records its count byte announces (R191). -/
theorem Fails.parseError_cause (h : Fails s i .parseError) :
    i = .svRead ∧ s.fs.present = true ∧ (s.fs.len < 8 ∨ s.fs.len < 8 + s.cfg.recLen * (s.fs.byteAt 7).toNat) := by
  cases h with
  | shortFile hpres hshort =>
    refine ⟨rfl, hpres, ?_⟩
    by_cases h8 : s.fs.len < headerLen
    · exact .inl h8
    · rw [← fileLen_fileHeader (Nat.not_lt.1 h8)]
      exact .inr (hshort.resolve_left h8)

/-- CapacityError: SV.APPEND to a full buffer (R195). -/
theorem Fails.capacityError_cause (h : Fails s i .capacityError) : i = .svAppend ∧ s.save.hdr.count.toNat = 255 := by
  cases h with
  | bufferFull hfull => exact ⟨rfl, congrArg BitVec.toNat hfull⟩

/-- BoundsError: SC.GET or SC.PUT of a slot at or past the count (R196). -/
theorem Fails.boundsError_cause (h : Fails s i .boundsError) :
    ∃ idx : Byte, (i = .scGet idx ∨ i = .scPut idx) ∧ s.save.hdr.count.toNat ≤ idx.toNat := by
  cases h with
  | outOfBounds idx hi hout => exact ⟨idx, hi, inBounds_eq_false_iff.1 hout⟩

/-- No command raises IllegalCommand: that is for words that are none (R199). -/
theorem Fails.code_ne_illegalCommand : ¬ Fails s i .illegalCommand := nofun

/-- TamperError: SV.READ of a whole file whose checksum is not the stored one. It is raised after the checksum pass, which has
written the Checksum Engine, RESULT and TAMPER (R193). -/
theorem Effect.tamperError_cause (h : Effect s i t) (ht : t.err = .tamperError) :
    i = .svRead ∧ s.holdsWholeFile ∧ fileSum (zeroHead s.fs.bytes) ≠ (headerOfBytes s.fs.bytes).cksum ∧
      t = finish .tamperError { s with ce := Engine.done (fileSum (zeroHead s.fs.bytes)),
                                       result := fileSum (zeroHead s.fs.bytes), tamper := true } := by
  cases h with
  | failed h => exact absurd ht h.code_ne.2
  | svReadTampered hfile hsum =>
    have ⟨_, h8, _⟩ := hfile
    refine ⟨rfl, hfile, ?_, ?_⟩
    · rw [fileChecksum_true, fileHeader_eq h8] at hsum
      exact tampered_iff.1 hsum
    · rw [verifiedState, hsum, fileChecksum_true]
      rfl
  | _ => cases ht

end

/-! ### Stores that hold the same file -/

/-- `g` holds the same file as `f`, and the store is as writable; the raw bytes at and past the length may differ (R194). -/
structure FileStore.SameFile (f g : FileStore) : Prop where
  present : g.present = f.present
  wrOk : g.wrOk = f.wrOk
  len : g.len = f.len
  bytes : g.bytes = f.bytes

section
variable {f g : FileStore}

/-- A checksum pass reads the bytes of the file alone. -/
theorem FileStore.SameFile.fileChecksum_eq (h : f.SameFile g) (z : Bool) : fileChecksum z g = fileChecksum z f := by
  cases z with
  | false => rw [fileChecksum_false, fileChecksum_false, h.bytes]
  | true => rw [fileChecksum_true, fileChecksum_true, h.bytes]

/-- Reads that end inside the file bring the same bytes. -/
theorem FileStore.SameFile.readBytes_eq (h : f.SameFile g) {off n : Nat} (hin : off + n ≤ f.len) :
    g.readBytes off n = f.readBytes off n := by
  have cut (e : FileStore) (he : off + n ≤ e.len) : e.readBytes off n = (e.bytes.drop off).take n := by
    rw [FileStore.bytes, readBytes_drop_take e 0 e.len off n he, Nat.zero_add]
  rw [cut g (h.len ▸ hin), cut f hin, h.bytes]

end

/-! ### The same command on two stores that hold the same file -/

/-- Record `j` of a whole file ends inside the file (`spec/20_memory.md` R64). -/
theorem recordBase_add_recLen_le {c : Config} {n j : Nat} (hj : j < n) : recordBase c j + c.recLen ≤ c.fileLen n := by
  have := Nat.mul_le_mul_left c.recLen hj
  rw [Nat.mul_succ] at this
  rw [fileLen_eq, recordBase, headerLen]
  omega

section
variable {s : State} {i : Instr} {f : FileStore} (h : s.fs.SameFile f)
include h

/-- A header that is there is the same in both files. -/
theorem FileStore.SameFile.fileHeader_eq (h8 : headerLen ≤ s.fs.len) : fileHeader (s.setFs f) = fileHeader s :=
  congrArg headerOfBytes (h.readBytes_eq ((Nat.zero_add _).trans_le h8))

/-- A whole file is whole in both stores. -/
theorem FileStore.SameFile.holdsWholeFile (hfile : s.holdsWholeFile) : (s.setFs f).holdsWholeFile := by
  obtain ⟨hpres, h8, hwhole⟩ := hfile
  refine ⟨h.present.trans hpres, h8.trans_eq h.len.symm, ?_⟩
  rw [h.fileHeader_eq h8]
  exact hwhole.trans_eq h.len.symm

/-- SV.READ finds the same checksums in both files. -/
theorem FileStore.SameFile.verifiedState_eq (h8 : headerLen ≤ s.fs.len) :
    verifiedState (s.setFs f) = (verifiedState s).setFs f := by
  rw [verifiedState, h.fileHeader_eq h8, setFs_fs, h.fileChecksum_eq]
  rfl

/-- SV.READ commits the same Save from both files. -/
theorem FileStore.SameFile.loadedSave_eq (hfile : s.holdsWholeFile) : loadedSave (s.setFs f) = loadedSave s := by
  obtain ⟨-, h8, hwhole⟩ := hfile
  have hcount : (fileHeader s).count.toNat ≤ 255 := Nat.le_of_lt_succ (fileHeader s).count.isLt
  rw [loadedSave, h.fileHeader_eq h8, loadedSave]
  refine save_eq_of_slots _ _ (by rw [loadRecords_hdr, loadRecords_hdr]) fun j _ => ?_
  rw [slot_loadRecords _ _ _ hcount, slot_loadRecords _ _ _ hcount]
  by_cases hj : j < (fileHeader s).count.toNat
  · rw [if_pos hj, if_pos hj]
    exact congrArg _ (h.readBytes_eq ((recordBase_add_recLen_le hj).trans hwhole))
  · rw [if_neg hj, if_neg hj]
    rfl

/-- A command fails for the same cause on both stores. -/
theorem Fails.of_sameFile {code : ResultCode} (hfail : Fails s i code) : Fails (s.setFs f) i code := by
  cases hfail with
  | noFile hi habsent => exact .noFile hi (h.present.trans habsent)
  | notWritable hro => exact .notWritable (h.wrOk.trans hro)
  | bufferFull hfull => exact .bufferFull hfull
  | outOfBounds idx hi hout => exact .outOfBounds idx hi hout
  | shortFile hpres hshort =>
    refine .shortFile (h.present.trans hpres) ?_
    rw [setFs_fs, h.len]
    by_cases h8 : s.fs.len < headerLen
    · exact .inl h8
    · rw [h.fileHeader_eq (Nat.not_lt.1 h8)]
      exact .inr (hshort.resolve_left h8)

end

/-- SV.WRITE leaves the same file in both stores: the image of the Save. -/
theorem sameFile_sealedStore {s : State} {f : FileStore} (hwf : s.fs.data.wf) (hf : f.data.wf) (hwr : f.wrOk = s.fs.wrOk) :
    (sealedStore s).SameFile (sealedStore (s.setFs f)) where
  present := (sealedStore_present _).trans (sealedStore_present _).symm
  wrOk := ((sealedStore_wrOk _).trans hwr).trans (sealedStore_wrOk _).symm
  len := (sealedStore_len (s.setFs f)).trans (sealedStore_len s).symm
  bytes := (sealedStore_bytes hf).trans (sealedStore_bytes hwf).symm

/-- Every effect is the same on a store that holds the same file, and leaves the same file. -/
theorem Effect.of_sameFile {s t : State} {i : Instr} {f : FileStore} (hsame : s.fs.SameFile f) (hwf : s.fs.data.wf)
    (hf : f.data.wf) (h : Effect s i t) :
    ∃ t', Effect (s.setFs f) i t' ∧ t' = t.setFs t'.fs ∧ t.fs.SameFile t'.fs := by
  cases h with
  | failed h => exact ⟨_, .failed (h.of_sameFile hsame), rfl, hsame⟩
  | adlRst => exact ⟨_, .adlRst, rfl, hsame⟩
  | adlByte d => exact ⟨_, .adlByte d, rfl, hsame⟩
  | adlVal => exact ⟨_, .adlVal, rfl, hsame⟩
  | ckInit => exact ⟨_, .ckInit, rfl, hsame⟩
  | ckPush d => exact ⟨_, .ckPush d, rfl, hsame⟩
  | ckEnd => exact ⟨_, .ckEnd, rfl, hsame⟩
  | fsCsum hpres =>
    refine ⟨_, .fsCsum (hsame.present.trans hpres), ?_, hsame⟩
    rw [setFs_fs, hsame.fileChecksum_eq]
    rfl
  | fsCsumz hpres =>
    refine ⟨_, .fsCsumz (hsame.present.trans hpres), ?_, hsame⟩
    rw [setFs_fs, hsame.fileChecksum_eq]
    rfl
  | svVerify hpres =>
    refine ⟨_, .svVerify (hsame.present.trans hpres), ?_, hsame⟩
    rw [setFs_fs, hsame.fileChecksum_eq]
    rfl
  | svWrite hwr =>
    refine ⟨_, .svWrite (hsame.wrOk.trans hwr), ?_⟩
    rw [fileChecksum_serStore_eq_done hwf, fileChecksum_serStore_eq_done (s := s.setFs f) hf]
    exact ⟨rfl, sameFile_sealedStore hwf hf hsame.wrOk⟩
  | svReadTampered hfile ht =>
    have ⟨_, h8, _⟩ := hfile
    refine ⟨_, .svReadTampered (hsame.holdsWholeFile hfile) ?_, ?_, hsame⟩
    · rwa [setFs_fs, hsame.fileChecksum_eq, hsame.fileHeader_eq h8]
    · rw [hsame.verifiedState_eq h8]
      rfl
  | svReadSealed hfile ht =>
    have ⟨_, h8, _⟩ := hfile
    refine ⟨_, .svReadSealed (hsame.holdsWholeFile hfile) ?_, ?_, hsame⟩
    · rwa [setFs_fs, hsame.fileChecksum_eq, hsame.fileHeader_eq h8]
    · rw [hsame.verifiedState_eq h8, hsame.loadedSave_eq hfile]
      rfl
  | svAppend hfull => exact ⟨_, .svAppend hfull, rfl, hsame⟩
  | svNew n => exact ⟨_, .svNew n, rfl, hsame⟩
  | svInit n => exact ⟨_, .svInit n, rfl, hsame⟩
  | scGet idx hin => exact ⟨_, .scGet idx hin, rfl, hsame⟩
  | scPut idx hin => exact ⟨_, .scPut idx hin, rfl, hsame⟩

end Sys2Proof.Machine

open Sys2Proof Sys2Proof.Machine

/-- Settles O37: no effect reads past the file's bytes; SV.WRITE leaves the image of the Save, whatever stood in the store. -/
theorem bytesPastTheLengthAreNeverRead : Obligations.BytesPastTheLengthAreNeverRead := by
  unfold Obligations.BytesPastTheLengthAreNeverRead
  intro i s t f hwf hf hpres hwr hlen hbytes h
  have hsame : s.fs.SameFile f := ⟨hpres, hwr, hlen, bytes_congr f s.fs hlen hbytes⟩
  obtain ⟨t', he, hframe, hfile⟩ := (exec_eq_next_iff.1 h).of_sameFile hsame hwf hf
  refine ⟨t', he.exec_eq, ?_, hfile.present, hfile.wrOk, hfile.len, hfile.bytes⟩
  rw [hframe]
  rfl

/-- Settles O39: an error is a failure before the command's work, each with its cause, or the TamperError of SV.READ. -/
theorem errorsHaveTheirCausesAndCodes : Obligations.ErrorsHaveTheirCausesAndCodes := by
  unfold Obligations.ErrorsHaveTheirCausesAndCodes
  refine ⟨rfl, fun i s t h => ?_⟩
  have he := exec_eq_next_iff.1 h
  refine ⟨fun herr => (he.fails_of_err herr (by simp) (by simp)).ioError_cause,
    fun herr => (he.fails_of_err herr (by simp) (by simp)).parseError_cause, fun herr => ?_,
    fun herr => (he.fails_of_err herr (by simp) (by simp)).capacityError_cause,
    fun herr => (he.fails_of_err herr (by simp) (by simp)).boundsError_cause,
    fun herr => Fails.code_ne_illegalCommand (he.fails_of_err herr (by simp) (by simp))⟩
  obtain ⟨rfl, ⟨hpres, h8, -⟩, hsum, rfl⟩ := he.tamperError_cause herr
  exact ⟨rfl, hpres, h8, hsum, rfl, rfl, rfl⟩

/-- Settles O40: a failure ends the state it was given, TamperError that state with the checksum pass's registers; from an IDLE
block the end writes STATUS.ERR alone. -/
theorem errorsLeaveEverythingElseAsItWas : Obligations.ErrorsLeaveEverythingElseAsItWas := by
  unfold Obligations.ErrorsLeaveEverythingElseAsItWas
  refine ⟨fun i s hidle => ?_, fun s w why hidle hdec => ?_⟩
  · obtain ⟨t, he⟩ := exists_effect i s
    obtain ⟨-, -, -, -, -, htidle⟩ := exec_keeps i s t he.exec_eq
    refine ⟨t, he.exec_eq, htidle, fun hs ht => ?_, fun ht => ?_⟩
    · obtain ⟨code, rfl⟩ := he.exists_finish_of_err hs ht
      exact finish_of_idle s code hidle
    · obtain ⟨-, -, -, rfl⟩ := he.tamperError_cause ht
      exact finish_of_idle _ _ hidle
  · rcases issueCommand_cases w s with ⟨i, hcmd, -⟩ | ⟨-, -, he⟩
    · cases hdec.symm.trans hcmd
    · rw [he, finish_of_idle s _ hidle]
end

section
/-! PROOFS. Every command ends, after the accesses the table counts for it and its outcome (`spec/70_reset_and_hazards.md` R237,
O57). -/

namespace Sys2Proof.Machine

/-! ### Counting accesses -/

/-- The counts of two lists of accesses add up. -/
theorem accessCounts_append (l r : List FsAccess) : accessCounts (l ++ r) = accessCounts l + accessCounts r := by
  simp [accessCounts]

theorem accessCounts_truncate_cons (l : List FsAccess) : accessCounts (.truncate :: l) = (0, 0, 1) + accessCounts l :=
  accessCounts_append [.truncate] l

theorem accessCounts_readsFrom (off n : Nat) : accessCounts (readsFrom off n) = (n, 0, 0) := by
  simp [accessCounts, readsFrom, List.countP_map, Function.comp_def]

theorem accessCounts_writesFrom (off : Nat) (bs : List Byte) : accessCounts (writesFrom off bs) = (0, bs.length, 0) := by
  simp [accessCounts, writesFrom_eq_map, List.countP_map, Function.comp_def]

/-! ### A command ends after the accesses the table counts -/

/-- Command `i`, begun in `s` and run with nothing in between, ends in `u` after as many accesses as the table gives for it. -/
def EndsAfterListedAccesses (i : Instr) (s u : State) : Prop :=
  ∃ k t, beginInstr i s = .next t ∧ seqRun k t = .next u ∧ accessCounts (seqTrace k t) = expectedCounts i s u.err

section
variable {s u : State} {i : Instr}

/-- A command that is over as it begins, in a row of the table that counts no access. -/
theorem endsAfterListedAccesses_at_once (hbegin : beginInstr i s = .next u)
    (hnone : expectedCounts i s u.err = (0, 0, 0)) : EndsAfterListedAccesses i s u :=
  ⟨0, u, hbegin, rfl, hnone.symm⟩

/-- A pass over a present file reads the whole file (`spec/40_checksum.md` R117). -/
theorem pass_endsAfterListedAccesses (hi : i ∈ [Instr.fsCsum, .fsCsumz, .svVerify]) (hpres : s.fs.present = true)
    (he : exec i s = .next u) (hcounts : expectedCounts i s u.err = (s.fs.len, 0, 0)) :
    EndsAfterListedAccesses i s u := by
  obtain ⟨k, t, v, hbegin, hexec, hrun, htrace⟩ := pass_command_accesses hi hpres
  cases he.symm.trans hexec
  exact ⟨k, t, hbegin, hrun, by rw [htrace, accessCounts_readsFrom, hcounts]⟩

/-- SV.WRITE truncates, writes Ser(SV), reads it back and patches four bytes (`spec/41_marshaller.md` R142). -/
theorem svWrite_endsAfterListedAccesses (hlegal : s.cfg.legal) (hwr : s.fs.wrOk = true)
    (he : exec .svWrite s = .next u) (herr : u.err = .success) : EndsAfterListedAccesses .svWrite s u := by
  obtain ⟨v, hexec, hrun, htrace⟩ := svWrite_runs s hlegal hwr
  cases he.symm.trans hexec
  rw [map_write_eq_writesFrom (ser_length ..), map_write_eq_writesFrom (leBytes_length _)] at htrace
  refine ⟨_, _, beginInstr_svWrite hwr, hrun, ?_⟩
  rw [htrace, herr]
  simp [accessCounts_append, accessCounts_truncate_cons, accessCounts_readsFrom, accessCounts_writesFrom, ser_length,
    leBytes_length, expectedCounts, fileLen_eq]

/-- SV.READ of a present file with a header reads the header, then, where the length is right, the whole file, then, where the
checksum is right, the records (R143). -/
theorem svRead_endsAfterListedAccesses (hpres : s.fs.present = true) (hlen : headerLen ≤ s.fs.len)
    (he : exec .svRead s = .next u) (hio : u.err ≠ .ioError) : EndsAfterListedAccesses .svRead s u := by
  obtain ⟨k, v, hexec, hrun, htrace⟩ := svRead_accesses hpres hlen
  cases he.symm.trans hexec
  refine ⟨k, _, beginInstr_svRead hpres hlen, hrun, ?_⟩
  have hheader : ¬s.fs.len < 8 := Nat.not_lt.2 hlen
  rw [htrace, fileHeader_count hlen]
  by_cases hparse : u.err = .parseError
  · simp [expectedCounts, hparse, hheader, accessCounts_readsFrom]
  · by_cases htamper : u.err = .tamperError
    · simp [expectedCounts, htamper, accessCounts_append, accessCounts_readsFrom]
    · simp [expectedCounts, hio, hparse, htamper, accessCounts_append, accessCounts_readsFrom, Nat.add_assoc]

/-- A failing command makes no access, but for SV.READ of a file that has a header and is too short for its records. -/
theorem Fails.endsAfterListedAccesses {code : ResultCode} (h : Fails s i code) :
    EndsAfterListedAccesses i s (finish code s) := by
  have hexec := h.exec_eq
  cases h with
  | noFile hi habsent =>
    simp only [List.mem_cons, List.not_mem_nil, or_false] at hi
    rcases hi with rfl | rfl | rfl | rfl <;> exact endsAfterListedAccesses_at_once (if_pos habsent) rfl
  | notWritable hro => exact endsAfterListedAccesses_at_once (if_pos hro) rfl
  | shortFile hpres hshort =>
    by_cases h8 : s.fs.len < headerLen
    · exact endsAfterListedAccesses_at_once ((if_neg (by simp [hpres])).trans (if_pos h8))
        (congrArg (fun n => (n, 0, 0)) (if_pos h8))
    · exact svRead_endsAfterListedAccesses hpres (Nat.not_lt.1 h8) hexec nofun
  | bufferFull hfull => exact endsAfterListedAccesses_at_once hexec rfl
  | outOfBounds idx hi hout =>
    rcases hi with rfl | rfl <;> exact endsAfterListedAccesses_at_once hexec rfl

/-- Every effect is reached after the accesses the table counts for the command and the outcome. -/
theorem Effect.endsAfterListedAccesses (hlegal : s.cfg.legal) (h : Effect s i u) : EndsAfterListedAccesses i s u := by
  have hexec := h.exec_eq
  cases h with
  | failed h => exact h.endsAfterListedAccesses
  | fsCsum hpres => exact pass_endsAfterListedAccesses (by simp) hpres hexec rfl
  | fsCsumz hpres => exact pass_endsAfterListedAccesses (by simp) hpres hexec rfl
  | svVerify hpres => exact pass_endsAfterListedAccesses (by simp) hpres hexec rfl
  | svWrite hwr => exact svWrite_endsAfterListedAccesses hlegal hwr hexec rfl
  | svReadTampered hfile _ =>
    obtain ⟨hpres, hlen, -⟩ := hfile
    exact svRead_endsAfterListedAccesses hpres hlen hexec nofun
  | svReadSealed hfile _ =>
    obtain ⟨hpres, hlen, -⟩ := hfile
    exact svRead_endsAfterListedAccesses hpres hlen hexec nofun
  | _ => exact endsAfterListedAccesses_at_once hexec rfl

end

end Sys2Proof.Machine

open Sys2Proof Sys2Proof.Machine

/-- Settles O57: a command ends in its effect, after the accesses of its row of the table; an illegal word is over at once. -/
theorem everyCommandEndsAfterTheListedAccesses : Obligations.EveryCommandEndsAfterTheListedAccesses := by
  unfold Obligations.EveryCommandEndsAfterTheListedAccesses
  refine ⟨fun s i _ hlegal => ?_, fun s w why _ hdec => ?_⟩
  · obtain ⟨u, he⟩ := exists_effect i s
    obtain ⟨k, t, hbegin, hrun, hcounts⟩ := he.endsAfterListedAccesses hlegal
    obtain ⟨-, -, -, -, -, hidle⟩ := exec_keeps i s u he.exec_eq
    exact ⟨k, t, u, hbegin, hrun, hidle, hcounts⟩
  · rcases beginCommand_cases w s with ⟨i, hcmd, -⟩ | ⟨-, -, hbegin⟩
    · cases hdec.symm.trans hcmd
    · exact ⟨_, hbegin, rfl, rfl, fun k => (seqRun_of_idle k _ rfl).1⟩
end
